-- ==== Sys2Proof/Word.lean ====
section
/-! DEFINITION. The words of the block: the widths of 00_scope.md (R5 symbols, R6 node indices, R7 frequencies), the
64-bit command and response words (30_encoding.md R80, R86), and the bit token of R12. -/

namespace Sys2Proof

/-- A command or response word (R80, R86). -/
abbrev Word64 := BitVec 64

/-- A symbol: SYM_W = 9 bits, unsigned (R5). -/
abbrev Sym := BitVec 9

/-- A node index: IDX_W = 10 bits (R6). -/
abbrev Idx := BitVec 10

/-- A frequency: FREQ_W = 32 bits, unsigned (R7). -/
abbrev Freq := BitVec 32

/-- What the bit port carries (R12): BIT0 is `bit false`, BIT1 is `bit true`, and EOS is distinct from both. -/
inductive Token where
  | bit (b : Bool)
  | eos
deriving DecidableEq, Repr, Inhabited

end Sys2Proof
end

