-- ==== Sys2Proof/Config.lean ====
section
/-! DEFINITION. What is fixed for one machine (the parameters of 00_scope.md R4 and R8 and what they determine), and the two
free values of the model: the order of agents that the spec leaves open (20_memory.md R70, 60_exceptions.md R216), and the
tokens of a SOURCE that never ends (70_reset_and_hazards.md R240 (iii)). -/

namespace Sys2Proof

/-- The parameters of a machine (R4, R8). N_SYM is in 1..256, so it is held as its last real symbol N_SYM - 1
(the maxSymbol of 90_conflicts.md C3), whose range is exactly 0..255: no value outside the spec's range can be built. -/
structure Params where
  lastSym    : Fin 256
  hasBuilder : Bool
deriving DecidableEq, Repr

/-- The defaults: N_SYM = 256 (R4) and HAS_BUILDER = 1 (R8). -/
def Params.atDefaults : Params := ⟨255, true⟩

/-- N_SYM, the number of real symbols (R4). -/
def Params.nSym (p : Params) : Nat := p.lastSym.val + 1

/-- NODE_CAP = 2*N_SYM + 1, the node table's capacity (R6). -/
def Params.nodeCap (p : Params) : Nat := 2 * p.nSym + 1

/-- The builder's sentinel symbol N_SYM, one past the largest real symbol (R4, R103; 90_conflicts.md C3). -/
def Params.builderSentinel (p : Params) : Sym := BitVec.ofNat 9 p.nSym

/-- FREQ_W, fixed at 32 (R7); CONFIG shows it (R38). -/
def Config.freqW : BitVec 6 := 32#6

/-- The spec revision, 1 (R1); CONFIG shows it (R38). -/
def Config.revision : BitVec 6 := 1#6

/-- FREE VALUE (assumption log 1). Where both the HOST and the WALKER have a step and `State.turns` names no agent, the
spec lets either go first (R70, R216): `true` is the HOST. It is applied to `State.freeTurns`, a counter, so that each
choice is a fresh one. It has no body: a statement that needs the choice holds for both. -/
opaque Config.freeTurn : Nat → Bool

/-- FREE VALUE (assumption log 24). The tokens of a SOURCE without an end, by their place in its stream (R240 (iii)). It has no
body: a statement about such a SOURCE holds for every endless stream. -/
opaque Config.freeToken : Nat → Token

end Sys2Proof
end

