-- ==== Sys2Proof/Syntax.lean ====
section
/-! DEFINITION. The command set: one constructor per row of spec/opcode_table.json (30_encoding.md R83), with the operands
of R82. Every operand has the exact width of its field, so an operand that does not fit cannot be written. -/

namespace Sys2Proof

/-- The 15 commands (R83). -/
inductive Instr where
  /-- NOP (R170). -/
  | nop
  /-- CLEAR (R120). -/
  | clear
  /-- PATH_BEGIN sym (R121). -/
  | pathBegin (sym : Sym)
  /-- PATH_BIT b (R122): 0 = left (`false`), 1 = right (`true`). -/
  | pathBit (b : Bool)
  /-- PATH_END (R123). -/
  | pathEnd
  /-- SET_SENTINEL sym (R140). -/
  | setSentinel (sym : Sym)
  /-- DECODE (R141). -/
  | decode
  /-- ABORT (R143). -/
  | abort
  /-- FREQ_WRITE sym, f (R100); present only when HAS_BUILDER = 1. -/
  | freqWrite (sym : Sym) (f : Freq)
  /-- FREQ_CLEAR (R101); present only when HAS_BUILDER = 1. -/
  | freqClear
  /-- BUILD (R102); present only when HAS_BUILDER = 1. -/
  | build
  /-- READ_NODE idx (R171). -/
  | readNode (idx : Idx)
  /-- READ_REG reg (R172). -/
  | readReg (reg : BitVec 4)
  /-- WRITE_CTRL v (R173): bit 0 IE_ERR, bit 1 IE_DONE. -/
  | writeCtrl (v : BitVec 2)
  /-- ACK m (R174): bit 0 clears ERR, bit 1 clears DONE. -/
  | ack (m : BitVec 2)
deriving DecidableEq, Repr

end Sys2Proof
end

