-- ==== Sys2Proof/WellFormed.lean ====
section
/-! DEFINITION. Which commands a machine has: the one check the types of Syntax.lean do not already make, that a builder
command needs the builder (00_scope.md R8, 30_encoding.md R84 (c)). -/

namespace Sys2Proof

/-- The commands marked B in R83: present only when HAS_BUILDER = 1. -/
def Instr.needsBuilder : Instr → Bool
  | .freqWrite _ _ => true
  | .freqClear => true
  | .build => true
  | .nop => false
  | .clear => false
  | .pathBegin _ => false
  | .pathBit _ => false
  | .pathEnd => false
  | .setSentinel _ => false
  | .decode => false
  | .abort => false
  | .readNode _ => false
  | .readReg _ => false
  | .writeCtrl _ => false
  | .ack _ => false

/-- A command of a machine with these parameters (R8, R84 (c)). -/
def Instr.wellFormed (p : Params) (i : Instr) : Bool := p.hasBuilder || !i.needsBuilder

end Sys2Proof
end

