-- ==== Sys2Proof/Decode.lean ====
section
/-! DEFINITION. The command word CMD64 (30_encoding.md R80 to R84): its fields, the decoder, total on every 64-bit word and
rejecting by name, the encoder, the match and mask table of R83, and `decodeTableWord` for the host. -/

namespace Sys2Proof

/-- Why a word is illegal (R84). -/
inductive DecodeError where
  /-- OP = 0xF (R84 (a)). -/
  | reservedOpcode
  /-- A reserved or unused bit is 1 (R84 (b)). -/
  | reservedBits
  /-- OP 0x8, 0x9 or 0xA while HAS_BUILDER = 0 (R84 (c)). -/
  | builderAbsent
deriving DecidableEq, Repr

/-- OP, bits [63:60] (R81). -/
def opField (w : Word64) : BitVec 4 := w.extractLsb' 60 4
/-- RSV, bits [59:41] (R81). -/
def rsvField (w : Word64) : BitVec 19 := w.extractLsb' 41 19
/-- SYM, bits [40:32] (R81). -/
def symField (w : Word64) : Sym := w.extractLsb' 32 9
/-- DATA, bits [31:0] (R81). -/
def dataField (w : Word64) : BitVec 32 := w.extractLsb' 0 32

/-- A word read as the command `i`, if its reserved and unused bits are 0 (R81, R84 (b)). -/
def ifUnusedZero (unusedZero : Bool) (i : Instr) : Except DecodeError Instr :=
  if unusedZero then .ok i else .error .reservedBits

/-- The row of R83 that OP selects, with the operands of R82. Each row's test covers RSV and every bit of SYM and DATA
that the opcode does not use. -/
def decodeWord (w : Word64) : Except DecodeError Instr :=
  let rsv := rsvField w
  let sym := symField w
  let data := dataField w
  match (opField w).toNat with
  | 0x0 => ifUnusedZero (rsv == 0 && sym == 0 && data == 0) .nop
  | 0x1 => ifUnusedZero (rsv == 0 && sym == 0 && data == 0) .clear
  | 0x2 => ifUnusedZero (rsv == 0 && data == 0) (.pathBegin sym)
  | 0x3 => ifUnusedZero (rsv == 0 && sym == 0 && data.extractLsb' 1 31 == 0) (.pathBit (data.getLsbD 0))
  | 0x4 => ifUnusedZero (rsv == 0 && sym == 0 && data == 0) .pathEnd
  | 0x5 => ifUnusedZero (rsv == 0 && data == 0) (.setSentinel sym)
  | 0x6 => ifUnusedZero (rsv == 0 && sym == 0 && data == 0) .decode
  | 0x7 => ifUnusedZero (rsv == 0 && sym == 0 && data == 0) .abort
  | 0x8 => ifUnusedZero (rsv == 0) (.freqWrite sym data)
  | 0x9 => ifUnusedZero (rsv == 0 && sym == 0 && data == 0) .freqClear
  | 0xA => ifUnusedZero (rsv == 0 && sym == 0 && data == 0) .build
  | 0xB => ifUnusedZero (rsv == 0 && sym == 0 && data.extractLsb' 10 22 == 0) (.readNode (data.extractLsb' 0 10))
  | 0xC => ifUnusedZero (rsv == 0 && sym == 0 && data.extractLsb' 4 28 == 0) (.readReg (data.extractLsb' 0 4))
  | 0xD => ifUnusedZero (rsv == 0 && sym == 0 && data.extractLsb' 2 30 == 0) (.writeCtrl (data.extractLsb' 0 2))
  | 0xE => ifUnusedZero (rsv == 0 && sym == 0 && data.extractLsb' 2 30 == 0) (.ack (data.extractLsb' 0 2))
  | _ => .error .reservedOpcode

/-- The decoder of a machine with parameters `p`: R83, and illegal as R84 says. -/
def decode (p : Params) (w : Word64) : Except DecodeError Instr :=
  match decodeWord w with
  | .ok i => if i.wellFormed p then .ok i else .error .builderAbsent
  | .error e => .error e

/-- A command word from its fields, RSV 0 (R81). -/
def commandWord (op : BitVec 4) (sym : Sym) (data : BitVec 32) : Word64 := op ++ 0#19 ++ sym ++ data

/-- The encoder: the word of each command, from R81 to R83. -/
def encode : Instr → Word64
  | .nop => commandWord 0x0 0 0
  | .clear => commandWord 0x1 0 0
  | .pathBegin sym => commandWord 0x2 sym 0
  | .pathBit b => commandWord 0x3 0 ((BitVec.ofBool b).setWidth 32)
  | .pathEnd => commandWord 0x4 0 0
  | .setSentinel sym => commandWord 0x5 sym 0
  | .decode => commandWord 0x6 0 0
  | .abort => commandWord 0x7 0 0
  | .freqWrite sym f => commandWord 0x8 sym f
  | .freqClear => commandWord 0x9 0 0
  | .build => commandWord 0xA 0 0
  | .readNode idx => commandWord 0xB 0 (idx.setWidth 32)
  | .readReg reg => commandWord 0xC 0 (reg.setWidth 32)
  | .writeCtrl v => commandWord 0xD 0 (v.setWidth 32)
  | .ack m => commandWord 0xE 0 (m.setWidth 32)

/-- One row of the opcode map (R83): a word selects the row when the word under `mask` is `want`. -/
structure OpcodeRow where
  want    : Word64
  mask    : Word64
  builder : Bool
deriving DecidableEq, Repr

/-- `cw AND mask = match` (R83). -/
def OpcodeRow.selects (r : OpcodeRow) (w : Word64) : Bool := w &&& r.mask == r.want

/-- The rows of R83 in order, as the machine-readable spec/opcode_table.json gives them. -/
def opcodeTable : List OpcodeRow :=
  [ ⟨0x0000000000000000, 0xFFFFFFFFFFFFFFFF, false⟩,
    ⟨0x1000000000000000, 0xFFFFFFFFFFFFFFFF, false⟩,
    ⟨0x2000000000000000, 0xFFFFFE00FFFFFFFF, false⟩,
    ⟨0x3000000000000000, 0xFFFFFFFFFFFFFFFE, false⟩,
    ⟨0x4000000000000000, 0xFFFFFFFFFFFFFFFF, false⟩,
    ⟨0x5000000000000000, 0xFFFFFE00FFFFFFFF, false⟩,
    ⟨0x6000000000000000, 0xFFFFFFFFFFFFFFFF, false⟩,
    ⟨0x7000000000000000, 0xFFFFFFFFFFFFFFFF, false⟩ ] ++
  [ ⟨0x8000000000000000, 0xFFFFFE0000000000, true⟩,
    ⟨0x9000000000000000, 0xFFFFFFFFFFFFFFFF, true⟩,
    ⟨0xA000000000000000, 0xFFFFFFFFFFFFFFFF, true⟩,
    ⟨0xB000000000000000, 0xFFFFFFFFFFFFFC00, false⟩,
    ⟨0xC000000000000000, 0xFFFFFFFFFFFFFFF0, false⟩,
    ⟨0xD000000000000000, 0xFFFFFFFFFFFFFFFC, false⟩,
    ⟨0xE000000000000000, 0xFFFFFFFFFFFFFFFC, false⟩ ]

/-- The place of a command's row in `opcodeTable`: its opcode (R83). -/
def Instr.opcode : Instr → Nat
  | .nop => 0x0
  | .clear => 0x1
  | .pathBegin _ => 0x2
  | .pathBit _ => 0x3
  | .pathEnd => 0x4
  | .setSentinel _ => 0x5
  | .decode => 0x6
  | .abort => 0x7
  | .freqWrite _ _ => 0x8
  | .freqClear => 0x9
  | .build => 0xA
  | .readNode _ => 0xB
  | .readReg _ => 0xC
  | .writeCtrl _ => 0xD
  | .ack _ => 0xE

/-- For the host: what the decoder of the default machine reads from the word `w` of `nbits` bits, the bits above them 0.
A command is one 64-bit word that crosses the port as one parallel transfer (20_memory.md R63): there are no bytes to order. -/
def decodeTableWord (nbits w : Nat) : Option Instr :=
  match decode Params.atDefaults (BitVec.ofNat 64 (w % 2 ^ nbits)) with
  | .ok i => some i
  | .error _ => none

end Sys2Proof
end

