-- ==== Sys2Proof/Machine/State.lean ====
section
/-! DEFINITION. The state of the machine as plain data: every register and table of 10_state.md (R20 to R44), the
environment a step needs (the HOST's words, the SOURCE's tokens, the SINK, 70_reset R240), and the model's own two fields
(whose turn it is). With it the reasons a step can stop and the state after reset (R59, R230). -/

namespace Sys2Proof.Machine

/-- MODE, the state of the block's state machine (R21). The codes 5 to 7 are never held and have no constructor. -/
inductive Mode where
  | idle
  | load
  | build
  | walk
  | emit
deriving DecidableEq, Repr

/-- TREE, the state of the tree held in the node table (R22). -/
inductive TreeState where
  | empty
  | loaded
  | built
  | bad
deriving DecidableEq, Repr

/-- ERR, the first error recorded since it was last cleared (R32), by the names of 60_exceptions.md R202. The codes 13 to 15
are never recorded and have no constructor. -/
inductive ErrCode where
  | none
  | illegalCmd
  | busy
  | treeState
  | badIndex
  | malThroughLeaf
  | malLabelInternal
  | malRelabel
  | malTruncated
  | nodeOverflow
  | deadEnd
  | noRecord
  | freqOverflow
deriving DecidableEq, Repr

/-- END, the cause that ended the most recent decode (R33), by the names of 60_exceptions.md R214. The codes 6 to 15 are never
written and have no constructor. -/
inductive EndCause where
  | none
  | sentinel
  | streamEnd
  | rootLeaf
  | deadEnd
  | aborted
deriving DecidableEq, Repr

/-- One entry of the node table (R40). LAB and SYM are one optional symbol, HASL and L one optional left child, HASR and R
one optional right child: so SYM, L and R have a value only where LAB, HASL and HASR are 1, and read as 0 elsewhere, as
R40 says (assumption log 5). -/
structure Node where
  sym   : Option Sym
  left  : Option Idx
  right : Option Idx
  freq  : Freq
deriving DecidableEq, Repr

/-- The zero entry: unlabeled, no children, frequency 0 (R40). -/
def Node.zero : Node := ⟨none, none, none, 0⟩

/-- What the SOURCE offers after the tokens of its list (70_reset R240 (iii), "finite or not"): nothing, one block of tokens over
and over without end, or the endless stream of the free value `Config.freeToken` from place `taken` on (assumption log 24). -/
inductive SourceTail where
  | ends
  | repeats (first : Token) (rest : List Token)
  | free (taken : Nat)
deriving DecidableEq, Repr

/-- What the SINK will do with offered symbols (70_reset R240 (iv)): accept every one, or accept `n` more and then none. -/
inductive Sink where
  | acceptsAll
  | accepts (n : Nat)
deriving DecidableEq, Repr

/-- Whose turn the next step is (R70), or a clock edge with rst = 1 (R58). -/
inductive Turn where
  | host
  | walker
  | reset
deriving DecidableEq, Repr

/-- Why a step gives no next state. Only the first is a fault in the spec's sense (00_scope.md R14); the others say that no
agent has a step, which the spec calls stuck, ended or held. -/
inductive Fault where
  /-- UnreachableState (R14, R223 (b)): raised by PATH_BIT when LOAD_DEPTH would pass NODE_CAP - 1 (R37), by the walker at a
  leaf with no label (R146), and by BUILD if its queue were empty at the end, which no input gives. Safe: no run of the
  rules reaches it. -/
  | unreachableState
  /-- MODE = BUILD takes no command (R51, R87): raised by every command and every step in that mode. Safe: BUILD is one
  atomic step (R105), so no run holds MODE = BUILD between steps. -/
  | commandPortHeld
  /-- The WALKER is stuck in WALK: the HOST has no more commands and the SOURCE offers no token (R144). Raised by the step.
  Safe: the model stops where the block waits. -/
  | stuckNoToken
  /-- The WALKER is stuck in EMIT: the HOST has no more commands and the SINK accepts nothing (R147). Raised by the step.
  Safe: the model stops where the block waits. -/
  | stuckNoSink
  /-- The run has ended (70_reset R240): MODE = IDLE and the HOST has no more commands. Raised by the step. Safe. -/
  | runEnded
  /-- MODE = LOAD and the HOST has no more commands: no agent has a step, and the run has not ended (R240). Raised by the
  step. Safe: the model stops where the block waits. -/
  | recordOpen
deriving DecidableEq, Repr

/-- Why a step is refused. The spec refuses nothing of the command set (R223 (d)), and neither does the model. -/
inductive Refusal where
  /-- An instruction that has no meaning yet: raised by an arm of exec only. Safe. No arm raises it now. -/
  | notModelled (mnemonic : String)
deriving DecidableEq, Repr

/-- The state of the machine. -/
structure State where
  /-- N_SYM and HAS_BUILDER (R4, R8): fixed, no step changes them. -/
  params    : Params
  /-- MODE (R21). -/
  mode      : Mode
  /-- TREE (R22). -/
  tree      : TreeState
  /-- ROOT (R23). -/
  root      : Idx
  /-- The node table (R40), as the list of its allocated entries 0..NODE_COUNT-1 (R42); its length is NODE_COUNT (R24). -/
  nodes     : List Node
  /-- CURSOR (R25). -/
  cursor    : Idx
  /-- SENTINEL (R26). -/
  sentinel  : Sym
  /-- LOAD_SYM (R27). -/
  loadSym   : Sym
  /-- LOAD_DEPTH (R37). -/
  loadDepth : BitVec 16
  /-- OUT_SYM (R28). -/
  outSym    : Sym
  /-- EMIT_COUNT (R29). -/
  emitCount : BitVec 32
  /-- BIT_COUNT (R29). -/
  bitCount  : BitVec 32
  /-- ERR (R32). -/
  err       : ErrCode
  /-- END (R33). -/
  endCause  : EndCause
  /-- DONE (R34). -/
  done      : Bool
  /-- CTRL: bit 0 IE_ERR, bit 1 IE_DONE (R35). -/
  ctrl      : BitVec 2
  /-- The frequency table (R43): N_SYM entries when HAS_BUILDER = 1, none when it does not exist. -/
  freqs     : List Freq
  /-- The priority queue (R44): empty outside the BUILD step. -/
  queue     : List Idx
  /-- The command words the HOST has still to transfer, next first (R30, R240 (ii)). -/
  commands  : List Word64
  /-- The tokens the SOURCE still offers, next first, before those of `sourceTail` (R240 (iii)). -/
  tokens    : List Token
  /-- What the SOURCE offers after them (R240 (iii)): nothing, if its list of tokens is finite. -/
  sourceTail : SourceTail
  /-- Whether the SINK accepts (R240 (iv)). -/
  sink      : Sink
  /-- The responses the HOST has received, oldest first (R55, R240). -/
  responses : List Word64
  /-- The symbols the SINK has received, oldest first (R79, R240). -/
  received  : List Sym
  /-- The model's own field: whose turn each next step is, next first (assumption log 1). -/
  turns     : List Turn
  /-- The model's own field: how often the free value `Config.freeTurn` may have been asked for a turn (log 1). -/
  freeTurns : Nat
deriving DecidableEq, Repr

/-- The state of a machine with parameters `p` right after reset (R59, R230), in an environment that does nothing: no command,
no token, no symbol accepted (assumption log 14). -/
def State.resetWith (p : Params) : State where
  params    := p
  mode      := .idle
  tree      := .empty
  root      := 0
  nodes     := [Node.zero]
  cursor    := 0
  sentinel  := p.builderSentinel
  loadSym   := 0
  loadDepth := 0
  outSym    := 0
  emitCount := 0
  bitCount  := 0
  err       := .none
  endCause  := .none
  done      := false
  ctrl      := 0
  freqs     := if p.hasBuilder then List.replicate p.nSym 0 else []
  queue     := []
  commands  := []
  tokens    := []
  sourceTail := .ends
  sink      := .accepts 0
  responses := []
  received  := []
  turns     := []
  freeTurns := 0

/-- The machine right after reset, at the default parameters (R4, R8, R59). -/
def State.reset : State := State.resetWith Params.atDefaults

/-- The outcome of a command or a step. -/
abbrev Out := Host.Outcome State Fault Refusal

end Sys2Proof.Machine
end

