-- ==== Sys2Proof/Machine/Flags.lean ====
section
/-! DEFINITION. The codes of the named registers, the status bits, and the views of State that are no state of their own
(10_state.md R20): irq (R54, R219), STATUS (R36), CONFIG (R38), and the output ports (R50 to R55, R230). The block has no
condition codes or arithmetic flags (R46). -/

namespace Sys2Proof.Machine

/-- The value of MODE (R21). -/
def Mode.code : Mode → BitVec 3
  | .idle => 0
  | .load => 1
  | .build => 2
  | .walk => 3
  | .emit => 4

/-- The value of TREE (R22). -/
def TreeState.code : TreeState → BitVec 2
  | .empty => 0
  | .loaded => 1
  | .built => 2
  | .bad => 3

/-- The value of ERR (60_exceptions.md R202). -/
def ErrCode.code : ErrCode → BitVec 4
  | .none => 0
  | .illegalCmd => 1
  | .busy => 2
  | .treeState => 3
  | .badIndex => 4
  | .malThroughLeaf => 5
  | .malLabelInternal => 6
  | .malRelabel => 7
  | .malTruncated => 8
  | .nodeOverflow => 9
  | .deadEnd => 10
  | .noRecord => 11
  | .freqOverflow => 12

/-- The value of END (60_exceptions.md R214). -/
def EndCause.code : EndCause → BitVec 4
  | .none => 0
  | .sentinel => 1
  | .streamEnd => 2
  | .rootLeaf => 3
  | .deadEnd => 4
  | .aborted => 5

/-- TREE holds a tree that may be decoded: LOADED or BUILT (R141). -/
def TreeState.decodable : TreeState → Bool
  | .loaded => true
  | .built => true
  | .empty => false
  | .bad => false

/-- TREE may take another record: EMPTY or LOADED (R121). -/
def TreeState.loadable : TreeState → Bool
  | .empty => true
  | .loaded => true
  | .built => false
  | .bad => false

/-- IE_ERR, CTRL bit 0 (R35). -/
def State.ieErr (s : State) : Bool := s.ctrl.getLsbD 0

/-- IE_DONE, CTRL bit 1 (R35). -/
def State.ieDone (s : State) : Bool := s.ctrl.getLsbD 1

/-- irq, the level interrupt request (R54, R219). -/
def State.irq (s : State) : Bool := (s.ieErr && s.err != .none) || (s.ieDone && s.done)

/-- NODE_COUNT (R24): the length of the list of allocated entries (R42). -/
def State.nodeCount (s : State) : Idx := BitVec.ofNat 10 s.nodes.length

/-- STATUS, register number 0 (R36): bits [17] IRQ, [16] DONE, [15:12] END, [11:8] ERR, [5:4] TREE, [2:0] MODE, the rest 0. -/
def State.status (s : State) : Word64 :=
  0#46 ++ BitVec.ofBool s.irq ++ BitVec.ofBool s.done ++ s.endCause.code ++ s.err.code ++ 0#2 ++ s.tree.code ++ 0#1 ++ s.mode.code

/-- CONFIG, register number 10 (R38): bits [31:26] revision, [25:20] FREQ_W, [19:10] NODE_CAP, [9] HAS_BUILDER, [8:0] N_SYM. -/
def configWord (p : Params) : Word64 :=
  0#32 ++ Config.revision ++ Config.freqW ++ BitVec.ofNat 10 p.nodeCap ++ BitVec.ofBool p.hasBuilder ++ BitVec.ofNat 9 p.nSym

/-- cmd_ready while rst = 0 (R51). The hold while a response is offered does not exist in the model (R55, assumption log 11). -/
def State.cmdReady (s : State) : Bool := s.mode != .build

/-- rsp_valid while rst = 0 (R55). Between two steps no response is still offered, because in the model the HOST receives it in
its command's own step (R55, assumption log 11); so the port has no rsp_data to show either. -/
def State.rspValid (_ : State) : Bool := false

/-- bit_ready while rst = 0: MODE = WALK (R52). -/
def State.bitReady (s : State) : Bool := s.mode == .walk

/-- sym_valid while rst = 0: MODE = EMIT (R53). -/
def State.symValid (s : State) : Bool := s.mode == .emit

/-- sym_data, which is OUT_SYM while sym_valid = 1 (R53); no rule gives its value otherwise. -/
def State.symData (s : State) : Option Sym := if s.symValid then some s.outSym else none

/-- rst (R58): 1 when the next clock edge of the model is a reset edge (assumption log 16). -/
def State.rst (s : State) : Bool :=
  match s.turns with
  | .reset :: _ => true
  | .host :: _ => false
  | .walker :: _ => false
  | [] => false

/-- The output ports (R50). -/
structure Outputs where
  cmdReady : Bool
  rspValid : Bool
  bitReady : Bool
  symValid : Bool
  symData  : Option Sym
  irq      : Bool
deriving DecidableEq, Repr

/-- The outputs while rst = 1: all 0, and no symbol (R230). -/
def Outputs.low : Outputs := ⟨false, false, false, false, none, false⟩

/-- What the output ports show in a state: all 0 while rst = 1 (R230), else the handshake of R51 to R55. -/
def State.outputs (s : State) : Outputs :=
  if s.rst then .low
  else { cmdReady := s.cmdReady, rspValid := s.rspValid, bitReady := s.bitReady, symValid := s.symValid, symData := s.symData,
         irq := s.irq }

end Sys2Proof.Machine
end

