-- ==== Sys2Proof/Machine/Operands.lean ====
section
/-! DEFINITION. What an operand names: a node table entry by its index, its fields and its 64-bit image (10_state.md R40 to
R42, 30_encoding.md R86), a child by the bit of PATH_BIT or of a token, a frequency table entry, and a register by its
number (R39). -/

namespace Sys2Proof.Machine

/-- LAB (R40). -/
def Node.lab (n : Node) : Bool := n.sym.isSome
/-- SYM, 0 when LAB = 0 (R40). -/
def Node.symValue (n : Node) : Sym := n.sym.getD 0
/-- HASL (R40). -/
def Node.hasL (n : Node) : Bool := n.left.isSome
/-- L, 0 when HASL = 0 (R40). -/
def Node.leftIndex (n : Node) : Idx := n.left.getD 0
/-- HASR (R40). -/
def Node.hasR (n : Node) : Bool := n.right.isSome
/-- R, 0 when HASR = 0 (R40). -/
def Node.rightIndex (n : Node) : Idx := n.right.getD 0

/-- A node is a leaf when HASL = 0 and HASR = 0 (R41). -/
def Node.isLeaf (n : Node) : Bool := !n.hasL && !n.hasR

/-- The child that a path or stream bit names: 0 goes left, 1 goes right (R122, R145). -/
def Node.child (n : Node) (b : Bool) : Option Idx := if b then n.right else n.left

/-- The entry with that child set (R122). -/
def Node.withChild (n : Node) (b : Bool) (i : Idx) : Node := if b then { n with right := some i } else { n with left := some i }

/-- The children that exist, left before right. -/
def Node.children (n : Node) : List Idx := n.left.toList ++ n.right.toList

/-- A leaf with a label (R103): BUILD's leaves. -/
def Node.leaf (sym : Sym) (f : Freq) : Node := ⟨some sym, none, none, f⟩

/-- The image of an entry: {HASR, HASL, LAB, R, L, SYM, FREQ} (R86, R171). -/
def Node.image (n : Node) : Word64 :=
  BitVec.ofBool n.hasR ++ BitVec.ofBool n.hasL ++ BitVec.ofBool n.lab ++ n.rightIndex ++ n.leftIndex ++ n.symValue ++ n.freq

/-- NodeRead on a table: a free entry reads as the zero entry (R42). -/
def nodeAt (nodes : List Node) (i : Idx) : Node := nodes.getD i.toNat Node.zero

/-- NodeRead (R11, R42). -/
def State.nodeRead (s : State) (i : Idx) : Node := nodeAt s.nodes i

/-- FreqRead (R11, R43): the entry of real symbol `sym`. -/
def State.freqRead (s : State) (sym : Nat) : Freq := s.freqs.getD sym 0

/-- The register a number names, zero-extended to 64 bits (R39, R172); 12 to 15 name none. -/
def State.readRegister (s : State) (reg : BitVec 4) : Option Word64 :=
  match reg.toNat with
  | 0 => some s.status
  | 1 => some (s.ctrl.setWidth 64)
  | 2 => some (s.root.setWidth 64)
  | 3 => some (s.nodeCount.setWidth 64)
  | 4 => some (s.sentinel.setWidth 64)
  | 5 => some (s.cursor.setWidth 64)
  | 6 => some (s.emitCount.setWidth 64)
  | 7 => some (s.bitCount.setWidth 64)
  | 8 => some (s.loadSym.setWidth 64)
  | 9 => some (s.loadDepth.setWidth 64)
  | 10 => some (configWord s.params)
  | 11 => some (s.outSym.setWidth 64)
  | _ => none

end Sys2Proof.Machine
end

