-- ==== Sys2Proof/Machine/Ops.lean ====
section
/-! DEFINITION. The operations that the commands and the walker share: RecordError (60_exceptions.md R201; the block has no
trap to take and none to return from, R200, R220, R221), responses (R55), table accesses (R11, R61), MalformedLoad (R125),
FinishDecode (R148), reset (R230), and the acceptance of a command by the mode (30_encoding.md R87, R88). -/

namespace Sys2Proof.Machine

/-- RecordError, the one procedure that sets ERR (R201): the first error wins, and nothing else changes. -/
def State.recordError (s : State) (e : ErrCode) : State := { s with err := if s.err = .none then e else s.err }

/-- respond(v): the HOST receives one response word in the command's own step (R55). -/
def State.respond (s : State) (v : Word64) : State := { s with responses := s.responses ++ [v] }

/-- NodeWrite (R11): replaces an allocated entry. -/
def State.nodeWrite (s : State) (i : Idx) (n : Node) : State := { s with nodes := s.nodes.set i.toNat n }

/-- Alloc: NODE_COUNT grows by one, and the new entry is the zero entry (R42, R122). -/
def State.allocNode (s : State) : State := { s with nodes := s.nodes ++ [Node.zero] }

/-- FreqWrite (R11, R100). -/
def State.freqWrite (s : State) (sym : Sym) (f : Freq) : State := { s with freqs := s.freqs.set sym.toNat f }

/-- The one-entry table that CLEAR (R120) and a failed BUILD (R102, R104) leave: NODE_COUNT 1, entry 0 zero, ROOT and CURSOR 0. -/
def State.resetTable (s : State) : State := { s with nodes := [Node.zero], root := 0, cursor := 0 }

/-- MalformedLoad, the common end of every load error (R125). -/
def State.malformedLoad (s : State) : State := { s with tree := .bad, mode := .idle, cursor := s.root }

/-- A load error: the code, then MalformedLoad (R122 to R125). -/
def State.failLoad (s : State) (e : ErrCode) : State := (s.recordError e).malformedLoad

/-- FinishDecode(cause), the one end of every decode (R148). -/
def State.finishDecode (s : State) (cause : EndCause) : State := { s with endCause := cause, done := true, mode := .idle }

/-- A clock edge with rst = 1 (R58, R230, R231): the block takes its reset state whatever MODE is, and no transfer happens,
so what the HOST, the SOURCE and the SINK hold stays theirs. -/
def State.resetBlock (s : State) : State :=
  { State.resetWith s.params with
    commands := s.commands, tokens := s.tokens, sourceTail := s.sourceTail, sink := s.sink, responses := s.responses,
    received := s.received, turns := s.turns, freeTurns := s.freeTurns }

/-- What the block does with a legal command when it is taken: the entries of the acceptance table (R87). `held` is the
column of MODE = BUILD, which takes no command (R51). -/
inductive Verdict where
  | exec
  | busy
  | trunc
  | norec
  | none
  | held
deriving DecidableEq, Repr

/-- A command's row of the acceptance table (R87): IDLE, LOAD, and WALK or EMIT. -/
structure AcceptRow where
  idle   : Verdict
  load   : Verdict
  decode : Verdict
deriving DecidableEq, Repr

/-- The acceptance table, row by row (R87). -/
def acceptRow : Instr → AcceptRow
  | .nop => ⟨.exec, .exec, .exec⟩
  | .clear => ⟨.exec, .exec, .busy⟩
  | .pathBegin _ => ⟨.exec, .trunc, .busy⟩
  | .pathBit _ => ⟨.norec, .exec, .busy⟩
  | .pathEnd => ⟨.norec, .exec, .busy⟩
  | .setSentinel _ => ⟨.exec, .trunc, .busy⟩
  | .decode => ⟨.exec, .trunc, .busy⟩
  | .abort => ⟨.none, .trunc, .exec⟩
  | .freqWrite _ _ => ⟨.exec, .trunc, .busy⟩
  | .freqClear => ⟨.exec, .trunc, .busy⟩
  | .build => ⟨.exec, .trunc, .busy⟩
  | .readNode _ => ⟨.exec, .exec, .exec⟩
  | .readReg _ => ⟨.exec, .exec, .exec⟩
  | .writeCtrl _ => ⟨.exec, .exec, .exec⟩
  | .ack _ => ⟨.exec, .exec, .exec⟩

/-- Accept(MODE, op) (R87, R88). -/
def accept (m : Mode) (i : Instr) : Verdict :=
  match m with
  | .idle => (acceptRow i).idle
  | .load => (acceptRow i).load
  | .walk => (acceptRow i).decode
  | .emit => (acceptRow i).decode
  | .build => .held

/-- An illegal word, once it has been transferred (R84, R203): ILLEGAL_CMD and nothing else. MODE = BUILD takes no word (R51). -/
def illegalWord (s : State) : Out :=
  match s.mode with
  | .build => .fault .commandPortHeld
  | .idle => .next (s.recordError .illegalCmd)
  | .load => .next (s.recordError .illegalCmd)
  | .walk => .next (s.recordError .illegalCmd)
  | .emit => .next (s.recordError .illegalCmd)

/-- Execute (R88): the check of the encoding that is left (a builder command on a machine without the builder, R84 (c)),
then the mode's verdict, then the command's own rule `run`. -/
def execute (i : Instr) (s : State) (run : State → Out) : Out :=
  if i.wellFormed s.params then
    match accept s.mode i with
    | .exec => run s
    | .busy => .next (s.recordError .busy)
    | .trunc => .next (s.failLoad .malTruncated)
    | .norec => .next (s.recordError .noRecord)
    | .none => .next s
    | .held => .fault .commandPortHeld
  else illegalWord s

end Sys2Proof.Machine
end

