-- ==== Sys2Proof/Machine/Builder.lean ====
section
/-! DEFINITION. The builder family (40_builder.md): FREQ_WRITE (R100), FREQ_CLEAR (R101), BUILD (R102 to R111) with its
priority queue (R106). BUILD is one atomic step (R105). -/

namespace Sys2Proof.Machine

/-- FREQ_WRITE's own rule (R100): a symbol outside 0..N_SYM-1 is BAD_INDEX. -/
def freqWriteRule (sym : Sym) (f : Freq) (s : State) : Out :=
  if sym.toNat < s.params.nSym then .next (s.freqWrite sym f) else .next (s.recordError .badIndex)

/-- FREQ_WRITE (R100). -/
def execFreqWrite (sym : Sym) (f : Freq) (s : State) : Out := execute (.freqWrite sym f) s (freqWriteRule sym f)

/-- FREQ_CLEAR (R101): every entry of the frequency table to 0. -/
def execFreqClear (s : State) : Out := execute .freqClear s fun s => .next { s with freqs := s.freqs.map fun _ => 0 }

/-- The tables BUILD works on: the node table it fills and the priority queue (R44, R102). -/
structure Builder where
  nodes : List Node
  queue : List Idx
deriving DecidableEq, Repr

/-- Alloc, NodeWrite and PQ.insert of one node (R102): the next index, in arrival order. -/
def Builder.add (b : Builder) (n : Node) : Builder := ⟨b.nodes ++ [n], b.queue ++ [BitVec.ofNat 10 b.nodes.length]⟩

/-- The queue's order (R106): the key (FREQ, node index), compared lexicographically. -/
def keyBefore (nodes : List Node) (a b : Idx) : Bool :=
  (nodeAt nodes a).freq.toNat < (nodeAt nodes b).freq.toNat ||
    ((nodeAt nodes a).freq == (nodeAt nodes b).freq && a.toNat < b.toNat)

/-- The index with the least key among `m` and a list (R106). -/
def leastOf (nodes : List Node) (m : Idx) : List Idx → Idx
  | [] => m
  | n :: rest => leastOf nodes (if keyBefore nodes n m then n else m) rest

/-- PQ.extractMin (R106): the queued index with the least key, and the queue without it; none when the queue is empty. -/
def extractMin (nodes : List Node) : List Idx → Option (Idx × List Idx)
  | [] => none
  | m :: rest => some (leastOf nodes m rest, (m :: rest).erase (leastOf nodes m rest))

/-- The internal node that merges `a` and `c`, extracted in that order (R107). -/
def mergeNode (nodes : List Node) (a c : Idx) : Node := ⟨none, some a, some c, (nodeAt nodes a).freq + (nodeAt nodes c).freq⟩

/-- One turn of the merge loop (R107); none when fewer than two nodes are queued. -/
def Builder.mergeOnce (b : Builder) : Option Builder :=
  match extractMin b.nodes b.queue with
  | none => none
  | some (a, q) =>
    match extractMin b.nodes q with
    | none => none
    | some (c, q') => some (Builder.add ⟨b.nodes, q'⟩ (mergeNode b.nodes a c))

/-- The merge loop (R107): while the queue holds more than one node. Each turn shortens the queue by one, so the queue's
length bounds the number of turns. -/
def Builder.mergeAll : Nat → Builder → Builder
  | 0, b => b
  | k + 1, b =>
    match b.mergeOnce with
    | none => b
    | some b' => b'.mergeAll k

/-- The leaves, in the order of their indices (R103): one for each real symbol with a nonzero frequency, in ascending order,
then the sentinel's, with frequency 1. -/
def State.buildLeaves (s : State) : List Node :=
  (List.range s.params.nSym).filterMap (fun i => if s.freqRead i = 0 then none else some (Node.leaf (BitVec.ofNat 9 i) (s.freqRead i)))
    ++ [Node.leaf s.params.builderSentinel 1]

/-- The tables after step 2 of BUILD: every leaf allocated and queued in order (R102, R103). -/
def Builder.ofLeaves (leaves : List Node) : Builder := leaves.foldl Builder.add ⟨[], []⟩

/-- The tables when the merge loop of BUILD is done (R107). -/
def State.buildTables (s : State) : Builder :=
  (Builder.ofLeaves s.buildLeaves).mergeAll (Builder.ofLeaves s.buildLeaves).queue.length

/-- The exact sum of the frequency table, plus 1 (R102, R104). -/
def State.freqTotal (s : State) : Nat := ((List.range s.params.nSym).map fun i => (s.freqRead i).toNat).sum + 1

/-- What a BUILD leaves whose total does not fit in 32 bits (R104). -/
def State.buildOverflow (s : State) : State := { s.resetTable with tree := .bad, done := true }.recordError .freqOverflow

/-- What a successful BUILD leaves (R108): the tables, the root extracted last, and the sentinel of the built tree. -/
def State.buildDone (s : State) (nodes : List Node) (root : Idx) (queue : List Idx) : State :=
  { s with nodes := nodes, queue := queue, root := root, tree := .built, sentinel := s.params.builderSentinel, cursor := root,
           done := true }

/-- BUILD's own rule (R102). The queue is never empty at the end, since the sentinel's leaf is always queued (R103): the last
arm is reached for no state. -/
def buildRule (s : State) : Out :=
  if 0xFFFFFFFF < s.freqTotal then .next s.buildOverflow
  else
    match extractMin s.buildTables.nodes s.buildTables.queue with
    | some (root, queue) => .next (s.buildDone s.buildTables.nodes root queue)
    | none => .fault .unreachableState

/-- BUILD (R102). -/
def execBuild (s : State) : Out := execute .build s buildRule

end Sys2Proof.Machine
end

