-- ==== Sys2Proof/Machine/Control.lean ====
section
/-! DEFINITION. The control family (43_control.md): NOP (R170), READ_NODE (R171), READ_REG (R172), WRITE_CTRL (R173),
ACK (R174). -/

namespace Sys2Proof.Machine

/-- NOP (R170): nothing. -/
def execNop (s : State) : Out := execute .nop s fun s => .next s

/-- READ_NODE's own rule (R171): out of range is BAD_INDEX and responds 0; a free entry responds 0. -/
def readNodeRule (idx : Idx) (s : State) : Out :=
  if s.params.nodeCap ≤ idx.toNat then .next ((s.recordError .badIndex).respond 0)
  else if s.nodes.length ≤ idx.toNat then .next (s.respond 0)
  else .next (s.respond (s.nodeRead idx).image)

/-- READ_NODE (R171). -/
def execReadNode (idx : Idx) (s : State) : Out := execute (.readNode idx) s (readNodeRule idx)

/-- READ_REG's own rule (R172): a number that names no register is BAD_INDEX and responds 0. -/
def readRegRule (reg : BitVec 4) (s : State) : Out :=
  match s.readRegister reg with
  | some v => .next (s.respond v)
  | none => .next ((s.recordError .badIndex).respond 0)

/-- READ_REG (R172). -/
def execReadReg (reg : BitVec 4) (s : State) : Out := execute (.readReg reg) s (readRegRule reg)

/-- WRITE_CTRL (R173). -/
def execWriteCtrl (v : BitVec 2) (s : State) : Out := execute (.writeCtrl v) s fun s => .next { s with ctrl := v }

/-- What ACK leaves (R174): mask bit 0 clears ERR, mask bit 1 clears DONE. -/
def State.acknowledge (s : State) (m : BitVec 2) : State :=
  { s with err := if m.getLsbD 0 then .none else s.err, done := if m.getLsbD 1 then false else s.done }

/-- ACK (R174). -/
def execAck (m : BitVec 2) (s : State) : Out := execute (.ack m) s fun s => .next (s.acknowledge m)

end Sys2Proof.Machine
end

