-- ==== Sys2Proof/Machine/DecodeFamily.lean ====
section
/-! DEFINITION. The decode family's commands (42_decode.md): SET_SENTINEL (R140), DECODE (R141, R142), ABORT (R143). -/

namespace Sys2Proof.Machine

/-- SET_SENTINEL (R140). -/
def execSetSentinel (sym : Sym) (s : State) : Out := execute (.setSentinel sym) s fun s => .next { s with sentinel := sym }

/-- What DECODE clears and sets before it looks at the root (R141). -/
def State.startDecode (s : State) : State :=
  { s with emitCount := 0, bitCount := 0, endCause := .none, done := false, cursor := s.root }

/-- DECODE's own rule (R141): TREE_STATE, the immediate end of a root-only tree (R142), or MODE = WALK. -/
def decodeRule (s : State) : Out :=
  if s.tree.decodable then
    if (s.nodeRead s.root).isLeaf then .next (s.startDecode.finishDecode .rootLeaf)
    else .next { s.startDecode with mode := .walk }
  else .next (s.recordError .treeState)

/-- DECODE (R141). -/
def execDecode (s : State) : Out := execute .decode s decodeRule

/-- ABORT (R143). A held symbol is dropped, and an offered token stays with the SOURCE. -/
def execAbort (s : State) : Out := execute .abort s fun s => .next (s.finishDecode .aborted)

end Sys2Proof.Machine
end

