-- ==== Sys2Proof/Machine/TreeLoad.lean ====
section
/-! DEFINITION. The tree-load family (41_tree_load.md): CLEAR (R120), PATH_BEGIN (R121), PATH_BIT (R122), PATH_END (R123). -/

namespace Sys2Proof.Machine

/-- What CLEAR leaves (R120). SENTINEL, CTRL, OUT_SYM and the frequency table stay. -/
def State.cleared (s : State) : State :=
  { s.resetTable with
    tree := .empty, mode := .idle, err := .none, done := false, endCause := .none,
    emitCount := 0, bitCount := 0, loadSym := 0, loadDepth := 0 }

/-- CLEAR (R120). -/
def execClear (s : State) : Out := execute .clear s fun s => .next s.cleared

/-- PATH_BEGIN's own rule (R121): a tree that can take no record is TREE_STATE. -/
def pathBeginRule (sym : Sym) (s : State) : Out :=
  if s.tree.loadable then .next { s with loadSym := sym, loadDepth := 0, cursor := s.root, mode := .load }
  else .next (s.recordError .treeState)

/-- PATH_BEGIN (R121). -/
def execPathBegin (sym : Sym) (s : State) : Out := execute (.pathBegin sym) s (pathBeginRule sym)

/-- The last line of PATH_BIT, at the new cursor: LOAD_DEPTH grows by one (R122). It cannot pass NODE_CAP - 1; a model
faults if it would (R37, R223 (b)). -/
def descendTo (i : Idx) (s : State) : Out :=
  if s.loadDepth.toNat + 1 < s.params.nodeCap then .next { s with cursor := i, loadDepth := s.loadDepth + 1 }
  else .fault .unreachableState

/-- Creates the child that is absent at the cursor (R122): a new zero entry at index NODE_COUNT, linked from the cursor's entry. -/
def State.createChild (s : State) (b : Bool) : State :=
  s.allocNode.nodeWrite s.cursor ((s.nodeRead s.cursor).withChild b s.nodeCount)

/-- PATH_BIT's own rule (R122), its checks in the order of R215. -/
def pathBitRule (b : Bool) (s : State) : Out :=
  if (s.nodeRead s.cursor).lab then .next (s.failLoad .malThroughLeaf)
  else
    match (s.nodeRead s.cursor).child b with
    | some i => descendTo i s
    | none =>
      if s.nodes.length = s.params.nodeCap then .next (s.failLoad .nodeOverflow)
      else descendTo s.nodeCount (s.createChild b)

/-- PATH_BIT (R122). -/
def execPathBit (b : Bool) (s : State) : Out := execute (.pathBit b) s (pathBitRule b)

/-- What PATH_END leaves when it labels the cursor's node and closes the record (R123). -/
def State.closeRecord (s : State) : State :=
  { s.nodeWrite s.cursor { s.nodeRead s.cursor with sym := some s.loadSym } with
    tree := .loaded, cursor := s.root, mode := .idle }

/-- PATH_END's own rule (R123), its checks in the order of R215. -/
def pathEndRule (s : State) : Out :=
  if (s.nodeRead s.cursor).lab then .next (s.failLoad .malRelabel)
  else if (s.nodeRead s.cursor).isLeaf then .next s.closeRecord
  else .next (s.failLoad .malLabelInternal)

/-- PATH_END (R123). -/
def execPathEnd (s : State) : Out := execute .pathEnd s pathEndRule

end Sys2Proof.Machine
end

