-- ==== Sys2Proof/Machine/Dispatch.lean ====
section
/-! DEFINITION. exec: one arm per command (30_encoding.md R83, column "rule"), each one call of its meaning. -/

namespace Sys2Proof.Machine

def exec (i : Instr) (s : State) : Host.Outcome State Fault Refusal :=
  match i with
  | .nop => Sys2Proof.Machine.execNop s
  | .clear => Sys2Proof.Machine.execClear s
  | .pathBegin sym => Sys2Proof.Machine.execPathBegin sym s
  | .pathBit b => Sys2Proof.Machine.execPathBit b s
  | .pathEnd => Sys2Proof.Machine.execPathEnd s
  | .setSentinel sym => Sys2Proof.Machine.execSetSentinel sym s
  | .decode => Sys2Proof.Machine.execDecode s
  | .abort => Sys2Proof.Machine.execAbort s
  | .freqWrite sym f => Sys2Proof.Machine.execFreqWrite sym f s
  | .freqClear => Sys2Proof.Machine.execFreqClear s
  | .build => Sys2Proof.Machine.execBuild s
  | .readNode idx => Sys2Proof.Machine.execReadNode idx s
  | .readReg reg => Sys2Proof.Machine.execReadReg reg s
  | .writeCtrl v => Sys2Proof.Machine.execWriteCtrl v s
  | .ack m => Sys2Proof.Machine.execAck m s

end Sys2Proof.Machine
end

