-- ==== Sys2Proof/Machine/Walker.lean ====
section
/-! DEFINITION. The WALKER's steps (42_decode.md): WalkStep (R145) in MODE = WALK and EmitStep (R147) in MODE = EMIT. -/

namespace Sys2Proof.Machine

/-- The leaf tests of WalkStep, at the node the walker has just moved to (R145, R146, R153). An internal node only keeps
MODE = WALK. -/
def arrive (s : State) : Out :=
  if (s.nodeRead s.cursor).isLeaf then
    match (s.nodeRead s.cursor).sym with
    | none => .fault .unreachableState
    | some sym => if sym = s.sentinel then .next (s.finishDecode .sentinel) else .next { s with outSym := sym, mode := .emit }
  else .next s

/-- WalkStep after a bit has been taken (R145): an absent child ends the decode at once (R212). -/
def walkBit (b : Bool) (s : State) : Out :=
  match (s.nodeRead s.cursor).child b with
  | none => .next ((s.recordError .deadEnd).finishDecode .deadEnd)
  | some i => arrive { s with cursor := i }

/-- take_token() (R144): the token the SOURCE offers next, and the state in which it has been taken; none if the SOURCE offers
nothing. Where its list is used up, a SOURCE without an end goes on: with the next block, or with the free stream (R240 (iii)). -/
def State.takeToken (s : State) : Option (Token × State) :=
  match s.tokens, s.sourceTail with
  | tok :: rest, _ => some (tok, { s with tokens := rest })
  | [], .ends => none
  | [], .repeats tok rest => some (tok, { s with tokens := rest })
  | [], .free n => some (Config.freeToken n, { s with sourceTail := .free (n + 1) })

/-- WalkStep (R145): takes one token (R144). BIT_COUNT counts a bit, not EOS (R29). -/
def walkStep (s : State) : Out :=
  match s.takeToken with
  | none => .fault .stuckNoToken
  | some (.eos, t) => .next (t.finishDecode .streamEnd)
  | some (.bit b, t) => walkBit b { t with bitCount := t.bitCount + 1 }

/-- The SINK accepts one symbol, if it accepts any (R240 (iv)). -/
def Sink.take : Sink → Option Sink
  | .acceptsAll => some .acceptsAll
  | .accepts 0 => none
  | .accepts (n + 1) => some (.accepts n)

/-- EmitStep (R147): the symbol leaves, and the walk starts again at the root. -/
def emitStep (s : State) : Out :=
  match s.sink.take with
  | none => .fault .stuckNoSink
  | some sink =>
    .next { s with
      sink := sink, received := s.received ++ [s.outSym], emitCount := s.emitCount + 1, cursor := s.root, mode := .walk }

/-- The WALKER has a step (R31): a token is offered in WALK, or a symbol is accepted in EMIT. -/
def State.walkerEnabled (s : State) : Bool :=
  match s.mode with
  | .walk => s.takeToken.isSome
  | .emit => s.sink.take.isSome
  | .idle => false
  | .load => false
  | .build => false

/-- Why the WALKER has no step, seen from a state in which the HOST has none either (R14, R223 (c), R240). -/
def State.noStep (s : State) : Fault :=
  match s.mode with
  | .idle => .runEnded
  | .load => .recordOpen
  | .build => .commandPortHeld
  | .walk => .stuckNoToken
  | .emit => .stuckNoSink

/-- The WALKER's step (R31). -/
def walkerStep (s : State) : Out :=
  match s.mode with
  | .walk => walkStep s
  | .emit => emitStep s
  | .idle => .fault s.noStep
  | .load => .fault s.noStep
  | .build => .fault s.noStep

end Sys2Proof.Machine
end

