-- ==== Sys2Proof/Machine/Agents.lean ====
section
/-! DEFINITION. The HOST's step (30_encoding.md R88) and the choice of the agent that steps (20_memory.md R70, R216). -/

namespace Sys2Proof.Machine

/-- The HOST has a step: it holds a command word, and the block takes one (R51). -/
def State.hostEnabled (s : State) : Bool := s.cmdReady && !s.commands.isEmpty

/-- One transferred command word (R88): an illegal word (R84), or the command it encodes. -/
def executeWord (w : Word64) (s : State) : Out :=
  match decode s.params w with
  | .ok i => exec i s
  | .error _ => illegalWord s

/-- The HOST's step: the next command word is transferred and executed (R51, R56, R88). -/
def hostStep (s : State) : Out :=
  match s.commands with
  | [] => .fault s.noStep
  | w :: rest => executeWord w { s with commands := rest }

/-- One transfer (R56). An agent steps only when it is enabled; where both are, `hostFirst` says which (R70, R216). -/
def agentStep (hostFirst : Bool) (s : State) : Out :=
  match s.hostEnabled, s.walkerEnabled with
  | true, true => if hostFirst then hostStep s else walkerStep s
  | true, false => hostStep s
  | false, true => walkerStep s
  | false, false => .fault s.noStep

/-- A list of commands taken one after the other (20_memory.md R71), stopping at the first that gives no next state. -/
def execAll : List Instr → State → Out
  | [], s => .next s
  | i :: rest, s =>
    match exec i s with
    | .next t => execAll rest t
    | .fault r => .fault r
    | .refused r => .refused r

/-- One step: the turn that `turns` names, or, when it names none, the free value's (assumption log 1). A reset turn is a clock
edge with rst = 1 (R58). -/
def takeTurn (s : State) : Out :=
  match s.turns with
  | .reset :: rest => .next { s with turns := rest }.resetBlock
  | .host :: rest => agentStep true { s with turns := rest }
  | .walker :: rest => agentStep false { s with turns := rest }
  | [] => agentStep (Config.freeTurn s.freeTurns) { s with freeTurns := s.freeTurns + 1 }

end Sys2Proof.Machine
end

