-- ==== Sys2Proof/Machine/Step.lean ====
section
/-! DEFINITION. One step of the machine, and, for the host, a state whose next step runs a given command word. -/

namespace Sys2Proof.Machine

/-- One step: one transfer of one agent (10_state.md R56), or a clock edge with rst = 1 (R58). -/
def step (s : State) : Host.Outcome State Fault Refusal := takeTurn s

/-- The state `s` with the word `w` of `nbits` bits (the bits above them 0) as the HOST's next command word, and the HOST's
turn next: the block fetches nothing (10_state.md R30), it takes the word the HOST offers (assumption log 3). -/
def State.withFetchWord (s : State) (nbits w : Nat) : State :=
  { s with commands := BitVec.ofNat 64 (w % 2 ^ nbits) :: s.commands, turns := .host :: s.turns }

end Sys2Proof.Machine
end

