-- ==== Sys2Proof/Machine/Listing.lean ====
section
/-! DEFINITION. Command listings (30_encoding.md R90 to R97): the pseudo-instructions' expansions, and an assembler from one
line of text to commands and to the environment lines SOURCE and SINK. Host text: no part of the block. -/

namespace Sys2Proof.Machine

/-- `FREQS f_0, ..., f_{k-1}` (R94): FREQ_CLEAR, then FREQ_WRITE for every nonzero entry, in ascending order. -/
def freqsExpansion (fs : List Freq) : List Instr :=
  .freqClear ::
    (List.range fs.length).filterMap fun i => if fs.getD i 0 = 0 then none else some (.freqWrite (BitVec.ofNat 9 i) (fs.getD i 0))

/-- `PATH s, "p_1 ... p_k"` (R95). -/
def pathExpansion (sym : Sym) (path : List Bool) : List Instr := .pathBegin sym :: path.map Instr.pathBit ++ [.pathEnd]

/-- `LOADTREE (s_1, "path_1"), ...` (R96). -/
def loadTreeExpansion (records : List (Sym × List Bool)) : List Instr :=
  .clear :: records.flatMap fun r => pathExpansion r.1 r.2

/-- `ACKALL` (R97). -/
def ackAllExpansion : List Instr := [.ack 3]

/-- `STATUS` (R97). -/
def statusExpansion : List Instr := [.readReg 0]

/-- One thing a line of a listing says: a command, or the environment of the run (R92). -/
inductive ListingItem where
  | command (i : Instr)
  | source (tokens : List Token)
  | sink
deriving DecidableEq, Repr

/-- The pieces of a line: words and numbers (in capitals, since case is not significant, R90), quoted bit strings, punctuation. -/
inductive Lexeme where
  | word (cs : List Char)
  | text (cs : List Char)
  | comma
  | opening
  | closing
  | colon
deriving DecidableEq, Repr

/-- Where the reader of a line stands; a word or a quoted string is collected last character first. -/
inductive LexMode where
  | between
  | inWord (rev : List Char)
  | inText (rev : List Char)
  | inComment
deriving DecidableEq, Repr

/-- The double quote (R10). -/
def quoteMark : Char := Char.ofNat 34

/-- A character of a word, a number or a label: a letter, a digit or `_` (assumption log 18). -/
def isWordChar (c : Char) : Bool := c.isAlphanum || c == '_'

/-- What one character does between two pieces of a line: the new mode and the piece it completes, none if it has no place. -/
def lexBetween (c : Char) : Option (LexMode × List Lexeme) :=
  if isWordChar c then some (.inWord [c.toUpper], [])
  else if c == quoteMark then some (.inText [], [])
  else if c == ';' then some (.inComment, [])
  else if c == ' ' || c == '\t' then some (.between, [])
  else if c == ',' then some (.between, [.comma])
  else if c == '(' then some (.between, [.opening])
  else if c == ')' then some (.between, [.closing])
  else if c == ':' then some (.between, [.colon])
  else none

/-- The same in any mode. A `;` starts a comment that runs to the end of the line (R90). -/
def lexChar (m : LexMode) (c : Char) : Option (LexMode × List Lexeme) :=
  match m with
  | .between => lexBetween c
  | .inWord rev =>
    if isWordChar c then some (.inWord (c.toUpper :: rev), [])
    else (lexBetween c).map fun r => (r.1, .word rev.reverse :: r.2)
  | .inText rev => if c == quoteMark then some (.between, [.text rev.reverse]) else some (.inText (c :: rev), [])
  | .inComment => some (.inComment, [])

/-- The pieces of the rest of a line; none for an unclosed quote or a character that has no place. -/
def lexFrom : LexMode → List Char → Option (List Lexeme)
  | .between, [] => some []
  | .inWord rev, [] => some [.word rev.reverse]
  | .inText _, [] => none
  | .inComment, [] => some []
  | m, c :: cs =>
    match lexChar m c with
    | none => none
    | some (m', done) => (lexFrom m' cs).map fun rest => done ++ rest

/-- A digit's value, decimal or hexadecimal (R90). -/
def digitValue (c : Char) : Option Nat :=
  if c.isDigit then some (c.toNat - 48) else if 65 ≤ c.toNat && c.toNat ≤ 70 then some (c.toNat - 55) else none

/-- A run of digits in a base, read on from the number `n` so far. -/
def digitsFrom (base : Nat) : Nat → List Char → Option Nat
  | n, [] => some n
  | n, c :: cs =>
    match digitValue c with
    | none => none
    | some d => if d < base then digitsFrom base (base * n + d) cs else none

/-- A number: decimal, or hexadecimal with `0x` (R90). -/
def numberOf : List Char → Option Nat
  | [] => none
  | ['0', 'X'] => none
  | '0' :: 'X' :: cs => digitsFrom 16 0 cs
  | c :: cs => digitsFrom 10 0 (c :: cs)

/-- The register names of READ_REG's operand (R91). -/
def registerNames : List (List Char × Nat) :=
  [ (['S','T','A','T','U','S'], 0), (['C','T','R','L'], 1), (['R','O','O','T'], 2),
    (['N','O','D','E','_','C','O','U','N','T'], 3), (['S','E','N','T','I','N','E','L'], 4),
    (['C','U','R','S','O','R'], 5), (['E','M','I','T','_','C','O','U','N','T'], 6) ] ++
  [ (['B','I','T','_','C','O','U','N','T'], 7), (['L','O','A','D','_','S','Y','M'], 8),
    (['L','O','A','D','_','D','E','P','T','H'], 9), (['C','O','N','F','I','G'], 10), (['O','U','T','_','S','Y','M'], 11) ]

/-- READ_REG's operand: a number or a register name (R91). -/
def registerOf (cs : List Char) : Option Nat :=
  match registerNames.find? fun e => e.1 == cs with
  | some e => some e.2
  | none => numberOf cs

/-- The commands without operands (R83), and the pseudo-instructions without operands (R97). -/
def plainNames : List (List Char × List Instr) :=
  [ (['N','O','P'], [.nop]), (['C','L','E','A','R'], [.clear]), (['P','A','T','H','_','E','N','D'], [.pathEnd]),
    (['D','E','C','O','D','E'], [.decode]), (['A','B','O','R','T'], [.abort]),
    (['F','R','E','Q','_','C','L','E','A','R'], [.freqClear]), (['B','U','I','L','D'], [.build]) ] ++
  [ (['A','C','K','A','L','L'], ackAllExpansion), (['S','T','A','T','U','S'], statusExpansion) ]

/-- The commands with one operand (R83). An operand that does not fit its field is rejected (R90). -/
def unaryCommand (name operand : List Char) : Option Instr :=
  if name = ['R','E','A','D','_','R','E','G'] then
    match registerOf operand with
    | some n => if n < 16 then some (.readReg (BitVec.ofNat 4 n)) else none
    | none => none
  else
    match numberOf operand with
    | none => none
    | some n =>
      if name = ['P','A','T','H','_','B','E','G','I','N'] then if n < 512 then some (.pathBegin (BitVec.ofNat 9 n)) else none
      else if name = ['P','A','T','H','_','B','I','T'] then if n < 2 then some (.pathBit (n == 1)) else none
      else if name = ['S','E','T','_','S','E','N','T','I','N','E','L'] then
        if n < 512 then some (.setSentinel (BitVec.ofNat 9 n)) else none
      else if name = ['R','E','A','D','_','N','O','D','E'] then if n < 1024 then some (.readNode (BitVec.ofNat 10 n)) else none
      else if name = ['W','R','I','T','E','_','C','T','R','L'] then if n < 4 then some (.writeCtrl (BitVec.ofNat 2 n)) else none
      else if name = ['A','C','K'] then if n < 4 then some (.ack (BitVec.ofNat 2 n)) else none
      else none

/-- FREQ_WRITE, the command with two operands (R83, R90). -/
def freqWriteCommand (sym f : List Char) : Option Instr :=
  match numberOf sym, numberOf f with
  | some n, some k => if n < 512 ∧ k < 4294967296 then some (.freqWrite (BitVec.ofNat 9 n) (BitVec.ofNat 32 k)) else none
  | some _, none => none
  | none, _ => none

/-- A quoted path, first bit leftmost (R10, R95). -/
def pathText : List Char → Option (List Bool)
  | [] => some []
  | c :: cs =>
    if c == '0' then (pathText cs).map (false :: ·) else if c == '1' then (pathText cs).map (true :: ·) else none

/-- A quoted token list: `0`, `1` and, at most once and last, `E` (R92). Whether R90's "Case is not significant" reaches into the
quotes is left open: that it does not, so that a lower-case `e` is rejected, is the model's choice (DESIGN CHOICE, assumption
log 25). -/
def tokenText : List Char → Option (List Token)
  | [] => some []
  | c :: cs =>
    if c == '0' then (tokenText cs).map (.bit false :: ·)
    else if c == '1' then (tokenText cs).map (.bit true :: ·)
    else if c == 'E' && cs.isEmpty then some [.eos]
    else none

/-- A 9-bit symbol operand (R90, R95). -/
def symbolOf (cs : List Char) : Option Sym :=
  match numberOf cs with
  | some n => if n < 512 then some (BitVec.ofNat 9 n) else none
  | none => none

/-- The comma-separated numbers of FREQS, each a 32-bit frequency (R94). -/
def freqOperands : List Lexeme → Option (List Freq)
  | [.word cs] =>
    match numberOf cs with
    | some n => if n < 4294967296 then some [BitVec.ofNat 32 n] else none
    | none => none
  | .word cs :: .comma :: rest =>
    match numberOf cs, freqOperands rest with
    | some n, some fs => if n < 4294967296 then some (BitVec.ofNat 32 n :: fs) else none
    | some _, none => none
    | none, _ => none
  | _ => none

/-- The comma-separated records of LOADTREE (R96). R96 gives no range for their number n: that n is at least 1, so that a LOADTREE
with no record is rejected, is the model's choice (DESIGN CHOICE, assumption log 22). -/
def recordOperands : List Lexeme → Option (List (Sym × List Bool))
  | [.opening, .word s, .comma, .text p, .closing] =>
    match symbolOf s, pathText p with
    | some sym, some path => some [(sym, path)]
    | some _, none => none
    | none, _ => none
  | .opening :: .word s :: .comma :: .text p :: .closing :: .comma :: rest =>
    match symbolOf s, pathText p, recordOperands rest with
    | some sym, some path, some rs => some ((sym, path) :: rs)
    | some _, some _, none => none
    | some _, none, _ => none
    | none, _, _ => none
  | _ => none

/-- The line's items, each a command. -/
def asItems (is : List Instr) : List ListingItem := is.map ListingItem.command

/-- A line that has a mnemonic, by its operands (R90 to R97). -/
def lineItems (p : Params) (name : List Char) (operands : List Lexeme) : Option (List ListingItem) :=
  if name = ['F','R','E','Q','S'] then
    match freqOperands operands with
    | some fs => if fs.length ≤ p.nSym then some (asItems (freqsExpansion fs)) else none
    | none => none
  else if name = ['L','O','A','D','T','R','E','E'] then (recordOperands operands).map fun rs => asItems (loadTreeExpansion rs)
  else
    match operands with
    | [] =>
      if name = ['S','I','N','K'] then some [.sink]
      else (plainNames.find? fun e => e.1 == name).map fun e => asItems e.2
    | [.word a] => (unaryCommand name a).map fun i => [.command i]
    | [.text t] => if name = ['S','O','U','R','C','E'] then (tokenText t).map fun ts => [.source ts] else none
    | [.word a, .comma, .word b] =>
      if name = ['F','R','E','Q','_','W','R','I','T','E'] then (freqWriteCommand a b).map fun i => [.command i] else none
    | [.word s, .comma, .text t] =>
      if name = ['P','A','T','H'] then
        match symbolOf s, pathText t with
        | some sym, some path => some (asItems (pathExpansion sym path))
        | some _, none => none
        | none, _ => none
      else none
    | _ => none

/-- A line after its label, if it has one (R93): blank, or a mnemonic and its operands (R90). -/
def unlabeledItems (p : Params) : List Lexeme → Option (List ListingItem)
  | [] => some []
  | .word name :: operands => lineItems p name operands
  | _ => none

/-- One line of a listing (R90 to R97): what it says, or none where the assembler rejects it. That a line has at most one label,
which may stand alone, and that the builder's commands assemble for every machine, are the model's choices (DESIGN CHOICE,
assumption log 18). -/
def assembleLine (p : Params) (line : List Char) : Option (List ListingItem) :=
  match lexFrom .between line with
  | none => none
  | some (.word _ :: .colon :: rest) => unlabeledItems p rest
  | some pieces => unlabeledItems p pieces

/-- A listing, line by line; none if the assembler rejects a line. -/
def assemble (p : Params) : List (List Char) → Option (List ListingItem)
  | [] => some []
  | line :: rest =>
    match assembleLine p line, assemble p rest with
    | some items, some more => some (items ++ more)
    | some _, none => none
    | none, _ => none

/-- Gives an item to the environment of a run (R92, R240): a command word to the HOST, tokens to the SOURCE, the SINK's consent.
R92 does not say what several SOURCE lines of one listing mean: that a later one extends the tokens, all of them there before
the first step, is the model's choice (DESIGN CHOICE, assumption log 23). -/
def State.place (s : State) : ListingItem → State
  | .command i => { s with commands := s.commands ++ [encode i] }
  | .source ts => { s with tokens := s.tokens ++ ts }
  | .sink => { s with sink := .acceptsAll }

/-- The start of a run of a listing (R240): the reset state in the environment that the listing gives. R92 does not say what a
listing with no SINK line means: that its SINK accepts nothing, as in `State.resetWith`, is the model's choice (DESIGN CHOICE,
assumption log 26). -/
def State.ofListing (p : Params) (items : List ListingItem) : State := items.foldl State.place (State.resetWith p)

end Sys2Proof.Machine
end

