-- ==== Sys2Proof/Machine/Reference.lean ====
section
/-! DEFINITION. The reference functions of the spec, which are no commands: the reference BitReader Tokens(bytes) (20_memory.md
R64), Paths(T) (41_tree_load.md R130) and Encode(T, s_1 ... s_k) (R131). -/

namespace Sys2Proof.Machine

/-- The bits of one byte, most significant first (R64). -/
def byteBits (b : BitVec 8) : List Bool := (List.range 8).map fun k => b.getLsbD (7 - k)

/-- Tokens(bytes): the bytes in order, most significant bit first, and one EOS after the last (R64, R65). -/
def tokensOfBytes (bytes : List (BitVec 8)) : List Token := (bytes.flatMap byteBits).map Token.bit ++ [.eos]

/-- Walk(i, p) (R130). The fuel bounds the depth; a tree of NODE_COUNT entries is never deeper than NODE_COUNT - 1. -/
def pathsFrom (nodes : List Node) : Nat → Idx → List Bool → List (Sym × List Bool)
  | 0, _, _ => []
  | fuel + 1, i, path =>
    if (nodeAt nodes i).isLeaf then [((nodeAt nodes i).symValue, path)]
    else
      (match (nodeAt nodes i).left with
        | some l => pathsFrom nodes fuel l (path ++ [false])
        | none => []) ++
      (match (nodeAt nodes i).right with
        | some r => pathsFrom nodes fuel r (path ++ [true])
        | none => [])

/-- Paths(T): the (symbol, path) pair of every leaf, in depth-first order, left before right (R130). -/
def State.paths (s : State) : List (Sym × List Bool) := pathsFrom s.nodes s.nodes.length s.root []

/-- path(s): the path of the first pair whose symbol is `sym` (R131). -/
def State.pathOf (s : State) (sym : Sym) : Option (List Bool) := (s.paths.find? fun e => e.1 == sym).map Prod.snd

/-- Encode(T, s_1 ... s_k): the paths of the symbols, then the path of SENTINEL; defined only when each has one (R131). -/
def State.encodeSymbols (s : State) : List Sym → Option (List Bool)
  | [] => s.pathOf s.sentinel
  | sym :: rest =>
    match s.pathOf sym, s.encodeSymbols rest with
    | some path, some bits => some (path ++ bits)
    | none, _ => none
    | some _, none => none

end Sys2Proof.Machine
end

