-- ==== Sys2Proof/Safety.lean ====
section
/-! DEFINITION. What claims call safe: the invariants of 10_state.md R45 (with those of R37, R43, R44, R105 and of a decode in
progress), the end of a run (70_reset R240), and the outcomes a safe machine may give (60_exceptions.md R223). -/

namespace Sys2Proof.Machine

/-- The child indices stored in a table, entry by entry. -/
def childIndices (nodes : List Node) : List Nat := nodes.flatMap fun n => n.children.map BitVec.toNat

/-- R45 (c), first part: every entry except the root is the child of exactly one entry, and the root is the child of none.
Said as one rearrangement: the child indices together with the root are the indices 0..NODE_COUNT-1, each exactly once. -/
abbrev OneParent (nodes : List Node) (root : Idx) : Prop :=
  (childIndices nodes ++ [root.toNat]).Perm (List.range nodes.length)

/-- R45 (c): an entry that can be reached from the root by child links. -/
inductive Reaches (nodes : List Node) (root : Idx) : Idx → Prop where
  | root : Reaches nodes root root
  | child {i c : Idx} : Reaches nodes root i → c ∈ (nodeAt nodes i).children → Reaches nodes root c

/-- R45 (c), last part: LAB = 1 exactly when the entry is a leaf. -/
abbrev LeavesLabeled (nodes : List Node) : Prop := ∀ n ∈ nodes, n.lab = n.isLeaf

/-- R45 (d), R127: every child index is greater than its parent's index. -/
abbrev ChildrenAbove (nodes : List Node) : Prop :=
  ∀ i < nodes.length, ∀ c ∈ (nodes.getD i Node.zero).children, i < c.toNat

/-- The order in a built tree: every child was allocated before its parent (R107). -/
abbrev ChildrenBelow (nodes : List Node) : Prop :=
  ∀ i < nodes.length, ∀ c ∈ (nodes.getD i Node.zero).children, c.toNat < i

/-- R45 (e): an internal entry has both children, and its FREQ is the sum of theirs, with no overflow. -/
abbrev FreqsAddUp (nodes : List Node) : Prop :=
  ∀ n ∈ nodes, n.isLeaf = false →
    n.hasL = true ∧ n.hasR = true ∧
      n.freq.toNat = (nodeAt nodes n.leftIndex).freq.toNat + (nodeAt nodes n.rightIndex).freq.toNat

/-- R45 (a): the bounds that hold in every mode. -/
structure Bounds (s : State) : Prop where
  count_pos : 1 ≤ s.nodes.length
  count_le  : s.nodes.length ≤ s.params.nodeCap
  root_lt   : s.root.toNat < s.nodes.length
  cursor_lt : s.cursor.toNat < s.nodes.length
  child_lt  : ∀ n ∈ s.nodes, ∀ c ∈ n.children, c.toNat < s.nodes.length

/-- R45 (c) and (d): the tree of a LOADED table. -/
structure LoadedTree (s : State) : Prop where
  root_zero      : s.root = 0
  one_parent     : OneParent s.nodes s.root
  reached        : ∀ i : Idx, i.toNat < s.nodes.length → Reaches s.nodes s.root i
  labeled        : LeavesLabeled s.nodes
  children_above : ChildrenAbove s.nodes
  freq_zero      : ∀ n ∈ s.nodes, n.freq = 0

/-- R45 (c) and (e): the tree of a BUILT table. -/
structure BuiltTree (s : State) : Prop where
  root_last      : s.root.toNat = s.nodes.length - 1
  one_parent     : OneParent s.nodes s.root
  reached        : ∀ i : Idx, i.toNat < s.nodes.length → Reaches s.nodes s.root i
  labeled        : LeavesLabeled s.nodes
  children_below : ChildrenBelow s.nodes
  freqs_add_up   : FreqsAddUp s.nodes

/-- What holds while a record is open (R45, last sentence, and R37): a tree grown from the root whose only unlabeled leaf
can be the cursor's node, and a depth that the cursor's index bounds. -/
structure OpenRecord (s : State) : Prop where
  loadable       : s.tree.loadable = true
  root_zero      : s.root = 0
  one_parent     : OneParent s.nodes s.root
  labels_leaves  : ∀ n ∈ s.nodes, n.lab = true → n.isLeaf = true
  unlabeled_leaf : ∀ i : Idx, i.toNat < s.nodes.length → (s.nodeRead i).isLeaf = true → (s.nodeRead i).lab = false → i = s.cursor
  children_above : ChildrenAbove s.nodes
  freq_zero      : ∀ n ∈ s.nodes, n.freq = 0
  depth_le       : s.loadDepth.toNat ≤ s.cursor.toNat

/-- What holds while a decode runs (R33, R34, R141, R145): a decodable tree with an internal root, END and DONE clear; in WALK
the cursor stands at an internal node, in EMIT at the leaf of OUT_SYM, which is not the sentinel. -/
structure RunningDecode (s : State) : Prop where
  decodable     : s.tree.decodable = true
  root_internal : (s.nodeRead s.root).isLeaf = false
  end_none      : s.endCause = .none
  not_done      : s.done = false
  at_internal   : s.mode = .walk → (s.nodeRead s.cursor).isLeaf = false
  at_leaf       : s.mode = .emit →
    (s.nodeRead s.cursor).isLeaf = true ∧ (s.nodeRead s.cursor).sym = some s.outSym ∧ s.outSym ≠ s.sentinel

/-- The invariant of the machine: R45, with LOAD_DEPTH's bound (R37), the frequency table's size (R43), the empty queue (R44),
the atomicity of BUILD (R105) and what holds in a record and in a decode. -/
structure Inv (s : State) : Prop where
  bounds      : Bounds s
  not_build   : s.mode ≠ .build
  queue_empty : s.queue = []
  freqs_size  : s.freqs.length = if s.params.hasBuilder then s.params.nSym else 0
  depth_bound : s.loadDepth.toNat < s.params.nodeCap
  empty_tree  : s.mode ≠ .load → s.tree = .empty → s.nodes = [Node.zero] ∧ s.root = 0
  loaded_tree : s.mode ≠ .load → s.tree = .loaded → LoadedTree s
  built_tree  : s.tree = .built → BuiltTree s
  builder     : s.params.hasBuilder = false → s.tree ≠ .built
  open_record : s.mode = .load → OpenRecord s
  decoding    : s.mode = .walk ∨ s.mode = .emit → RunningDecode s

/-- The end of a run (R240): every command transferred, MODE = IDLE, and so no agent with a step. -/
abbrev Ended (s : State) : Prop := s.commands = [] ∧ s.mode = .idle

/-- The WALKER is stuck (R223 (c)): in WALK with no token offered, or in EMIT with no symbol accepted. -/
abbrev WalkerStuck (s : State) : Prop :=
  (s.mode = .walk ∧ s.tokens = [] ∧ s.sourceTail = .ends) ∨ (s.mode = .emit ∧ s.sink = .accepts 0)

/-- The SOURCE offers the token `tok` next, and has `tokens` and `tail` left when it is taken (R144, R240 (iii)): from its list,
or, when that is used up, from the block it repeats or from the free stream. -/
abbrev Offers (s : State) (tok : Token) (tokens : List Token) (tail : SourceTail) : Prop :=
  (s.tokens = tok :: tokens ∧ tail = s.sourceTail) ∨
  (s.tokens = [] ∧ s.sourceTail = .repeats tok tokens ∧ tail = s.sourceTail) ∨
  (s.tokens = [] ∧ tokens = [] ∧ ∃ n, s.sourceTail = .free n ∧ tok = Config.freeToken n ∧ tail = .free (n + 1))

/-- What a safe step may answer (R223): a next state, or the word that no agent has a step. -/
def SafeOutcome : Out → Prop
  | .next _ => True
  | .fault .unreachableState => False
  | .fault .commandPortHeld => False
  | .fault .stuckNoToken => True
  | .fault .stuckNoSink => True
  | .fault .runEnded => True
  | .fault .recordOpen => True
  | .refused _ => False

end Sys2Proof.Machine
end

