-- ==== Sys2Proof/Certificates/Slice0/Obligations.lean ====
section
/-! DEFINITION. The statements for the provers. Each docstring names the rule of spec/ that the statement formalises.
`{ s with … }` states a frame with the result: every field it does not name is unchanged. MODE = BUILD takes no command
(R51) and no run holds it (R105): `s.mode ≠ .build` says that the command port takes a word. -/

open Sys2Proof Sys2Proof.Machine

/-! ### Encoding (30_encoding.md) -/

/-- R81 to R84: the decoder reads every command of a machine back from its word, with every operand value. -/
def Obligations.DecodeOfEncodeIsIdentity : Prop :=
  ∀ (p : Params) (i : Instr), i.wellFormed p = true → decode p (encode i) = .ok i

/-- R81 to R84: a word that decodes is the word of the command it decodes to, so every bit of a legal word is accounted for. -/
def Obligations.EncodeOfDecodeIsIdentity : Prop :=
  ∀ (p : Params) (w : Word64) (i : Instr), decode p w = .ok i → encode i = w ∧ i.wellFormed p = true

/-- R83: a legal word matches exactly the row of its command, and a word that matches a row the machine has is legal and is
that row's command. -/
def Obligations.LegalWordMatchesExactlyItsRow : Prop :=
  ∀ (p : Params) (w : Word64),
    (∀ i, decode p w = .ok i → ∀ k r, opcodeTable[k]? = some r → (r.selects w = true ↔ k = i.opcode)) ∧
    (∀ k r, opcodeTable[k]? = some r → r.selects w = true → (r.builder = true → p.hasBuilder = true) →
      ∃ i, decode p w = .ok i ∧ i.opcode = k)

/-- R84, R203: which words are illegal, and that a transferred illegal word records ILLEGAL_CMD and does nothing else. -/
def Obligations.IllegalWordRecordsOnlyIllegalCmd : Prop :=
  ∀ (s : State) (w : Word64),
    ((∃ e, decode s.params w = .error e) ↔
      opField w = 0xF ∨ (∀ r ∈ opcodeTable, r.selects w = false) ∨
        (s.params.hasBuilder = false ∧ (opField w = 0x8 ∨ opField w = 0x9 ∨ opField w = 0xA))) ∧
    ((∃ e, decode s.params w = .error e) → s.mode ≠ .build →
      executeWord w s = .next { s with err := if s.err = .none then .illegalCmd else s.err })

/-- R98: the words the spec lists decode to the commands it lists them for, and its illegal examples do not decode. -/
def Obligations.SpecExampleWordsDecodeAsListed : Prop :=
  ([ (0x0000000000000000, Instr.nop), (0x1000000000000000, .clear), (0x2000004100000000, .pathBegin 65),
     (0x3000000000000000, .pathBit false), (0x3000000000000001, .pathBit true), (0x4000000000000000, .pathEnd),
     (0x5000010000000000, .setSentinel 256), (0x6000000000000000, .decode), (0x7000000000000000, .abort),
     (0x800000050000002D, .freqWrite 5 45), (0x800000FFFFFFFFFF, .freqWrite 255 0xFFFFFFFF), (0x9000000000000000, .freqClear),
     (0xA000000000000000, .build), (0xB00000000000000C, .readNode 12), (0xC00000000000000A, .readReg 10),
     (0xD000000000000003, .writeCtrl 3), (0xE000000000000001, .ack 1) ] : List (Word64 × Instr)).all
      (fun e => decodeTableWord 64 e.1.toNat = some e.2) = true ∧
  ([ 0xF000000000000000, 0x0000000000000001, 0x3000000000000002, 0x2000020000000000, 0xB000000000000400 ] : List Nat).all
      (fun w => decodeTableWord 64 w = none) = true ∧
  decode ⟨255, false⟩ 0xA000000000000000 = .error .builderAbsent

/-! ### Steps, order and reset (10_state.md, 20_memory.md, 70_reset_and_hazards.md) -/

/-- R88, R56, R51: when the HOST's next word decodes, the step is exec of that command on the state with the word
transferred. How the turns are held is the model's choice (DESIGN CHOICE, assumption log 1): the turn that the step uses up is
taken off `turns`, a named WALKER without a step gives its turn to the HOST, and, when `turns` is empty, `freeTurns` counts it. -/
def Obligations.StepRunsTheDecodedCommand : Prop :=
  ∀ (s : State) (w : Word64) (rest : List Word64) (i : Instr),
    s.commands = w :: rest → s.mode ≠ .build → decode s.params w = .ok i →
    (∀ ts, s.turns = .host :: ts → step s = exec i { s with commands := rest, turns := ts }) ∧
    (∀ ts, s.turns = .walker :: ts → s.walkerEnabled = false → step s = exec i { s with commands := rest, turns := ts }) ∧
    (s.turns = [] → s.walkerEnabled = false → step s = exec i { s with commands := rest, freeTurns := s.freeTurns + 1 })

/-- R70, R216: where a command transfer and a walker transfer are both possible, each can be the next step. What a turn named
HOST, a turn named WALKER and no turn give is the model's choice (DESIGN CHOICE, assumption log 1: `State.turns` and the free
value `Config.freeTurn`): the HOST's step, the WALKER's step, and one of the two. -/
def Obligations.EitherAgentMayStepFirst : Prop :=
  ∀ s : State, s.hostEnabled = true → s.walkerEnabled = true →
    (∀ ts, step { s with turns := .host :: ts } = hostStep { s with turns := ts }) ∧
    (∀ ts, step { s with turns := .walker :: ts } = walkerStep { s with turns := ts }) ∧
    (s.turns = [] →
      step s = hostStep { s with freeTurns := s.freeTurns + 1 } ∨ step s = walkerStep { s with freeTurns := s.freeTurns + 1 })

/-- R59: the reset value of every piece of state, and what the output ports show once reset is released. -/
def Obligations.ResetLeavesTheListedValues : Prop :=
  ∀ p : Params,
    let r := State.resetWith p
    r.mode = .idle ∧ r.tree = .empty ∧ r.root = 0 ∧ r.nodeCount = 1 ∧ r.cursor = 0 ∧ r.sentinel.toNat = p.nSym ∧ r.loadSym = 0 ∧
    r.loadDepth = 0 ∧ r.outSym = 0 ∧ r.emitCount = 0 ∧ r.bitCount = 0 ∧ r.err = .none ∧ r.endCause = .none ∧ r.done = false ∧
    r.ctrl = 0 ∧ (∀ i : Idx, (r.nodeRead i).image = 0) ∧
    (p.hasBuilder = true → r.freqs.length = p.nSym ∧ ∀ f ∈ r.freqs, f = 0) ∧ r.queue = [] ∧
    r.outputs.cmdReady = true ∧ r.outputs.rspValid = false ∧ r.outputs.bitReady = false ∧ r.outputs.symValid = false ∧
    r.outputs.irq = false ∧ r.status = 0

/-- R230, R231: while rst = 1 every output port is 0; the clock edge gives the block its reset state in every mode and moves
nothing on any port; and in the first state with rst = 0 after it cmd_ready is 1 and the other outputs are 0. That a reset edge
is a turn is the model's choice (DESIGN CHOICE, assumption log 16). -/
def Obligations.ResetActsAlikeInEveryMode : Prop :=
  ∀ (s : State) (ts : List Turn), s.turns = .reset :: ts →
    s.outputs = ⟨false, false, false, false, none, false⟩ ∧
    ∃ t, step s = .next t ∧
      t = { State.resetWith s.params with
            commands := s.commands, tokens := s.tokens, sourceTail := s.sourceTail, sink := s.sink, responses := s.responses,
            received := s.received, turns := ts, freeTurns := s.freeTurns } ∧
      ((∀ us, ts ≠ .reset :: us) → t.outputs = ⟨true, false, false, false, none, false⟩)

/-- R240, R223 (c): with no command left, the run has ended exactly in IDLE, and the walker is stuck exactly in WALK with no
token and in EMIT with no symbol accepted. That the step answers so, by the stops runEnded, stuckNoToken and stuckNoSink, is the
model's choice (DESIGN CHOICE, assumption log 8). -/
def Obligations.RunsEndOrStickAsDefined : Prop :=
  ∀ s : State, s.commands = [] → (∀ ts, s.turns ≠ .reset :: ts) →
    (step s = .fault .runEnded ↔ Ended s) ∧
    ((step s = .fault .stuckNoToken ∨ step s = .fault .stuckNoSink) ↔ WalkerStuck s)

/-! ### Acceptance by mode, and errors (30_encoding.md R87, 60_exceptions.md) -/

/-- R204: during a decode the tree and decode commands record BUSY and do nothing else. -/
def Obligations.TreeCommandsAreBusyDuringADecode : Prop :=
  ∀ (s : State) (i : Instr), (s.mode = .walk ∨ s.mode = .emit) → i.wellFormed s.params = true →
    (i = .clear ∨ (∃ sym, i = .pathBegin sym) ∨ (∃ b, i = .pathBit b) ∨ i = .pathEnd ∨ (∃ sym, i = .setSentinel sym) ∨
      i = .decode ∨ (∃ sym f, i = .freqWrite sym f) ∨ i = .freqClear ∨ i = .build) →
    exec i s = .next { s with err := if s.err = .none then .busy else s.err }

/-- R124, R125, R210: in LOAD a command that does not belong to a record truncates it: MAL_TRUNCATED, MalformedLoad, and the
command itself is not executed. -/
def Obligations.OtherCommandsTruncateAnOpenRecord : Prop :=
  ∀ (s : State) (i : Instr), s.mode = .load → i.wellFormed s.params = true →
    ((∃ sym, i = .pathBegin sym) ∨ (∃ sym, i = .setSentinel sym) ∨ i = .decode ∨ i = .abort ∨
      (∃ sym f, i = .freqWrite sym f) ∨ i = .freqClear ∨ i = .build) →
    exec i s = .next
      { s with err := if s.err = .none then .malTruncated else s.err, tree := .bad, mode := .idle, cursor := s.root }

/-- R213: PATH_BIT or PATH_END in IDLE records NO_RECORD, and the tree and TREE are unchanged. -/
def Obligations.PathCommandsInIdleRecordNoRecord : Prop :=
  ∀ (s : State) (i : Instr), s.mode = .idle → ((∃ b, i = .pathBit b) ∨ i = .pathEnd) →
    exec i s = .next { s with err := if s.err = .none then .noRecord else s.err }

/-- R201: RecordError writes ERR only while it is 0 and writes nothing else, and a recorded error stays through every step
but a reset and a step that transfers CLEAR or an ACK with mask bit 0. -/
def Obligations.FirstErrorStaysUntilCleared : Prop :=
  (∀ (s : State) (e : ErrCode), s.recordError e = { s with err := if s.err = .none then e else s.err }) ∧
  ∀ s t : State, step s = .next t → s.err ≠ .none →
    t.err = s.err ∨ (∃ ts, s.turns = .reset :: ts) ∨
      ∃ w, s.commands = w :: t.commands ∧
        (decode s.params w = .ok .clear ∨ ∃ m : BitVec 2, decode s.params w = .ok (.ack m) ∧ m.getLsbD 0 = true)

/-- R8, R84 (c): the word of a builder command on a machine without the builder is illegal. That exec, to which the decoder
never gives such a command, treats it as an illegal word in every mode is the model's inference (DEDUCED, assumption log 17). -/
def Obligations.BuilderCommandsNeedTheBuilder : Prop :=
  ∀ (s : State) (i : Instr), s.params.hasBuilder = false → s.mode ≠ .build →
    ((∃ sym f, i = .freqWrite sym f) ∨ i = .freqClear ∨ i = .build) →
    exec i s = .next { s with err := if s.err = .none then .illegalCmd else s.err } ∧
      decode s.params (encode i) = .error .builderAbsent

/-! ### Control family (43_control.md) and the views of 10_state.md -/

/-- R170: NOP leaves everything as it was, in every mode that takes a command. -/
def Obligations.NopChangesNothing : Prop :=
  ∀ s : State, s.mode ≠ .build → exec .nop s = .next s

/-- R171, R86: READ_NODE's response in its three cases, its image bit by bit, and that nothing else changes but ERR through
BAD_INDEX. -/
def Obligations.ReadNodeRespondsTheImage : Prop :=
  ∀ (s : State) (idx : Idx), s.mode ≠ .build →
    (s.params.nodeCap ≤ idx.toNat →
      exec (.readNode idx) s =
        .next { s with err := if s.err = .none then .badIndex else s.err, responses := s.responses ++ [0] }) ∧
    (idx.toNat < s.params.nodeCap → s.nodes.length ≤ idx.toNat →
      exec (.readNode idx) s = .next { s with responses := s.responses ++ [0] }) ∧
    (∀ n, idx.toNat < s.params.nodeCap → s.nodes[idx.toNat]? = some n →
      ∃ v : Word64, exec (.readNode idx) s = .next { s with responses := s.responses ++ [v] } ∧
        v.extractLsb' 0 32 = n.freq ∧ v.extractLsb' 32 9 = n.sym.getD 0 ∧ v.extractLsb' 41 10 = n.left.getD 0 ∧
        v.extractLsb' 51 10 = n.right.getD 0 ∧ v.getLsbD 61 = n.sym.isSome ∧ v.getLsbD 62 = n.left.isSome ∧
        v.getLsbD 63 = n.right.isSome)

/-- R172, R39: READ_REG's response for each of the 16 numbers, in every mode that takes a command; only BAD_INDEX changes
anything else. -/
def Obligations.ReadRegRespondsTheRegister : Prop :=
  ∀ s : State, s.mode ≠ .build →
    exec (.readReg 0) s = .next { s with responses := s.responses ++ [s.status] } ∧
    exec (.readReg 1) s = .next { s with responses := s.responses ++ [s.ctrl.setWidth 64] } ∧
    exec (.readReg 2) s = .next { s with responses := s.responses ++ [s.root.setWidth 64] } ∧
    exec (.readReg 3) s = .next { s with responses := s.responses ++ [s.nodeCount.setWidth 64] } ∧
    exec (.readReg 4) s = .next { s with responses := s.responses ++ [s.sentinel.setWidth 64] } ∧
    exec (.readReg 5) s = .next { s with responses := s.responses ++ [s.cursor.setWidth 64] } ∧
    exec (.readReg 6) s = .next { s with responses := s.responses ++ [s.emitCount.setWidth 64] } ∧
    exec (.readReg 7) s = .next { s with responses := s.responses ++ [s.bitCount.setWidth 64] } ∧
    exec (.readReg 8) s = .next { s with responses := s.responses ++ [s.loadSym.setWidth 64] } ∧
    exec (.readReg 9) s = .next { s with responses := s.responses ++ [s.loadDepth.setWidth 64] } ∧
    exec (.readReg 10) s = .next { s with responses := s.responses ++ [configWord s.params] } ∧
    exec (.readReg 11) s = .next { s with responses := s.responses ++ [s.outSym.setWidth 64] } ∧
    ∀ reg : BitVec 4, 12 ≤ reg.toNat →
      exec (.readReg reg) s =
        .next { s with err := if s.err = .none then .badIndex else s.err, responses := s.responses ++ [0] }

/-- R36: STATUS, register number 0, field by field, and its reset view; with the codes of MODE, TREE, ERR and END that its fields
show, as the code tables give them (10_state.md R21, R22, 60_exceptions.md R202, R214). -/
def Obligations.StatusHasTheListedFields : Prop :=
  (∀ s : State, s.readRegister 0 = some s.status ∧
    s.status.extractLsb' 0 3 = s.mode.code ∧ s.status.getLsbD 3 = false ∧ s.status.extractLsb' 4 2 = s.tree.code ∧
    s.status.extractLsb' 6 2 = 0 ∧ s.status.extractLsb' 8 4 = s.err.code ∧ s.status.extractLsb' 12 4 = s.endCause.code ∧
    s.status.getLsbD 16 = s.done ∧ s.status.getLsbD 17 = s.irq ∧ s.status.extractLsb' 18 46 = 0) ∧
  (∀ p : Params, (State.resetWith p).status = 0x0000000000000000) ∧
  (Mode.code .idle = 0 ∧ Mode.code .load = 1 ∧ Mode.code .build = 2 ∧ Mode.code .walk = 3 ∧ Mode.code .emit = 4) ∧
  (TreeState.code .empty = 0 ∧ TreeState.code .loaded = 1 ∧ TreeState.code .built = 2 ∧ TreeState.code .bad = 3) ∧
  (ErrCode.code .none = 0 ∧ ErrCode.code .illegalCmd = 1 ∧ ErrCode.code .busy = 2 ∧ ErrCode.code .treeState = 3 ∧
    ErrCode.code .badIndex = 4 ∧ ErrCode.code .malThroughLeaf = 5 ∧ ErrCode.code .malLabelInternal = 6 ∧
    ErrCode.code .malRelabel = 7 ∧ ErrCode.code .malTruncated = 8 ∧ ErrCode.code .nodeOverflow = 9 ∧
    ErrCode.code .deadEnd = 10 ∧ ErrCode.code .noRecord = 11 ∧ ErrCode.code .freqOverflow = 12) ∧
  (EndCause.code .none = 0 ∧ EndCause.code .sentinel = 1 ∧ EndCause.code .streamEnd = 2 ∧ EndCause.code .rootLeaf = 3 ∧
    EndCause.code .deadEnd = 4 ∧ EndCause.code .aborted = 5)

/-- R38: CONFIG, register number 10, a constant of the machine, field by field, and its value at the defaults. -/
def Obligations.ConfigHasTheListedFields : Prop :=
  (∀ s : State, s.readRegister 10 = some (configWord s.params)) ∧
  (∀ p : Params,
    ((configWord p).extractLsb' 0 9).toNat = p.nSym ∧ (configWord p).getLsbD 9 = p.hasBuilder ∧
    ((configWord p).extractLsb' 10 10).toNat = p.nodeCap ∧ (configWord p).extractLsb' 20 6 = 32 ∧
    (configWord p).extractLsb' 26 6 = 1 ∧ (configWord p).extractLsb' 32 32 = 0) ∧
  configWord Params.atDefaults = 0x0000000006080700

/-- R54, R173: WRITE_CTRL writes CTRL alone, and irq follows at once: the level of the enabled causes. -/
def Obligations.WriteCtrlSetsTheEnables : Prop :=
  ∀ (s : State) (v : BitVec 2), s.mode ≠ .build →
    exec (.writeCtrl v) s = .next { s with ctrl := v } ∧
    ({ s with ctrl := v }.irq = true ↔ (v[0] = true ∧ s.err ≠ .none) ∨ (v[1] = true ∧ s.done = true))

/-- R174: ACK clears ERR by mask bit 0 and DONE by mask bit 1, and changes nothing else; ACK 0 is a NOP. -/
def Obligations.AckClearsTheMaskedBits : Prop :=
  ∀ s : State, s.mode ≠ .build →
    exec (.ack 0) s = .next s ∧ exec (.ack 1) s = .next { s with err := .none } ∧
    exec (.ack 2) s = .next { s with done := false } ∧ exec (.ack 3) s = .next { s with err := .none, done := false }

/-! ### Tree load (41_tree_load.md) -/

/-- R120: CLEAR in IDLE, and in LOAD, where it abandons the open record without an error. -/
def Obligations.ClearEmptiesTheTree : Prop :=
  ∀ s : State, (s.mode = .idle ∨ s.mode = .load) →
    exec .clear s = .next
      { s with
        nodes := [Node.zero], root := 0, cursor := 0, tree := .empty, mode := .idle, err := .none, done := false,
        endCause := .none, emitCount := 0, bitCount := 0, loadSym := 0, loadDepth := 0 }

/-- R121, R205: PATH_BEGIN in IDLE opens a record, for every symbol; on a BUILT or BAD tree it only records TREE_STATE. -/
def Obligations.PathBeginOpensARecord : Prop :=
  ∀ (s : State) (sym : Sym), s.mode = .idle →
    (s.tree = .empty ∨ s.tree = .loaded →
      exec (.pathBegin sym) s = .next { s with loadSym := sym, loadDepth := 0, cursor := s.root, mode := .load }) ∧
    (s.tree = .built ∨ s.tree = .bad →
      exec (.pathBegin sym) s = .next { s with err := if s.err = .none then .treeState else s.err })

/-- R122: PATH_BIT into a child that exists moves the cursor and allocates nothing. -/
def Obligations.PathBitDescendsAnExistingChild : Prop :=
  ∀ (s : State) (b : Bool) (i : Idx), s.mode = .load → (s.nodeRead s.cursor).sym = none →
    (if b then (s.nodeRead s.cursor).right else (s.nodeRead s.cursor).left) = some i →
    s.loadDepth.toNat + 1 < s.params.nodeCap →
    exec (.pathBit b) s = .next { s with cursor := i, loadDepth := s.loadDepth + 1 }

/-- R122: PATH_BIT toward an absent child allocates a zero entry at index NODE_COUNT, links it from the cursor's entry and
moves there; no other entry changes. -/
def Obligations.PathBitCreatesAnAbsentChild : Prop :=
  ∀ (s : State) (b : Bool) (n : Node), s.mode = .load → s.nodes[s.cursor.toNat]? = some n → n.sym = none →
    (if b then n.right else n.left) = none → s.nodes.length < s.params.nodeCap →
    s.loadDepth.toNat + 1 < s.params.nodeCap →
    exec (.pathBit b) s = .next
      { s with
        nodes := s.nodes.set s.cursor.toNat
            { n with left := if b then n.left else some s.nodeCount, right := if b then some s.nodeCount else n.right } ++
          [⟨none, none, none, 0⟩]
        cursor := s.nodeCount, loadDepth := s.loadDepth + 1 }

/-- R122, R207, R211: PATH_BIT at a labeled node is MAL_THROUGH_LEAF; PATH_BIT that needs a node when the table is full is
NODE_OVERFLOW; both end in MalformedLoad (R125), with the table and LOAD_DEPTH as they were. -/
def Obligations.PathBitRefusesAMalformedPath : Prop :=
  ∀ (s : State) (b : Bool), s.mode = .load →
    ((s.nodeRead s.cursor).sym ≠ none →
      exec (.pathBit b) s = .next
        { s with err := if s.err = .none then .malThroughLeaf else s.err, tree := .bad, mode := .idle, cursor := s.root }) ∧
    ((s.nodeRead s.cursor).sym = none → (if b then (s.nodeRead s.cursor).right else (s.nodeRead s.cursor).left) = none →
      s.nodes.length = s.params.nodeCap →
      exec (.pathBit b) s = .next
        { s with err := if s.err = .none then .nodeOverflow else s.err, tree := .bad, mode := .idle, cursor := s.root })

/-- R123, R208, R209: PATH_END labels an unlabeled childless node with LOAD_SYM and closes the record; a labeled node is
MAL_RELABEL, checked first, and a node with a child is MAL_LABEL_INTERNAL, both ending in MalformedLoad (R125). -/
def Obligations.PathEndLabelsTheCursorNode : Prop :=
  ∀ (s : State) (n : Node), s.mode = .load → s.nodes[s.cursor.toNat]? = some n →
    (n.sym = none → n.left = none → n.right = none →
      exec .pathEnd s = .next
        { s with nodes := s.nodes.set s.cursor.toNat { n with sym := some s.loadSym }, tree := .loaded, cursor := s.root,
                 mode := .idle }) ∧
    (n.sym ≠ none →
      exec .pathEnd s = .next
        { s with err := if s.err = .none then .malRelabel else s.err, tree := .bad, mode := .idle, cursor := s.root }) ∧
    (n.sym = none → (n.left ≠ none ∨ n.right ≠ none) →
      exec .pathEnd s = .next
        { s with err := if s.err = .none then .malLabelInternal else s.err, tree := .bad, mode := .idle, cursor := s.root })

/-! ### Decode (42_decode.md) -/

/-- R140: SET_SENTINEL in IDLE writes SENTINEL alone, with any value. -/
def Obligations.SetSentinelWritesSentinel : Prop :=
  ∀ (s : State) (sym : Sym), s.mode = .idle → exec (.setSentinel sym) s = .next { s with sentinel := sym }

/-- R141, R205: DECODE in IDLE: on a LOADED or BUILT tree with an internal root it clears the counters, END and DONE and
starts the walk at ROOT; on an EMPTY or BAD tree it only records TREE_STATE. -/
def Obligations.DecodeStartsTheWalk : Prop :=
  ∀ s : State, s.mode = .idle →
    ((s.tree = .loaded ∨ s.tree = .built) → (s.nodeRead s.root).isLeaf = false →
      exec .decode s = .next
        { s with emitCount := 0, bitCount := 0, endCause := .none, done := false, cursor := s.root, mode := .walk }) ∧
    ((s.tree = .empty ∨ s.tree = .bad) →
      exec .decode s = .next { s with err := if s.err = .none then .treeState else s.err })

/-- R142: DECODE of a root-only tree, whatever its symbol, ends in its own step with ROOT_LEAF: no token taken, no symbol
emitted, both counters 0. -/
def Obligations.RootOnlyDecodeEndsAtOnce : Prop :=
  ∀ s : State, s.mode = .idle → (s.tree = .loaded ∨ s.tree = .built) →
    (s.nodeRead s.root).left = none → (s.nodeRead s.root).right = none →
    exec .decode s = .next
      { s with emitCount := 0, bitCount := 0, endCause := .rootLeaf, done := true, cursor := s.root, mode := .idle }

/-- R143, R148: ABORT ends a decode in WALK or EMIT with END = ABORTED, keeping CURSOR, OUT_SYM, the counters, and the offered
tokens; in IDLE it changes nothing. -/
def Obligations.AbortEndsTheDecode : Prop :=
  ∀ s : State,
    ((s.mode = .walk ∨ s.mode = .emit) →
      exec .abort s = .next { s with endCause := .aborted, done := true, mode := .idle }) ∧
    (s.mode = .idle → exec .abort s = .next s)

/-- R145, R146, R152, R153: WalkStep, whole, for a token however the SOURCE offers it: EOS first, then an absent child, then the
leaf tests. How a SOURCE is held (`Offers`: its list of tokens, log 2; a repeated block or the free stream after it, log 24) is the
model's choice (DESIGN CHOICE). -/
def Obligations.WalkStepFollowsOneToken : Prop :=
  ∀ (s : State) (tokens : List Token) (tail : SourceTail), s.mode = .walk →
    (Offers s .eos tokens tail →
      walkerStep s = .next
        { s with tokens := tokens, sourceTail := tail, endCause := .streamEnd, done := true, mode := .idle }) ∧
    ∀ b : Bool, Offers s (.bit b) tokens tail →
      let child := if b then (s.nodeRead s.cursor).right else (s.nodeRead s.cursor).left
      (child = none →
        walkerStep s = .next
          { s with tokens := tokens, sourceTail := tail, bitCount := s.bitCount + 1,
                   err := if s.err = .none then .deadEnd else s.err, endCause := .deadEnd, done := true, mode := .idle }) ∧
      ∀ i, child = some i →
        let n := s.nodeRead i
        let t := { s with tokens := tokens, sourceTail := tail, bitCount := s.bitCount + 1, cursor := i }
        ((n.left ≠ none ∨ n.right ≠ none) → walkerStep s = .next t) ∧
        (n.left = none → n.right = none → n.sym = none → walkerStep s = .fault .unreachableState) ∧
        (n.left = none → n.right = none → n.sym = some s.sentinel →
          walkerStep s = .next { t with endCause := .sentinel, done := true, mode := .idle }) ∧
        ∀ sym, n.left = none → n.right = none → n.sym = some sym → sym ≠ s.sentinel →
          walkerStep s = .next { t with outSym := sym, mode := .emit }

/-- R147, R31: EmitStep: the SINK receives OUT_SYM, EMIT_COUNT grows by one modulo 2^32, the walk restarts at ROOT, and no
token is taken; with a SINK that accepts nothing, and in every mode but WALK and EMIT, the walker has no step. A SINK that accepts
n + 1 more symbols and then n is the model's choice (DESIGN CHOICE, assumption log 2), and so is the stop's name (log 8). -/
def Obligations.EmitStepHandsOverTheSymbol : Prop :=
  ∀ s : State,
    (s.mode = .emit → s.sink = .acceptsAll →
      walkerStep s = .next
        { s with received := s.received ++ [s.outSym], emitCount := s.emitCount + 1, cursor := s.root, mode := .walk }) ∧
    (∀ n, s.mode = .emit → s.sink = .accepts (n + 1) →
      walkerStep s = .next
        { s with sink := .accepts n, received := s.received ++ [s.outSym], emitCount := s.emitCount + 1, cursor := s.root,
                 mode := .walk }) ∧
    (s.mode = .emit → s.sink = .accepts 0 → walkerStep s = .fault .stuckNoSink) ∧
    (s.mode ≠ .walk → s.mode ≠ .emit → ∃ f, walkerStep s = .fault f)

/-- R154, R73: no step of a running decode, of either agent, writes the node table, the frequency table, ROOT, NODE_COUNT,
TREE or SENTINEL. -/
def Obligations.NoStepOfADecodeWritesTheTree : Prop :=
  ∀ s t : State, (s.mode = .walk ∨ s.mode = .emit) → step s = .next t → (∀ ts, s.turns ≠ .reset :: ts) →
    t.nodes = s.nodes ∧ t.freqs = s.freqs ∧ t.root = s.root ∧ t.nodeCount = s.nodeCount ∧ t.tree = s.tree ∧
      t.sentinel = s.sentinel

/-- R79, R52, R53: while rst = 0, bit_ready is 1 exactly in WALK, sym_valid is 1 exactly in EMIT, and sym_data is OUT_SYM then.
In every step tokens are taken only in WALK, in the order the SOURCE offers them, at most one; symbols are received only in EMIT,
at the end, at most one, and it is OUT_SYM, which the same step hands over once: the mode is WALK after it. That rst is read off
`turns` (log 16), and how a SOURCE is held (`Offers`: logs 2 and 24), are the model's choices (DESIGN CHOICE). -/
def Obligations.TokensAndSymbolsKeepTheirOrder : Prop :=
  (∀ s : State, (∀ ts, s.turns ≠ .reset :: ts) →
    (s.outputs.bitReady = true ↔ s.mode = .walk) ∧ (s.outputs.symValid = true ↔ s.mode = .emit) ∧
    (s.outputs.symValid = true → s.outputs.symData = some s.outSym)) ∧
  ∀ s t : State, step s = .next t →
    ((t.tokens = s.tokens ∧ t.sourceTail = s.sourceTail) ∨
      (s.mode = .walk ∧ ∃ tok, Offers s tok t.tokens t.sourceTail)) ∧
    (t.received = s.received ∨ (s.mode = .emit ∧ t.mode = .walk ∧ t.received = s.received ++ [s.outSym]))

/-- R150: a decode of the tokens of path(s_1) ... path(s_k) path(SENTINEL) emits exactly s_1, ..., s_k, ends with
END = SENTINEL, counts the symbols and the bits, and takes no token after the sentinel's path. It holds for every tree that
can be decoded and has an internal root (the root-only form is RootOnlyDecodeEndsAtOnce), given that each symbol and SENTINEL has
a path (R131) and that no s_j is SENTINEL, for a HOST whose one command is DECODE, whoever is named for the turns (log 1) and
whatever the SOURCE offers afterwards. That the last step answers runEnded is the model's choice (DESIGN CHOICE, log 8). -/
def Obligations.DecodeReproducesTheEncodedSymbols : Prop :=
  ∀ (s : State) (syms : List Sym) (bits : List Bool) (rest : List Token),
    Inv s → s.mode = .idle → (s.tree = .loaded ∨ s.tree = .built) → (s.nodeRead s.root).isLeaf = false →
    (∀ x ∈ syms, x ≠ s.sentinel) → s.encodeSymbols syms = some bits → s.tokens = bits.map Token.bit ++ rest →
    s.sink = .acceptsAll → s.commands = [encode .decode] → (∀ x ∈ s.turns, x ≠ .reset) →
    ∃ t, Host.Core.run Sys2Proof.core (1 + bits.length + syms.length) s = .next t ∧
      t.received = s.received ++ syms ∧ t.endCause = .sentinel ∧ t.done = true ∧ t.mode = .idle ∧
      t.emitCount = BitVec.ofNat 32 syms.length ∧ t.bitCount = BitVec.ofNat 32 bits.length ∧ t.tokens = rest ∧
      t.sourceTail = s.sourceTail ∧ t.err = s.err ∧ t.nodes = s.nodes ∧ step t = .fault .runEnded

/-- R155, R152: a decode whose SOURCE offers an EOS, with a SINK that accepts every symbol and no command or reset in between,
ends: within one step per token and one per symbol, and no token after that EOS has been taken. -/
def Obligations.DecodeEndsByTheFirstEos : Prop :=
  ∀ (s : State) (bits : List Bool) (rest : List Token),
    Inv s → (s.mode = .walk ∨ s.mode = .emit) → s.tokens = bits.map Token.bit ++ .eos :: rest → s.sink = .acceptsAll →
    s.commands = [] → (∀ x ∈ s.turns, x ≠ .reset) →
    ∃ k t, k ≤ 2 * bits.length + 2 ∧ Host.Core.run Sys2Proof.core k s = .next t ∧ t.mode = .idle ∧ t.done = true ∧
      t.endCause ≠ .none ∧ rest <:+ t.tokens ∧ t.sourceTail = s.sourceTail

/-! ### Builder (40_builder.md) -/

/-- R100, R206: FREQ_WRITE in IDLE writes one entry and no other; a symbol from N_SYM on is BAD_INDEX and writes nothing. -/
def Obligations.FreqWriteWritesOneEntry : Prop :=
  ∀ (s : State) (sym : Sym) (f : Freq), s.mode = .idle → s.params.hasBuilder = true → s.freqs.length = s.params.nSym →
    (sym.toNat < s.params.nSym →
      ∃ fs, exec (.freqWrite sym f) s = .next { s with freqs := fs } ∧ fs.length = s.params.nSym ∧ fs[sym.toNat]? = some f ∧
        ∀ i, i ≠ sym.toNat → fs[i]? = s.freqs[i]?) ∧
    (s.params.nSym ≤ sym.toNat →
      exec (.freqWrite sym f) s = .next { s with err := if s.err = .none then .badIndex else s.err })

/-- R101: FREQ_CLEAR in IDLE sets every entry to 0 and changes nothing else. -/
def Obligations.FreqClearZeroesEveryEntry : Prop :=
  ∀ s : State, s.mode = .idle → s.params.hasBuilder = true →
    ∃ fs, exec .freqClear s = .next { s with freqs := fs } ∧ fs.length = s.freqs.length ∧ ∀ f ∈ fs, f = 0

/-- R104, R217: a BUILD whose exact sum plus 1 exceeds 0xFFFFFFFF resets the table, marks the tree BAD, sets DONE and records
FREQ_OVERFLOW; the frequency table stays. -/
def Obligations.BuildRefusesAnOverflowingSum : Prop :=
  ∀ s : State, s.mode = .idle → s.params.hasBuilder = true →
    0xFFFFFFFF < ((List.range s.params.nSym).map fun i => (s.freqRead i).toNat).sum + 1 →
    exec .build s = .next
      { s with nodes := [⟨none, none, none, 0⟩], root := 0, cursor := 0, tree := .bad, done := true,
               err := if s.err = .none then .freqOverflow else s.err }

/-- R107, R108: a BUILD whose sum fits completes, whatever TREE was: the node table of K leaves and K - 1 merges, at most
NODE_CAP entries, ROOT the last of them, and the registers R108 names; nothing else changes. -/
def Obligations.BuildCompletesWithTheRootLast : Prop :=
  ∀ s : State, s.mode = .idle → s.params.hasBuilder = true → s.freqTotal ≤ 0xFFFFFFFF →
    ∃ nodes root,
      exec .build s = .next
        { s with nodes := nodes, queue := [], root := root, cursor := root, tree := .built,
                 sentinel := BitVec.ofNat 9 s.params.nSym, done := true } ∧
      root.toNat = nodes.length - 1 ∧
      nodes.length + 1 = 2 * (((List.range s.params.nSym).filter fun i => s.freqRead i ≠ 0).length + 1) ∧
      nodes.length ≤ s.params.nodeCap

/-- R103: BUILD's leaves: one for each real symbol with a nonzero frequency, in ascending order, then the sentinel's with
frequency 1, at indices 0, 1, ...; every later entry is an unlabeled internal node. -/
def Obligations.BuildAllocatesTheLeavesFirst : Prop :=
  ∀ s t : State, s.mode = .idle → s.params.hasBuilder = true → s.freqTotal ≤ 0xFFFFFFFF → exec .build s = .next t →
    let reals := (List.range s.params.nSym).filter fun i => s.freqRead i ≠ 0
    t.nodes.take (reals.length + 1) =
      reals.map (fun i => ⟨some (BitVec.ofNat 9 i), none, none, s.freqRead i⟩) ++
        [⟨some (BitVec.ofNat 9 s.params.nSym), none, none, 1⟩] ∧
    ∀ n ∈ t.nodes.drop (reals.length + 1), n.sym = none ∧ n.left ≠ none ∧ n.right ≠ none

/-- R106, R107: the greedy merge. Every internal entry j of a built table has as its left child the least key (FREQ, node
index) among the entries before j that no entry before j has taken, as its right child the least of the others, and the sum
of their frequencies. -/
def Obligations.BuildMergesTheTwoLeastKeys : Prop :=
  ∀ s t : State, s.mode = .idle → s.params.hasBuilder = true → s.freqTotal ≤ 0xFFFFFFFF → exec .build s = .next t →
    let queued := fun (j : Nat) (x : Idx) => x.toNat < j ∧ ∀ m < j, x ∉ (t.nodes.getD m Node.zero).children
    let before := fun (x y : Idx) =>
      (t.nodeRead x).freq.toNat < (t.nodeRead y).freq.toNat ∨ ((t.nodeRead x).freq = (t.nodeRead y).freq ∧ x.toNat < y.toNat)
    ∀ (j : Nat) (n : Node), t.nodes[j]? = some n → n.isLeaf = false →
      ∃ a c, n.left = some a ∧ n.right = some c ∧ queued j a ∧ queued j c ∧ before a c ∧
        (∀ x, queued j x → x ≠ a → x ≠ c → before c x) ∧
        n.freq.toNat = (t.nodeRead a).freq.toNat + (t.nodeRead c).freq.toNat

/-- R110 (a): total frequency conservation. -/
def Obligations.BuiltRootCarriesTheTotal : Prop :=
  ∀ s t : State, s.mode = .idle → s.params.hasBuilder = true → s.freqTotal ≤ 0xFFFFFFFF → exec .build s = .next t →
    (t.nodeRead t.root).freq.toNat = ((List.range s.params.nSym).map fun i => (s.freqRead i).toNat).sum + 1

/-- R110 (b): no leaf's path is a prefix of another leaf's path. It holds of every table. -/
def Obligations.LeafPathsArePrefixFree : Prop :=
  ∀ s : State, s.paths.Pairwise fun x y => ¬ x.2 <+: y.2 ∧ ¬ y.2 <+: x.2

/-- R110 (c): in a built tree every real symbol with a nonzero frequency, and the sentinel, has exactly one leaf that can be
reached from the root, and no other symbol has one. -/
def Obligations.BuiltTreeHasOneLeafPerSymbol : Prop :=
  ∀ s t : State, s.mode = .idle → s.params.hasBuilder = true → s.freqTotal ≤ 0xFFFFFFFF → exec .build s = .next t →
    (t.paths.map Prod.fst).Perm
      ((((List.range s.params.nSym).filter fun i => s.freqRead i ≠ 0) ++ [s.params.nSym]).map (BitVec.ofNat 9))

/-- R110 (d): optimality: a leaf of lower frequency never has a strictly shorter path. -/
def Obligations.LowerFrequencyNeverGetsAShorterPath : Prop :=
  ∀ s t : State, s.mode = .idle → s.params.hasBuilder = true → s.freqTotal ≤ 0xFFFFFFFF → exec .build s = .next t →
    let weight := fun x : Sym => if x.toNat = s.params.nSym then 1 else (s.freqRead x.toNat).toNat
    ∀ x ∈ t.paths, ∀ y ∈ t.paths, weight x.1 < weight y.1 → y.2.length ≤ x.2.length

/-- R109: a BUILD of the all-zero table makes the sentinel's leaf alone, and a DECODE of it ends at once with ROOT_LEAF. -/
def Obligations.BuildOfTheZeroTableIsRootOnly : Prop :=
  ∀ s : State, s.mode = .idle → s.params.hasBuilder = true → (∀ i < s.params.nSym, s.freqRead i = 0) →
    let t := { s with nodes := [⟨some (BitVec.ofNat 9 s.params.nSym), none, none, 1⟩], queue := [], root := 0, cursor := 0,
                      tree := .built, sentinel := BitVec.ofNat 9 s.params.nSym, done := true }
    exec .build s = .next t ∧
    exec .decode t = .next { t with emitCount := 0, bitCount := 0, endCause := .rootLeaf } ∧
    Node.image ⟨some 256, none, none, 1⟩ = 0x2000010000000001

/-- R111: a BUILD with one nonzero entry: two leaves and a root, the sentinel on the left if the entry is greater than 1, and
on the right if it is 1, with the paths that follow. -/
def Obligations.BuildOfOneSymbolHasTwoLeaves : Prop :=
  ∀ (s : State) (x : Nat), s.mode = .idle → s.params.hasBuilder = true → x < s.params.nSym →
    (∀ i < s.params.nSym, i ≠ x → s.freqRead i = 0) → 1 ≤ (s.freqRead x).toNat → (s.freqRead x).toNat ≤ 0xFFFFFFFE →
    let sym := BitVec.ofNat 9 x
    let eof := BitVec.ofNat 9 s.params.nSym
    let t := { s with
      nodes :=
        [ ⟨some sym, none, none, s.freqRead x⟩, ⟨some eof, none, none, 1⟩,
          if s.freqRead x = 1 then ⟨none, some 0, some 1, s.freqRead x + 1⟩
          else ⟨none, some 1, some 0, s.freqRead x + 1⟩ ]
      queue := [], root := 2, cursor := 2, tree := .built, sentinel := eof, done := true }
    exec .build s = .next t ∧
    t.paths = if s.freqRead x = 1 then [(sym, [false]), (eof, [true])] else [(eof, [false]), (sym, [true])]

/-- R132: loading the (symbol, path) pairs of a built tree, from any IDLE state of the same machine, ends with TREE = LOADED,
no error recorded, and the same pairs, at ROOT = 0 and with every FREQ 0. -/
def Obligations.LoadingTheSerializedTreeRestoresIt : Prop :=
  ∀ s u : State, Inv s → s.tree = .built → u.mode = .idle → u.params = s.params →
    ∃ t, execAll (loadTreeExpansion s.paths) u = .next t ∧ t.tree = .loaded ∧ t.mode = .idle ∧ t.err = .none ∧
      t.paths = s.paths ∧ t.root = 0 ∧ ∀ n ∈ t.nodes, n.freq = 0

/-! ### Invariants and whole-machine rules (10_state.md R45, R20 to R37) -/

/-- R45, R59: the invariant holds right after reset, for every machine. -/
def Obligations.ResetStateMeetsTheInvariant : Prop :=
  (∀ p : Params, Inv (State.resetWith p)) ∧ Inv State.reset

/-- R45, R37, R44, R105: every step of either agent, and a reset, keeps the invariant, from every state that meets it. -/
def Obligations.EveryStepKeepsTheInvariant : Prop :=
  ∀ s t : State, Inv s → step s = .next t → Inv t

/-- R14, R223: from a state that meets the invariant no step reaches UnreachableState, finds the command port held, or is
refused: it gives a next state, or no agent has a step. -/
def Obligations.NoStepReachesAnUnreachableState : Prop :=
  ∀ s : State, Inv s → SafeOutcome (step s)

/-- R20 to R37, R61, R62, R87, R175, R202: what a command may write. Each register and table of R20 is written only by the
commands its rule names, ERR, TREE and MODE only with the values their rules name, and no command touches the environment (but by
a response) or the parameters. -/
def Obligations.CommandsWriteOnlyWhatTheirRulesName : Prop :=
  ∀ (i : Instr) (s t : State), exec i s = .next t →
    let truncates := s.mode = .load ∧
      ((∃ sym, i = .pathBegin sym) ∨ (∃ sym, i = .setSentinel sym) ∨ i = .decode ∨ i = .abort ∨
        (∃ sym f, i = .freqWrite sym f) ∨ i = .freqClear ∨ i = .build)
    let inRecord := s.mode = .load ∧ ((∃ b, i = .pathBit b) ∨ i = .pathEnd)
    (t.err ≠ s.err →
      (t.err = .none ∧ (i = .clear ∨ ∃ m : BitVec 2, i = .ack m ∧ m.getLsbD 0 = true)) ∨
      (s.err = .none ∧
        ((t.err = .illegalCmd ∧ i.wellFormed s.params = false) ∨ (t.err = .busy ∧ (s.mode = .walk ∨ s.mode = .emit)) ∨
          (t.err = .treeState ∧ s.mode = .idle ∧ (i = .decode ∨ ∃ sym, i = .pathBegin sym)) ∨
          (t.err = .badIndex ∧ ((∃ sym f, i = .freqWrite sym f) ∨ (∃ idx, i = .readNode idx) ∨ ∃ reg, i = .readReg reg)) ∨
          (t.err = .malThroughLeaf ∧ inRecord ∧ ∃ b, i = .pathBit b) ∨ (t.err = .malLabelInternal ∧ inRecord ∧ i = .pathEnd) ∨
          (t.err = .malRelabel ∧ inRecord ∧ i = .pathEnd) ∨ (t.err = .malTruncated ∧ truncates) ∨
          (t.err = .nodeOverflow ∧ inRecord ∧ ∃ b, i = .pathBit b) ∨
          (t.err = .noRecord ∧ s.mode = .idle ∧ ((∃ b, i = .pathBit b) ∨ i = .pathEnd)) ∨
          (t.err = .freqOverflow ∧ i = .build)))) ∧
    (t.tree ≠ s.tree →
      (t.tree = .empty ∧ i = .clear) ∨ (t.tree = .loaded ∧ i = .pathEnd) ∨ (t.tree = .built ∧ i = .build) ∨
        (t.tree = .bad ∧ (i = .build ∨ inRecord ∨ truncates))) ∧
    (t.mode ≠ s.mode →
      (s.mode = .idle ∧ t.mode = .load ∧ ∃ sym, i = .pathBegin sym) ∨ (s.mode = .idle ∧ t.mode = .walk ∧ i = .decode) ∨
        (t.mode = .idle ∧ ((s.mode = .load ∧ i = .clear) ∨ inRecord ∨ truncates ∨
          ((s.mode = .walk ∨ s.mode = .emit) ∧ i = .abort)))) ∧
    (t.cursor ≠ s.cursor →
      i = .clear ∨ i = .build ∨ (s.mode = .idle ∧ (i = .decode ∨ ∃ sym, i = .pathBegin sym)) ∨ inRecord ∨ truncates) ∧
    t.params = s.params ∧ t.commands = s.commands ∧ t.tokens = s.tokens ∧ t.sourceTail = s.sourceTail ∧ t.sink = s.sink ∧
    t.received = s.received ∧
    t.turns = s.turns ∧ t.freeTurns = s.freeTurns ∧ t.outSym = s.outSym ∧
    (t.root ≠ s.root → i = .clear ∨ i = .build) ∧
    (t.nodes ≠ s.nodes → i = .clear ∨ (∃ b, i = .pathBit b) ∨ i = .pathEnd ∨ i = .build) ∧
    (t.sentinel ≠ s.sentinel → (∃ sym, i = .setSentinel sym) ∨ i = .build) ∧
    (t.ctrl ≠ s.ctrl → ∃ v, i = .writeCtrl v) ∧
    (t.loadSym ≠ s.loadSym → i = .clear ∨ ∃ sym, i = .pathBegin sym) ∧
    (t.loadDepth ≠ s.loadDepth → i = .clear ∨ (∃ sym, i = .pathBegin sym) ∨ ∃ b, i = .pathBit b) ∧
    (t.emitCount ≠ s.emitCount ∨ t.bitCount ≠ s.bitCount → i = .clear ∨ i = .decode) ∧
    (t.endCause ≠ s.endCause → i = .clear ∨ i = .decode ∨ i = .abort) ∧
    (t.done ≠ s.done → i = .clear ∨ i = .decode ∨ i = .abort ∨ i = .build ∨ ∃ m, i = .ack m) ∧
    (t.freqs ≠ s.freqs → (∃ sym f, i = .freqWrite sym f) ∨ i = .freqClear) ∧
    (t.queue ≠ s.queue → i = .build) ∧
    (t.responses ≠ s.responses → (∃ idx, i = .readNode idx) ∨ ∃ reg, i = .readReg reg)

/-- R61, R122, R123: PATH_BIT and PATH_END leave every allocated entry but the cursor's as it was, whatever they answer, and
the new entry of a PATH_BIT is the zero entry. -/
def Obligations.RecordCommandsTouchOnlyTheCursorEntry : Prop :=
  ∀ (s t : State) (i : Instr), ((∃ b, i = .pathBit b) ∨ i = .pathEnd) → exec i s = .next t →
    (∀ x : Nat, x < s.nodes.length → x ≠ s.cursor.toNat → t.nodes[x]? = s.nodes[x]?) ∧
    (∀ x : Nat, s.nodes.length ≤ x → x ≠ s.cursor.toNat → t.nodes.getD x Node.zero = Node.zero) ∧
    s.nodes.length ≤ t.nodes.length ∧ t.nodes.length ≤ s.nodes.length + 1

/-- R4, R8, R38: no step changes the parameters. -/
def Obligations.NoStepChangesTheParameters : Prop :=
  ∀ s t : State, step s = .next t → t.params = s.params

/-! ### Reference functions and listings (20_memory.md R64, 30_encoding.md R90 to R98) -/

/-- R64: the tokens of a byte sequence: bit 7 - j of byte i at place 8 i + j, and one EOS after the last. -/
def Obligations.TokensOfBytesAreMostSignificantFirst : Prop :=
  ∀ bytes : List (BitVec 8),
    (tokensOfBytes bytes).length = 8 * bytes.length + 1 ∧ (tokensOfBytes bytes)[8 * bytes.length]? = some .eos ∧
    ∀ (i j : Nat) (b : BitVec 8), bytes[i]? = some b → j < 8 →
      (tokensOfBytes bytes)[8 * i + j]? = some (.bit (b.getLsbD (7 - j)))

/-- R94: the expansion of FREQS writes its entries from symbol 0 on and leaves the entries after them 0, whatever the table
held before. -/
def Obligations.FreqsExpansionFillsTheTable : Prop :=
  ∀ (s : State) (fs : List Freq), s.mode = .idle → s.params.hasBuilder = true → s.freqs.length = s.params.nSym →
    fs.length ≤ s.params.nSym →
    execAll (freqsExpansion fs) s = .next { s with freqs := fs ++ List.replicate (s.params.nSym - fs.length) 0 }

/-- R90, R91, R97, R98: lines of a listing, in either case, with hexadecimal and decimal operands, register names, a label and
a comment, assemble to the listed words; operands that do not fit are rejected. -/
def Obligations.ListingLinesAssembleAsShown : Prop :=
  ([ ("NOP", [0x0000000000000000]), ("path_begin 65 ; open", [0x2000004100000000]), ("FREQ_WRITE 5, 0x2D", [0x800000050000002D]),
     ("loop: READ_REG CONFIG", [0xC00000000000000A]), ("ACKALL", [0xE000000000000003]), ("STATUS", [0xC000000000000000]),
     ("PATH 66, \"10\"", [0x2000004200000000, 0x3000000000000001, 0x3000000000000000, 0x4000000000000000]), ("", []) ] :
      List (String × List Word64)).all
    (fun e => assembleLine Params.atDefaults e.1.toList = some ((e.2.filterMap fun w => decodeTableWord 64 w.toNat).map .command)) = true ∧
  (["PATH_BIT 2", "PATH_BEGIN 512", "READ_NODE 1024", "READ_REG 16"] : List String).all
    (fun l => assembleLine Params.atDefaults l.toList = none) = true
end

