-- ==== Sys2Proof/Laws/State.lean ====
section
/-! SUPPORT. One lemma per field and update of State, true by unfolding: so that no later proof unfolds a record update. -/

namespace Sys2Proof.Machine

/-! ### recordError -/

@[simp] theorem State.recordError_params (s : State) (e : ErrCode) : (s.recordError e).params = s.params := rfl
@[simp] theorem State.recordError_mode (s : State) (e : ErrCode) : (s.recordError e).mode = s.mode := rfl
@[simp] theorem State.recordError_tree (s : State) (e : ErrCode) : (s.recordError e).tree = s.tree := rfl
@[simp] theorem State.recordError_root (s : State) (e : ErrCode) : (s.recordError e).root = s.root := rfl
@[simp] theorem State.recordError_nodes (s : State) (e : ErrCode) : (s.recordError e).nodes = s.nodes := rfl
@[simp] theorem State.recordError_cursor (s : State) (e : ErrCode) : (s.recordError e).cursor = s.cursor := rfl
@[simp] theorem State.recordError_sentinel (s : State) (e : ErrCode) : (s.recordError e).sentinel = s.sentinel := rfl
@[simp] theorem State.recordError_loadSym (s : State) (e : ErrCode) : (s.recordError e).loadSym = s.loadSym := rfl
@[simp] theorem State.recordError_loadDepth (s : State) (e : ErrCode) : (s.recordError e).loadDepth = s.loadDepth := rfl
@[simp] theorem State.recordError_outSym (s : State) (e : ErrCode) : (s.recordError e).outSym = s.outSym := rfl
@[simp] theorem State.recordError_emitCount (s : State) (e : ErrCode) : (s.recordError e).emitCount = s.emitCount := rfl
@[simp] theorem State.recordError_bitCount (s : State) (e : ErrCode) : (s.recordError e).bitCount = s.bitCount := rfl
@[simp] theorem State.recordError_err (s : State) (e : ErrCode) : (s.recordError e).err = if s.err = .none then e else s.err := rfl
@[simp] theorem State.recordError_endCause (s : State) (e : ErrCode) : (s.recordError e).endCause = s.endCause := rfl
@[simp] theorem State.recordError_done (s : State) (e : ErrCode) : (s.recordError e).done = s.done := rfl
@[simp] theorem State.recordError_ctrl (s : State) (e : ErrCode) : (s.recordError e).ctrl = s.ctrl := rfl
@[simp] theorem State.recordError_freqs (s : State) (e : ErrCode) : (s.recordError e).freqs = s.freqs := rfl
@[simp] theorem State.recordError_queue (s : State) (e : ErrCode) : (s.recordError e).queue = s.queue := rfl
@[simp] theorem State.recordError_commands (s : State) (e : ErrCode) : (s.recordError e).commands = s.commands := rfl
@[simp] theorem State.recordError_tokens (s : State) (e : ErrCode) : (s.recordError e).tokens = s.tokens := rfl
@[simp] theorem State.recordError_sourceTail (s : State) (e : ErrCode) : (s.recordError e).sourceTail = s.sourceTail := rfl
@[simp] theorem State.recordError_sink (s : State) (e : ErrCode) : (s.recordError e).sink = s.sink := rfl
@[simp] theorem State.recordError_responses (s : State) (e : ErrCode) : (s.recordError e).responses = s.responses := rfl
@[simp] theorem State.recordError_received (s : State) (e : ErrCode) : (s.recordError e).received = s.received := rfl
@[simp] theorem State.recordError_turns (s : State) (e : ErrCode) : (s.recordError e).turns = s.turns := rfl
@[simp] theorem State.recordError_freeTurns (s : State) (e : ErrCode) : (s.recordError e).freeTurns = s.freeTurns := rfl
@[simp] theorem State.recordError_nodeCount (s : State) (e : ErrCode) : (s.recordError e).nodeCount = s.nodeCount := rfl
@[simp] theorem State.recordError_nodeRead (s : State) (e : ErrCode) (k : Idx) : (s.recordError e).nodeRead k = s.nodeRead k := rfl

/-! ### respond -/

@[simp] theorem State.respond_params (s : State) (v : Word64) : (s.respond v).params = s.params := rfl
@[simp] theorem State.respond_mode (s : State) (v : Word64) : (s.respond v).mode = s.mode := rfl
@[simp] theorem State.respond_tree (s : State) (v : Word64) : (s.respond v).tree = s.tree := rfl
@[simp] theorem State.respond_root (s : State) (v : Word64) : (s.respond v).root = s.root := rfl
@[simp] theorem State.respond_nodes (s : State) (v : Word64) : (s.respond v).nodes = s.nodes := rfl
@[simp] theorem State.respond_cursor (s : State) (v : Word64) : (s.respond v).cursor = s.cursor := rfl
@[simp] theorem State.respond_sentinel (s : State) (v : Word64) : (s.respond v).sentinel = s.sentinel := rfl
@[simp] theorem State.respond_loadSym (s : State) (v : Word64) : (s.respond v).loadSym = s.loadSym := rfl
@[simp] theorem State.respond_loadDepth (s : State) (v : Word64) : (s.respond v).loadDepth = s.loadDepth := rfl
@[simp] theorem State.respond_outSym (s : State) (v : Word64) : (s.respond v).outSym = s.outSym := rfl
@[simp] theorem State.respond_emitCount (s : State) (v : Word64) : (s.respond v).emitCount = s.emitCount := rfl
@[simp] theorem State.respond_bitCount (s : State) (v : Word64) : (s.respond v).bitCount = s.bitCount := rfl
@[simp] theorem State.respond_err (s : State) (v : Word64) : (s.respond v).err = s.err := rfl
@[simp] theorem State.respond_endCause (s : State) (v : Word64) : (s.respond v).endCause = s.endCause := rfl
@[simp] theorem State.respond_done (s : State) (v : Word64) : (s.respond v).done = s.done := rfl
@[simp] theorem State.respond_ctrl (s : State) (v : Word64) : (s.respond v).ctrl = s.ctrl := rfl
@[simp] theorem State.respond_freqs (s : State) (v : Word64) : (s.respond v).freqs = s.freqs := rfl
@[simp] theorem State.respond_queue (s : State) (v : Word64) : (s.respond v).queue = s.queue := rfl
@[simp] theorem State.respond_commands (s : State) (v : Word64) : (s.respond v).commands = s.commands := rfl
@[simp] theorem State.respond_tokens (s : State) (v : Word64) : (s.respond v).tokens = s.tokens := rfl
@[simp] theorem State.respond_sourceTail (s : State) (v : Word64) : (s.respond v).sourceTail = s.sourceTail := rfl
@[simp] theorem State.respond_sink (s : State) (v : Word64) : (s.respond v).sink = s.sink := rfl
@[simp] theorem State.respond_responses (s : State) (v : Word64) : (s.respond v).responses = s.responses ++ [v] := rfl
@[simp] theorem State.respond_received (s : State) (v : Word64) : (s.respond v).received = s.received := rfl
@[simp] theorem State.respond_turns (s : State) (v : Word64) : (s.respond v).turns = s.turns := rfl
@[simp] theorem State.respond_freeTurns (s : State) (v : Word64) : (s.respond v).freeTurns = s.freeTurns := rfl
@[simp] theorem State.respond_nodeCount (s : State) (v : Word64) : (s.respond v).nodeCount = s.nodeCount := rfl
@[simp] theorem State.respond_nodeRead (s : State) (v : Word64) (k : Idx) : (s.respond v).nodeRead k = s.nodeRead k := rfl

/-! ### nodeWrite -/

@[simp] theorem State.nodeWrite_params (s : State) (i : Idx) (n : Node) : (s.nodeWrite i n).params = s.params := rfl
@[simp] theorem State.nodeWrite_mode (s : State) (i : Idx) (n : Node) : (s.nodeWrite i n).mode = s.mode := rfl
@[simp] theorem State.nodeWrite_tree (s : State) (i : Idx) (n : Node) : (s.nodeWrite i n).tree = s.tree := rfl
@[simp] theorem State.nodeWrite_root (s : State) (i : Idx) (n : Node) : (s.nodeWrite i n).root = s.root := rfl
@[simp] theorem State.nodeWrite_nodes (s : State) (i : Idx) (n : Node) : (s.nodeWrite i n).nodes = s.nodes.set i.toNat n := rfl
@[simp] theorem State.nodeWrite_cursor (s : State) (i : Idx) (n : Node) : (s.nodeWrite i n).cursor = s.cursor := rfl
@[simp] theorem State.nodeWrite_sentinel (s : State) (i : Idx) (n : Node) : (s.nodeWrite i n).sentinel = s.sentinel := rfl
@[simp] theorem State.nodeWrite_loadSym (s : State) (i : Idx) (n : Node) : (s.nodeWrite i n).loadSym = s.loadSym := rfl
@[simp] theorem State.nodeWrite_loadDepth (s : State) (i : Idx) (n : Node) : (s.nodeWrite i n).loadDepth = s.loadDepth := rfl
@[simp] theorem State.nodeWrite_outSym (s : State) (i : Idx) (n : Node) : (s.nodeWrite i n).outSym = s.outSym := rfl
@[simp] theorem State.nodeWrite_emitCount (s : State) (i : Idx) (n : Node) : (s.nodeWrite i n).emitCount = s.emitCount := rfl
@[simp] theorem State.nodeWrite_bitCount (s : State) (i : Idx) (n : Node) : (s.nodeWrite i n).bitCount = s.bitCount := rfl
@[simp] theorem State.nodeWrite_err (s : State) (i : Idx) (n : Node) : (s.nodeWrite i n).err = s.err := rfl
@[simp] theorem State.nodeWrite_endCause (s : State) (i : Idx) (n : Node) : (s.nodeWrite i n).endCause = s.endCause := rfl
@[simp] theorem State.nodeWrite_done (s : State) (i : Idx) (n : Node) : (s.nodeWrite i n).done = s.done := rfl
@[simp] theorem State.nodeWrite_ctrl (s : State) (i : Idx) (n : Node) : (s.nodeWrite i n).ctrl = s.ctrl := rfl
@[simp] theorem State.nodeWrite_freqs (s : State) (i : Idx) (n : Node) : (s.nodeWrite i n).freqs = s.freqs := rfl
@[simp] theorem State.nodeWrite_queue (s : State) (i : Idx) (n : Node) : (s.nodeWrite i n).queue = s.queue := rfl
@[simp] theorem State.nodeWrite_commands (s : State) (i : Idx) (n : Node) : (s.nodeWrite i n).commands = s.commands := rfl
@[simp] theorem State.nodeWrite_tokens (s : State) (i : Idx) (n : Node) : (s.nodeWrite i n).tokens = s.tokens := rfl
@[simp] theorem State.nodeWrite_sourceTail (s : State) (i : Idx) (n : Node) : (s.nodeWrite i n).sourceTail = s.sourceTail := rfl
@[simp] theorem State.nodeWrite_sink (s : State) (i : Idx) (n : Node) : (s.nodeWrite i n).sink = s.sink := rfl
@[simp] theorem State.nodeWrite_responses (s : State) (i : Idx) (n : Node) : (s.nodeWrite i n).responses = s.responses := rfl
@[simp] theorem State.nodeWrite_received (s : State) (i : Idx) (n : Node) : (s.nodeWrite i n).received = s.received := rfl
@[simp] theorem State.nodeWrite_turns (s : State) (i : Idx) (n : Node) : (s.nodeWrite i n).turns = s.turns := rfl
@[simp] theorem State.nodeWrite_freeTurns (s : State) (i : Idx) (n : Node) : (s.nodeWrite i n).freeTurns = s.freeTurns := rfl

/-! ### allocNode -/

@[simp] theorem State.allocNode_params (s : State) : (s.allocNode).params = s.params := rfl
@[simp] theorem State.allocNode_mode (s : State) : (s.allocNode).mode = s.mode := rfl
@[simp] theorem State.allocNode_tree (s : State) : (s.allocNode).tree = s.tree := rfl
@[simp] theorem State.allocNode_root (s : State) : (s.allocNode).root = s.root := rfl
@[simp] theorem State.allocNode_nodes (s : State) : (s.allocNode).nodes = s.nodes ++ [Node.zero] := rfl
@[simp] theorem State.allocNode_cursor (s : State) : (s.allocNode).cursor = s.cursor := rfl
@[simp] theorem State.allocNode_sentinel (s : State) : (s.allocNode).sentinel = s.sentinel := rfl
@[simp] theorem State.allocNode_loadSym (s : State) : (s.allocNode).loadSym = s.loadSym := rfl
@[simp] theorem State.allocNode_loadDepth (s : State) : (s.allocNode).loadDepth = s.loadDepth := rfl
@[simp] theorem State.allocNode_outSym (s : State) : (s.allocNode).outSym = s.outSym := rfl
@[simp] theorem State.allocNode_emitCount (s : State) : (s.allocNode).emitCount = s.emitCount := rfl
@[simp] theorem State.allocNode_bitCount (s : State) : (s.allocNode).bitCount = s.bitCount := rfl
@[simp] theorem State.allocNode_err (s : State) : (s.allocNode).err = s.err := rfl
@[simp] theorem State.allocNode_endCause (s : State) : (s.allocNode).endCause = s.endCause := rfl
@[simp] theorem State.allocNode_done (s : State) : (s.allocNode).done = s.done := rfl
@[simp] theorem State.allocNode_ctrl (s : State) : (s.allocNode).ctrl = s.ctrl := rfl
@[simp] theorem State.allocNode_freqs (s : State) : (s.allocNode).freqs = s.freqs := rfl
@[simp] theorem State.allocNode_queue (s : State) : (s.allocNode).queue = s.queue := rfl
@[simp] theorem State.allocNode_commands (s : State) : (s.allocNode).commands = s.commands := rfl
@[simp] theorem State.allocNode_tokens (s : State) : (s.allocNode).tokens = s.tokens := rfl
@[simp] theorem State.allocNode_sourceTail (s : State) : (s.allocNode).sourceTail = s.sourceTail := rfl
@[simp] theorem State.allocNode_sink (s : State) : (s.allocNode).sink = s.sink := rfl
@[simp] theorem State.allocNode_responses (s : State) : (s.allocNode).responses = s.responses := rfl
@[simp] theorem State.allocNode_received (s : State) : (s.allocNode).received = s.received := rfl
@[simp] theorem State.allocNode_turns (s : State) : (s.allocNode).turns = s.turns := rfl
@[simp] theorem State.allocNode_freeTurns (s : State) : (s.allocNode).freeTurns = s.freeTurns := rfl

/-! ### freqWrite -/

@[simp] theorem State.freqWrite_params (s : State) (x : Sym) (f : Freq) : (s.freqWrite x f).params = s.params := rfl
@[simp] theorem State.freqWrite_mode (s : State) (x : Sym) (f : Freq) : (s.freqWrite x f).mode = s.mode := rfl
@[simp] theorem State.freqWrite_tree (s : State) (x : Sym) (f : Freq) : (s.freqWrite x f).tree = s.tree := rfl
@[simp] theorem State.freqWrite_root (s : State) (x : Sym) (f : Freq) : (s.freqWrite x f).root = s.root := rfl
@[simp] theorem State.freqWrite_nodes (s : State) (x : Sym) (f : Freq) : (s.freqWrite x f).nodes = s.nodes := rfl
@[simp] theorem State.freqWrite_cursor (s : State) (x : Sym) (f : Freq) : (s.freqWrite x f).cursor = s.cursor := rfl
@[simp] theorem State.freqWrite_sentinel (s : State) (x : Sym) (f : Freq) : (s.freqWrite x f).sentinel = s.sentinel := rfl
@[simp] theorem State.freqWrite_loadSym (s : State) (x : Sym) (f : Freq) : (s.freqWrite x f).loadSym = s.loadSym := rfl
@[simp] theorem State.freqWrite_loadDepth (s : State) (x : Sym) (f : Freq) : (s.freqWrite x f).loadDepth = s.loadDepth := rfl
@[simp] theorem State.freqWrite_outSym (s : State) (x : Sym) (f : Freq) : (s.freqWrite x f).outSym = s.outSym := rfl
@[simp] theorem State.freqWrite_emitCount (s : State) (x : Sym) (f : Freq) : (s.freqWrite x f).emitCount = s.emitCount := rfl
@[simp] theorem State.freqWrite_bitCount (s : State) (x : Sym) (f : Freq) : (s.freqWrite x f).bitCount = s.bitCount := rfl
@[simp] theorem State.freqWrite_err (s : State) (x : Sym) (f : Freq) : (s.freqWrite x f).err = s.err := rfl
@[simp] theorem State.freqWrite_endCause (s : State) (x : Sym) (f : Freq) : (s.freqWrite x f).endCause = s.endCause := rfl
@[simp] theorem State.freqWrite_done (s : State) (x : Sym) (f : Freq) : (s.freqWrite x f).done = s.done := rfl
@[simp] theorem State.freqWrite_ctrl (s : State) (x : Sym) (f : Freq) : (s.freqWrite x f).ctrl = s.ctrl := rfl
@[simp] theorem State.freqWrite_freqs (s : State) (x : Sym) (f : Freq) : (s.freqWrite x f).freqs = s.freqs.set x.toNat f := rfl
@[simp] theorem State.freqWrite_queue (s : State) (x : Sym) (f : Freq) : (s.freqWrite x f).queue = s.queue := rfl
@[simp] theorem State.freqWrite_commands (s : State) (x : Sym) (f : Freq) : (s.freqWrite x f).commands = s.commands := rfl
@[simp] theorem State.freqWrite_tokens (s : State) (x : Sym) (f : Freq) : (s.freqWrite x f).tokens = s.tokens := rfl
@[simp] theorem State.freqWrite_sourceTail (s : State) (x : Sym) (f : Freq) : (s.freqWrite x f).sourceTail = s.sourceTail := rfl
@[simp] theorem State.freqWrite_sink (s : State) (x : Sym) (f : Freq) : (s.freqWrite x f).sink = s.sink := rfl
@[simp] theorem State.freqWrite_responses (s : State) (x : Sym) (f : Freq) : (s.freqWrite x f).responses = s.responses := rfl
@[simp] theorem State.freqWrite_received (s : State) (x : Sym) (f : Freq) : (s.freqWrite x f).received = s.received := rfl
@[simp] theorem State.freqWrite_turns (s : State) (x : Sym) (f : Freq) : (s.freqWrite x f).turns = s.turns := rfl
@[simp] theorem State.freqWrite_freeTurns (s : State) (x : Sym) (f : Freq) : (s.freqWrite x f).freeTurns = s.freeTurns := rfl
@[simp] theorem State.freqWrite_nodeCount (s : State) (x : Sym) (f : Freq) : (s.freqWrite x f).nodeCount = s.nodeCount := rfl
@[simp] theorem State.freqWrite_nodeRead (s : State) (x : Sym) (f : Freq) (k : Idx) : (s.freqWrite x f).nodeRead k = s.nodeRead k := rfl

/-! ### resetTable -/

@[simp] theorem State.resetTable_params (s : State) : (s.resetTable).params = s.params := rfl
@[simp] theorem State.resetTable_mode (s : State) : (s.resetTable).mode = s.mode := rfl
@[simp] theorem State.resetTable_tree (s : State) : (s.resetTable).tree = s.tree := rfl
@[simp] theorem State.resetTable_root (s : State) : (s.resetTable).root = 0 := rfl
@[simp] theorem State.resetTable_nodes (s : State) : (s.resetTable).nodes = [Node.zero] := rfl
@[simp] theorem State.resetTable_cursor (s : State) : (s.resetTable).cursor = 0 := rfl
@[simp] theorem State.resetTable_sentinel (s : State) : (s.resetTable).sentinel = s.sentinel := rfl
@[simp] theorem State.resetTable_loadSym (s : State) : (s.resetTable).loadSym = s.loadSym := rfl
@[simp] theorem State.resetTable_loadDepth (s : State) : (s.resetTable).loadDepth = s.loadDepth := rfl
@[simp] theorem State.resetTable_outSym (s : State) : (s.resetTable).outSym = s.outSym := rfl
@[simp] theorem State.resetTable_emitCount (s : State) : (s.resetTable).emitCount = s.emitCount := rfl
@[simp] theorem State.resetTable_bitCount (s : State) : (s.resetTable).bitCount = s.bitCount := rfl
@[simp] theorem State.resetTable_err (s : State) : (s.resetTable).err = s.err := rfl
@[simp] theorem State.resetTable_endCause (s : State) : (s.resetTable).endCause = s.endCause := rfl
@[simp] theorem State.resetTable_done (s : State) : (s.resetTable).done = s.done := rfl
@[simp] theorem State.resetTable_ctrl (s : State) : (s.resetTable).ctrl = s.ctrl := rfl
@[simp] theorem State.resetTable_freqs (s : State) : (s.resetTable).freqs = s.freqs := rfl
@[simp] theorem State.resetTable_queue (s : State) : (s.resetTable).queue = s.queue := rfl
@[simp] theorem State.resetTable_commands (s : State) : (s.resetTable).commands = s.commands := rfl
@[simp] theorem State.resetTable_tokens (s : State) : (s.resetTable).tokens = s.tokens := rfl
@[simp] theorem State.resetTable_sourceTail (s : State) : (s.resetTable).sourceTail = s.sourceTail := rfl
@[simp] theorem State.resetTable_sink (s : State) : (s.resetTable).sink = s.sink := rfl
@[simp] theorem State.resetTable_responses (s : State) : (s.resetTable).responses = s.responses := rfl
@[simp] theorem State.resetTable_received (s : State) : (s.resetTable).received = s.received := rfl
@[simp] theorem State.resetTable_turns (s : State) : (s.resetTable).turns = s.turns := rfl
@[simp] theorem State.resetTable_freeTurns (s : State) : (s.resetTable).freeTurns = s.freeTurns := rfl

/-! ### malformedLoad -/

@[simp] theorem State.malformedLoad_params (s : State) : (s.malformedLoad).params = s.params := rfl
@[simp] theorem State.malformedLoad_mode (s : State) : (s.malformedLoad).mode = .idle := rfl
@[simp] theorem State.malformedLoad_tree (s : State) : (s.malformedLoad).tree = .bad := rfl
@[simp] theorem State.malformedLoad_root (s : State) : (s.malformedLoad).root = s.root := rfl
@[simp] theorem State.malformedLoad_nodes (s : State) : (s.malformedLoad).nodes = s.nodes := rfl
@[simp] theorem State.malformedLoad_cursor (s : State) : (s.malformedLoad).cursor = s.root := rfl
@[simp] theorem State.malformedLoad_sentinel (s : State) : (s.malformedLoad).sentinel = s.sentinel := rfl
@[simp] theorem State.malformedLoad_loadSym (s : State) : (s.malformedLoad).loadSym = s.loadSym := rfl
@[simp] theorem State.malformedLoad_loadDepth (s : State) : (s.malformedLoad).loadDepth = s.loadDepth := rfl
@[simp] theorem State.malformedLoad_outSym (s : State) : (s.malformedLoad).outSym = s.outSym := rfl
@[simp] theorem State.malformedLoad_emitCount (s : State) : (s.malformedLoad).emitCount = s.emitCount := rfl
@[simp] theorem State.malformedLoad_bitCount (s : State) : (s.malformedLoad).bitCount = s.bitCount := rfl
@[simp] theorem State.malformedLoad_err (s : State) : (s.malformedLoad).err = s.err := rfl
@[simp] theorem State.malformedLoad_endCause (s : State) : (s.malformedLoad).endCause = s.endCause := rfl
@[simp] theorem State.malformedLoad_done (s : State) : (s.malformedLoad).done = s.done := rfl
@[simp] theorem State.malformedLoad_ctrl (s : State) : (s.malformedLoad).ctrl = s.ctrl := rfl
@[simp] theorem State.malformedLoad_freqs (s : State) : (s.malformedLoad).freqs = s.freqs := rfl
@[simp] theorem State.malformedLoad_queue (s : State) : (s.malformedLoad).queue = s.queue := rfl
@[simp] theorem State.malformedLoad_commands (s : State) : (s.malformedLoad).commands = s.commands := rfl
@[simp] theorem State.malformedLoad_tokens (s : State) : (s.malformedLoad).tokens = s.tokens := rfl
@[simp] theorem State.malformedLoad_sourceTail (s : State) : (s.malformedLoad).sourceTail = s.sourceTail := rfl
@[simp] theorem State.malformedLoad_sink (s : State) : (s.malformedLoad).sink = s.sink := rfl
@[simp] theorem State.malformedLoad_responses (s : State) : (s.malformedLoad).responses = s.responses := rfl
@[simp] theorem State.malformedLoad_received (s : State) : (s.malformedLoad).received = s.received := rfl
@[simp] theorem State.malformedLoad_turns (s : State) : (s.malformedLoad).turns = s.turns := rfl
@[simp] theorem State.malformedLoad_freeTurns (s : State) : (s.malformedLoad).freeTurns = s.freeTurns := rfl
@[simp] theorem State.malformedLoad_nodeCount (s : State) : (s.malformedLoad).nodeCount = s.nodeCount := rfl
@[simp] theorem State.malformedLoad_nodeRead (s : State) (k : Idx) : (s.malformedLoad).nodeRead k = s.nodeRead k := rfl

/-! ### failLoad -/

@[simp] theorem State.failLoad_params (s : State) (e : ErrCode) : (s.failLoad e).params = s.params := rfl
@[simp] theorem State.failLoad_mode (s : State) (e : ErrCode) : (s.failLoad e).mode = .idle := rfl
@[simp] theorem State.failLoad_tree (s : State) (e : ErrCode) : (s.failLoad e).tree = .bad := rfl
@[simp] theorem State.failLoad_root (s : State) (e : ErrCode) : (s.failLoad e).root = s.root := rfl
@[simp] theorem State.failLoad_nodes (s : State) (e : ErrCode) : (s.failLoad e).nodes = s.nodes := rfl
@[simp] theorem State.failLoad_cursor (s : State) (e : ErrCode) : (s.failLoad e).cursor = s.root := rfl
@[simp] theorem State.failLoad_sentinel (s : State) (e : ErrCode) : (s.failLoad e).sentinel = s.sentinel := rfl
@[simp] theorem State.failLoad_loadSym (s : State) (e : ErrCode) : (s.failLoad e).loadSym = s.loadSym := rfl
@[simp] theorem State.failLoad_loadDepth (s : State) (e : ErrCode) : (s.failLoad e).loadDepth = s.loadDepth := rfl
@[simp] theorem State.failLoad_outSym (s : State) (e : ErrCode) : (s.failLoad e).outSym = s.outSym := rfl
@[simp] theorem State.failLoad_emitCount (s : State) (e : ErrCode) : (s.failLoad e).emitCount = s.emitCount := rfl
@[simp] theorem State.failLoad_bitCount (s : State) (e : ErrCode) : (s.failLoad e).bitCount = s.bitCount := rfl
@[simp] theorem State.failLoad_err (s : State) (e : ErrCode) : (s.failLoad e).err = if s.err = .none then e else s.err := rfl
@[simp] theorem State.failLoad_endCause (s : State) (e : ErrCode) : (s.failLoad e).endCause = s.endCause := rfl
@[simp] theorem State.failLoad_done (s : State) (e : ErrCode) : (s.failLoad e).done = s.done := rfl
@[simp] theorem State.failLoad_ctrl (s : State) (e : ErrCode) : (s.failLoad e).ctrl = s.ctrl := rfl
@[simp] theorem State.failLoad_freqs (s : State) (e : ErrCode) : (s.failLoad e).freqs = s.freqs := rfl
@[simp] theorem State.failLoad_queue (s : State) (e : ErrCode) : (s.failLoad e).queue = s.queue := rfl
@[simp] theorem State.failLoad_commands (s : State) (e : ErrCode) : (s.failLoad e).commands = s.commands := rfl
@[simp] theorem State.failLoad_tokens (s : State) (e : ErrCode) : (s.failLoad e).tokens = s.tokens := rfl
@[simp] theorem State.failLoad_sourceTail (s : State) (e : ErrCode) : (s.failLoad e).sourceTail = s.sourceTail := rfl
@[simp] theorem State.failLoad_sink (s : State) (e : ErrCode) : (s.failLoad e).sink = s.sink := rfl
@[simp] theorem State.failLoad_responses (s : State) (e : ErrCode) : (s.failLoad e).responses = s.responses := rfl
@[simp] theorem State.failLoad_received (s : State) (e : ErrCode) : (s.failLoad e).received = s.received := rfl
@[simp] theorem State.failLoad_turns (s : State) (e : ErrCode) : (s.failLoad e).turns = s.turns := rfl
@[simp] theorem State.failLoad_freeTurns (s : State) (e : ErrCode) : (s.failLoad e).freeTurns = s.freeTurns := rfl
@[simp] theorem State.failLoad_nodeCount (s : State) (e : ErrCode) : (s.failLoad e).nodeCount = s.nodeCount := rfl
@[simp] theorem State.failLoad_nodeRead (s : State) (e : ErrCode) (k : Idx) : (s.failLoad e).nodeRead k = s.nodeRead k := rfl

/-! ### finishDecode -/

@[simp] theorem State.finishDecode_params (s : State) (c : EndCause) : (s.finishDecode c).params = s.params := rfl
@[simp] theorem State.finishDecode_mode (s : State) (c : EndCause) : (s.finishDecode c).mode = .idle := rfl
@[simp] theorem State.finishDecode_tree (s : State) (c : EndCause) : (s.finishDecode c).tree = s.tree := rfl
@[simp] theorem State.finishDecode_root (s : State) (c : EndCause) : (s.finishDecode c).root = s.root := rfl
@[simp] theorem State.finishDecode_nodes (s : State) (c : EndCause) : (s.finishDecode c).nodes = s.nodes := rfl
@[simp] theorem State.finishDecode_cursor (s : State) (c : EndCause) : (s.finishDecode c).cursor = s.cursor := rfl
@[simp] theorem State.finishDecode_sentinel (s : State) (c : EndCause) : (s.finishDecode c).sentinel = s.sentinel := rfl
@[simp] theorem State.finishDecode_loadSym (s : State) (c : EndCause) : (s.finishDecode c).loadSym = s.loadSym := rfl
@[simp] theorem State.finishDecode_loadDepth (s : State) (c : EndCause) : (s.finishDecode c).loadDepth = s.loadDepth := rfl
@[simp] theorem State.finishDecode_outSym (s : State) (c : EndCause) : (s.finishDecode c).outSym = s.outSym := rfl
@[simp] theorem State.finishDecode_emitCount (s : State) (c : EndCause) : (s.finishDecode c).emitCount = s.emitCount := rfl
@[simp] theorem State.finishDecode_bitCount (s : State) (c : EndCause) : (s.finishDecode c).bitCount = s.bitCount := rfl
@[simp] theorem State.finishDecode_err (s : State) (c : EndCause) : (s.finishDecode c).err = s.err := rfl
@[simp] theorem State.finishDecode_endCause (s : State) (c : EndCause) : (s.finishDecode c).endCause = c := rfl
@[simp] theorem State.finishDecode_done (s : State) (c : EndCause) : (s.finishDecode c).done = true := rfl
@[simp] theorem State.finishDecode_ctrl (s : State) (c : EndCause) : (s.finishDecode c).ctrl = s.ctrl := rfl
@[simp] theorem State.finishDecode_freqs (s : State) (c : EndCause) : (s.finishDecode c).freqs = s.freqs := rfl
@[simp] theorem State.finishDecode_queue (s : State) (c : EndCause) : (s.finishDecode c).queue = s.queue := rfl
@[simp] theorem State.finishDecode_commands (s : State) (c : EndCause) : (s.finishDecode c).commands = s.commands := rfl
@[simp] theorem State.finishDecode_tokens (s : State) (c : EndCause) : (s.finishDecode c).tokens = s.tokens := rfl
@[simp] theorem State.finishDecode_sourceTail (s : State) (c : EndCause) : (s.finishDecode c).sourceTail = s.sourceTail := rfl
@[simp] theorem State.finishDecode_sink (s : State) (c : EndCause) : (s.finishDecode c).sink = s.sink := rfl
@[simp] theorem State.finishDecode_responses (s : State) (c : EndCause) : (s.finishDecode c).responses = s.responses := rfl
@[simp] theorem State.finishDecode_received (s : State) (c : EndCause) : (s.finishDecode c).received = s.received := rfl
@[simp] theorem State.finishDecode_turns (s : State) (c : EndCause) : (s.finishDecode c).turns = s.turns := rfl
@[simp] theorem State.finishDecode_freeTurns (s : State) (c : EndCause) : (s.finishDecode c).freeTurns = s.freeTurns := rfl
@[simp] theorem State.finishDecode_nodeCount (s : State) (c : EndCause) : (s.finishDecode c).nodeCount = s.nodeCount := rfl
@[simp] theorem State.finishDecode_nodeRead (s : State) (c : EndCause) (k : Idx) : (s.finishDecode c).nodeRead k = s.nodeRead k := rfl

/-! ### acknowledge -/

@[simp] theorem State.acknowledge_params (s : State) (m : BitVec 2) : (s.acknowledge m).params = s.params := rfl
@[simp] theorem State.acknowledge_mode (s : State) (m : BitVec 2) : (s.acknowledge m).mode = s.mode := rfl
@[simp] theorem State.acknowledge_tree (s : State) (m : BitVec 2) : (s.acknowledge m).tree = s.tree := rfl
@[simp] theorem State.acknowledge_root (s : State) (m : BitVec 2) : (s.acknowledge m).root = s.root := rfl
@[simp] theorem State.acknowledge_nodes (s : State) (m : BitVec 2) : (s.acknowledge m).nodes = s.nodes := rfl
@[simp] theorem State.acknowledge_cursor (s : State) (m : BitVec 2) : (s.acknowledge m).cursor = s.cursor := rfl
@[simp] theorem State.acknowledge_sentinel (s : State) (m : BitVec 2) : (s.acknowledge m).sentinel = s.sentinel := rfl
@[simp] theorem State.acknowledge_loadSym (s : State) (m : BitVec 2) : (s.acknowledge m).loadSym = s.loadSym := rfl
@[simp] theorem State.acknowledge_loadDepth (s : State) (m : BitVec 2) : (s.acknowledge m).loadDepth = s.loadDepth := rfl
@[simp] theorem State.acknowledge_outSym (s : State) (m : BitVec 2) : (s.acknowledge m).outSym = s.outSym := rfl
@[simp] theorem State.acknowledge_emitCount (s : State) (m : BitVec 2) : (s.acknowledge m).emitCount = s.emitCount := rfl
@[simp] theorem State.acknowledge_bitCount (s : State) (m : BitVec 2) : (s.acknowledge m).bitCount = s.bitCount := rfl
@[simp] theorem State.acknowledge_err (s : State) (m : BitVec 2) : (s.acknowledge m).err = if m.getLsbD 0 then .none else s.err := rfl
@[simp] theorem State.acknowledge_endCause (s : State) (m : BitVec 2) : (s.acknowledge m).endCause = s.endCause := rfl
@[simp] theorem State.acknowledge_done (s : State) (m : BitVec 2) : (s.acknowledge m).done = if m.getLsbD 1 then false else s.done := rfl
@[simp] theorem State.acknowledge_ctrl (s : State) (m : BitVec 2) : (s.acknowledge m).ctrl = s.ctrl := rfl
@[simp] theorem State.acknowledge_freqs (s : State) (m : BitVec 2) : (s.acknowledge m).freqs = s.freqs := rfl
@[simp] theorem State.acknowledge_queue (s : State) (m : BitVec 2) : (s.acknowledge m).queue = s.queue := rfl
@[simp] theorem State.acknowledge_commands (s : State) (m : BitVec 2) : (s.acknowledge m).commands = s.commands := rfl
@[simp] theorem State.acknowledge_tokens (s : State) (m : BitVec 2) : (s.acknowledge m).tokens = s.tokens := rfl
@[simp] theorem State.acknowledge_sourceTail (s : State) (m : BitVec 2) : (s.acknowledge m).sourceTail = s.sourceTail := rfl
@[simp] theorem State.acknowledge_sink (s : State) (m : BitVec 2) : (s.acknowledge m).sink = s.sink := rfl
@[simp] theorem State.acknowledge_responses (s : State) (m : BitVec 2) : (s.acknowledge m).responses = s.responses := rfl
@[simp] theorem State.acknowledge_received (s : State) (m : BitVec 2) : (s.acknowledge m).received = s.received := rfl
@[simp] theorem State.acknowledge_turns (s : State) (m : BitVec 2) : (s.acknowledge m).turns = s.turns := rfl
@[simp] theorem State.acknowledge_freeTurns (s : State) (m : BitVec 2) : (s.acknowledge m).freeTurns = s.freeTurns := rfl
@[simp] theorem State.acknowledge_nodeCount (s : State) (m : BitVec 2) : (s.acknowledge m).nodeCount = s.nodeCount := rfl
@[simp] theorem State.acknowledge_nodeRead (s : State) (m : BitVec 2) (k : Idx) : (s.acknowledge m).nodeRead k = s.nodeRead k := rfl

/-! ### cleared -/

@[simp] theorem State.cleared_params (s : State) : (s.cleared).params = s.params := rfl
@[simp] theorem State.cleared_mode (s : State) : (s.cleared).mode = .idle := rfl
@[simp] theorem State.cleared_tree (s : State) : (s.cleared).tree = .empty := rfl
@[simp] theorem State.cleared_root (s : State) : (s.cleared).root = 0 := rfl
@[simp] theorem State.cleared_nodes (s : State) : (s.cleared).nodes = [Node.zero] := rfl
@[simp] theorem State.cleared_cursor (s : State) : (s.cleared).cursor = 0 := rfl
@[simp] theorem State.cleared_sentinel (s : State) : (s.cleared).sentinel = s.sentinel := rfl
@[simp] theorem State.cleared_loadSym (s : State) : (s.cleared).loadSym = 0 := rfl
@[simp] theorem State.cleared_loadDepth (s : State) : (s.cleared).loadDepth = 0 := rfl
@[simp] theorem State.cleared_outSym (s : State) : (s.cleared).outSym = s.outSym := rfl
@[simp] theorem State.cleared_emitCount (s : State) : (s.cleared).emitCount = 0 := rfl
@[simp] theorem State.cleared_bitCount (s : State) : (s.cleared).bitCount = 0 := rfl
@[simp] theorem State.cleared_err (s : State) : (s.cleared).err = .none := rfl
@[simp] theorem State.cleared_endCause (s : State) : (s.cleared).endCause = .none := rfl
@[simp] theorem State.cleared_done (s : State) : (s.cleared).done = false := rfl
@[simp] theorem State.cleared_ctrl (s : State) : (s.cleared).ctrl = s.ctrl := rfl
@[simp] theorem State.cleared_freqs (s : State) : (s.cleared).freqs = s.freqs := rfl
@[simp] theorem State.cleared_queue (s : State) : (s.cleared).queue = s.queue := rfl
@[simp] theorem State.cleared_commands (s : State) : (s.cleared).commands = s.commands := rfl
@[simp] theorem State.cleared_tokens (s : State) : (s.cleared).tokens = s.tokens := rfl
@[simp] theorem State.cleared_sourceTail (s : State) : (s.cleared).sourceTail = s.sourceTail := rfl
@[simp] theorem State.cleared_sink (s : State) : (s.cleared).sink = s.sink := rfl
@[simp] theorem State.cleared_responses (s : State) : (s.cleared).responses = s.responses := rfl
@[simp] theorem State.cleared_received (s : State) : (s.cleared).received = s.received := rfl
@[simp] theorem State.cleared_turns (s : State) : (s.cleared).turns = s.turns := rfl
@[simp] theorem State.cleared_freeTurns (s : State) : (s.cleared).freeTurns = s.freeTurns := rfl

/-! ### createChild -/

@[simp] theorem State.createChild_params (s : State) (b : Bool) : (s.createChild b).params = s.params := rfl
@[simp] theorem State.createChild_mode (s : State) (b : Bool) : (s.createChild b).mode = s.mode := rfl
@[simp] theorem State.createChild_tree (s : State) (b : Bool) : (s.createChild b).tree = s.tree := rfl
@[simp] theorem State.createChild_root (s : State) (b : Bool) : (s.createChild b).root = s.root := rfl
@[simp] theorem State.createChild_nodes (s : State) (b : Bool) : (s.createChild b).nodes = (s.nodes ++ [Node.zero]).set s.cursor.toNat ((s.nodeRead s.cursor).withChild b s.nodeCount) := rfl
@[simp] theorem State.createChild_cursor (s : State) (b : Bool) : (s.createChild b).cursor = s.cursor := rfl
@[simp] theorem State.createChild_sentinel (s : State) (b : Bool) : (s.createChild b).sentinel = s.sentinel := rfl
@[simp] theorem State.createChild_loadSym (s : State) (b : Bool) : (s.createChild b).loadSym = s.loadSym := rfl
@[simp] theorem State.createChild_loadDepth (s : State) (b : Bool) : (s.createChild b).loadDepth = s.loadDepth := rfl
@[simp] theorem State.createChild_outSym (s : State) (b : Bool) : (s.createChild b).outSym = s.outSym := rfl
@[simp] theorem State.createChild_emitCount (s : State) (b : Bool) : (s.createChild b).emitCount = s.emitCount := rfl
@[simp] theorem State.createChild_bitCount (s : State) (b : Bool) : (s.createChild b).bitCount = s.bitCount := rfl
@[simp] theorem State.createChild_err (s : State) (b : Bool) : (s.createChild b).err = s.err := rfl
@[simp] theorem State.createChild_endCause (s : State) (b : Bool) : (s.createChild b).endCause = s.endCause := rfl
@[simp] theorem State.createChild_done (s : State) (b : Bool) : (s.createChild b).done = s.done := rfl
@[simp] theorem State.createChild_ctrl (s : State) (b : Bool) : (s.createChild b).ctrl = s.ctrl := rfl
@[simp] theorem State.createChild_freqs (s : State) (b : Bool) : (s.createChild b).freqs = s.freqs := rfl
@[simp] theorem State.createChild_queue (s : State) (b : Bool) : (s.createChild b).queue = s.queue := rfl
@[simp] theorem State.createChild_commands (s : State) (b : Bool) : (s.createChild b).commands = s.commands := rfl
@[simp] theorem State.createChild_tokens (s : State) (b : Bool) : (s.createChild b).tokens = s.tokens := rfl
@[simp] theorem State.createChild_sourceTail (s : State) (b : Bool) : (s.createChild b).sourceTail = s.sourceTail := rfl
@[simp] theorem State.createChild_sink (s : State) (b : Bool) : (s.createChild b).sink = s.sink := rfl
@[simp] theorem State.createChild_responses (s : State) (b : Bool) : (s.createChild b).responses = s.responses := rfl
@[simp] theorem State.createChild_received (s : State) (b : Bool) : (s.createChild b).received = s.received := rfl
@[simp] theorem State.createChild_turns (s : State) (b : Bool) : (s.createChild b).turns = s.turns := rfl
@[simp] theorem State.createChild_freeTurns (s : State) (b : Bool) : (s.createChild b).freeTurns = s.freeTurns := rfl

/-! ### closeRecord -/

@[simp] theorem State.closeRecord_params (s : State) : (s.closeRecord).params = s.params := rfl
@[simp] theorem State.closeRecord_mode (s : State) : (s.closeRecord).mode = .idle := rfl
@[simp] theorem State.closeRecord_tree (s : State) : (s.closeRecord).tree = .loaded := rfl
@[simp] theorem State.closeRecord_root (s : State) : (s.closeRecord).root = s.root := rfl
@[simp] theorem State.closeRecord_nodes (s : State) : (s.closeRecord).nodes = s.nodes.set s.cursor.toNat { s.nodeRead s.cursor with sym := some s.loadSym } := rfl
@[simp] theorem State.closeRecord_cursor (s : State) : (s.closeRecord).cursor = s.root := rfl
@[simp] theorem State.closeRecord_sentinel (s : State) : (s.closeRecord).sentinel = s.sentinel := rfl
@[simp] theorem State.closeRecord_loadSym (s : State) : (s.closeRecord).loadSym = s.loadSym := rfl
@[simp] theorem State.closeRecord_loadDepth (s : State) : (s.closeRecord).loadDepth = s.loadDepth := rfl
@[simp] theorem State.closeRecord_outSym (s : State) : (s.closeRecord).outSym = s.outSym := rfl
@[simp] theorem State.closeRecord_emitCount (s : State) : (s.closeRecord).emitCount = s.emitCount := rfl
@[simp] theorem State.closeRecord_bitCount (s : State) : (s.closeRecord).bitCount = s.bitCount := rfl
@[simp] theorem State.closeRecord_err (s : State) : (s.closeRecord).err = s.err := rfl
@[simp] theorem State.closeRecord_endCause (s : State) : (s.closeRecord).endCause = s.endCause := rfl
@[simp] theorem State.closeRecord_done (s : State) : (s.closeRecord).done = s.done := rfl
@[simp] theorem State.closeRecord_ctrl (s : State) : (s.closeRecord).ctrl = s.ctrl := rfl
@[simp] theorem State.closeRecord_freqs (s : State) : (s.closeRecord).freqs = s.freqs := rfl
@[simp] theorem State.closeRecord_queue (s : State) : (s.closeRecord).queue = s.queue := rfl
@[simp] theorem State.closeRecord_commands (s : State) : (s.closeRecord).commands = s.commands := rfl
@[simp] theorem State.closeRecord_tokens (s : State) : (s.closeRecord).tokens = s.tokens := rfl
@[simp] theorem State.closeRecord_sourceTail (s : State) : (s.closeRecord).sourceTail = s.sourceTail := rfl
@[simp] theorem State.closeRecord_sink (s : State) : (s.closeRecord).sink = s.sink := rfl
@[simp] theorem State.closeRecord_responses (s : State) : (s.closeRecord).responses = s.responses := rfl
@[simp] theorem State.closeRecord_received (s : State) : (s.closeRecord).received = s.received := rfl
@[simp] theorem State.closeRecord_turns (s : State) : (s.closeRecord).turns = s.turns := rfl
@[simp] theorem State.closeRecord_freeTurns (s : State) : (s.closeRecord).freeTurns = s.freeTurns := rfl

/-! ### startDecode -/

@[simp] theorem State.startDecode_params (s : State) : (s.startDecode).params = s.params := rfl
@[simp] theorem State.startDecode_mode (s : State) : (s.startDecode).mode = s.mode := rfl
@[simp] theorem State.startDecode_tree (s : State) : (s.startDecode).tree = s.tree := rfl
@[simp] theorem State.startDecode_root (s : State) : (s.startDecode).root = s.root := rfl
@[simp] theorem State.startDecode_nodes (s : State) : (s.startDecode).nodes = s.nodes := rfl
@[simp] theorem State.startDecode_cursor (s : State) : (s.startDecode).cursor = s.root := rfl
@[simp] theorem State.startDecode_sentinel (s : State) : (s.startDecode).sentinel = s.sentinel := rfl
@[simp] theorem State.startDecode_loadSym (s : State) : (s.startDecode).loadSym = s.loadSym := rfl
@[simp] theorem State.startDecode_loadDepth (s : State) : (s.startDecode).loadDepth = s.loadDepth := rfl
@[simp] theorem State.startDecode_outSym (s : State) : (s.startDecode).outSym = s.outSym := rfl
@[simp] theorem State.startDecode_emitCount (s : State) : (s.startDecode).emitCount = 0 := rfl
@[simp] theorem State.startDecode_bitCount (s : State) : (s.startDecode).bitCount = 0 := rfl
@[simp] theorem State.startDecode_err (s : State) : (s.startDecode).err = s.err := rfl
@[simp] theorem State.startDecode_endCause (s : State) : (s.startDecode).endCause = .none := rfl
@[simp] theorem State.startDecode_done (s : State) : (s.startDecode).done = false := rfl
@[simp] theorem State.startDecode_ctrl (s : State) : (s.startDecode).ctrl = s.ctrl := rfl
@[simp] theorem State.startDecode_freqs (s : State) : (s.startDecode).freqs = s.freqs := rfl
@[simp] theorem State.startDecode_queue (s : State) : (s.startDecode).queue = s.queue := rfl
@[simp] theorem State.startDecode_commands (s : State) : (s.startDecode).commands = s.commands := rfl
@[simp] theorem State.startDecode_tokens (s : State) : (s.startDecode).tokens = s.tokens := rfl
@[simp] theorem State.startDecode_sourceTail (s : State) : (s.startDecode).sourceTail = s.sourceTail := rfl
@[simp] theorem State.startDecode_sink (s : State) : (s.startDecode).sink = s.sink := rfl
@[simp] theorem State.startDecode_responses (s : State) : (s.startDecode).responses = s.responses := rfl
@[simp] theorem State.startDecode_received (s : State) : (s.startDecode).received = s.received := rfl
@[simp] theorem State.startDecode_turns (s : State) : (s.startDecode).turns = s.turns := rfl
@[simp] theorem State.startDecode_freeTurns (s : State) : (s.startDecode).freeTurns = s.freeTurns := rfl
@[simp] theorem State.startDecode_nodeCount (s : State) : (s.startDecode).nodeCount = s.nodeCount := rfl
@[simp] theorem State.startDecode_nodeRead (s : State) (k : Idx) : (s.startDecode).nodeRead k = s.nodeRead k := rfl

/-! ### buildOverflow -/

@[simp] theorem State.buildOverflow_params (s : State) : (s.buildOverflow).params = s.params := rfl
@[simp] theorem State.buildOverflow_mode (s : State) : (s.buildOverflow).mode = s.mode := rfl
@[simp] theorem State.buildOverflow_tree (s : State) : (s.buildOverflow).tree = .bad := rfl
@[simp] theorem State.buildOverflow_root (s : State) : (s.buildOverflow).root = 0 := rfl
@[simp] theorem State.buildOverflow_nodes (s : State) : (s.buildOverflow).nodes = [Node.zero] := rfl
@[simp] theorem State.buildOverflow_cursor (s : State) : (s.buildOverflow).cursor = 0 := rfl
@[simp] theorem State.buildOverflow_sentinel (s : State) : (s.buildOverflow).sentinel = s.sentinel := rfl
@[simp] theorem State.buildOverflow_loadSym (s : State) : (s.buildOverflow).loadSym = s.loadSym := rfl
@[simp] theorem State.buildOverflow_loadDepth (s : State) : (s.buildOverflow).loadDepth = s.loadDepth := rfl
@[simp] theorem State.buildOverflow_outSym (s : State) : (s.buildOverflow).outSym = s.outSym := rfl
@[simp] theorem State.buildOverflow_emitCount (s : State) : (s.buildOverflow).emitCount = s.emitCount := rfl
@[simp] theorem State.buildOverflow_bitCount (s : State) : (s.buildOverflow).bitCount = s.bitCount := rfl
@[simp] theorem State.buildOverflow_err (s : State) : (s.buildOverflow).err = if s.err = .none then .freqOverflow else s.err := rfl
@[simp] theorem State.buildOverflow_endCause (s : State) : (s.buildOverflow).endCause = s.endCause := rfl
@[simp] theorem State.buildOverflow_done (s : State) : (s.buildOverflow).done = true := rfl
@[simp] theorem State.buildOverflow_ctrl (s : State) : (s.buildOverflow).ctrl = s.ctrl := rfl
@[simp] theorem State.buildOverflow_freqs (s : State) : (s.buildOverflow).freqs = s.freqs := rfl
@[simp] theorem State.buildOverflow_queue (s : State) : (s.buildOverflow).queue = s.queue := rfl
@[simp] theorem State.buildOverflow_commands (s : State) : (s.buildOverflow).commands = s.commands := rfl
@[simp] theorem State.buildOverflow_tokens (s : State) : (s.buildOverflow).tokens = s.tokens := rfl
@[simp] theorem State.buildOverflow_sourceTail (s : State) : (s.buildOverflow).sourceTail = s.sourceTail := rfl
@[simp] theorem State.buildOverflow_sink (s : State) : (s.buildOverflow).sink = s.sink := rfl
@[simp] theorem State.buildOverflow_responses (s : State) : (s.buildOverflow).responses = s.responses := rfl
@[simp] theorem State.buildOverflow_received (s : State) : (s.buildOverflow).received = s.received := rfl
@[simp] theorem State.buildOverflow_turns (s : State) : (s.buildOverflow).turns = s.turns := rfl
@[simp] theorem State.buildOverflow_freeTurns (s : State) : (s.buildOverflow).freeTurns = s.freeTurns := rfl

/-! ### buildDone -/

@[simp] theorem State.buildDone_params (s : State) (ns : List Node) (r : Idx) (q : List Idx) : (s.buildDone ns r q).params = s.params := rfl
@[simp] theorem State.buildDone_mode (s : State) (ns : List Node) (r : Idx) (q : List Idx) : (s.buildDone ns r q).mode = s.mode := rfl
@[simp] theorem State.buildDone_tree (s : State) (ns : List Node) (r : Idx) (q : List Idx) : (s.buildDone ns r q).tree = .built := rfl
@[simp] theorem State.buildDone_root (s : State) (ns : List Node) (r : Idx) (q : List Idx) : (s.buildDone ns r q).root = r := rfl
@[simp] theorem State.buildDone_nodes (s : State) (ns : List Node) (r : Idx) (q : List Idx) : (s.buildDone ns r q).nodes = ns := rfl
@[simp] theorem State.buildDone_cursor (s : State) (ns : List Node) (r : Idx) (q : List Idx) : (s.buildDone ns r q).cursor = r := rfl
@[simp] theorem State.buildDone_sentinel (s : State) (ns : List Node) (r : Idx) (q : List Idx) : (s.buildDone ns r q).sentinel = s.params.builderSentinel := rfl
@[simp] theorem State.buildDone_loadSym (s : State) (ns : List Node) (r : Idx) (q : List Idx) : (s.buildDone ns r q).loadSym = s.loadSym := rfl
@[simp] theorem State.buildDone_loadDepth (s : State) (ns : List Node) (r : Idx) (q : List Idx) : (s.buildDone ns r q).loadDepth = s.loadDepth := rfl
@[simp] theorem State.buildDone_outSym (s : State) (ns : List Node) (r : Idx) (q : List Idx) : (s.buildDone ns r q).outSym = s.outSym := rfl
@[simp] theorem State.buildDone_emitCount (s : State) (ns : List Node) (r : Idx) (q : List Idx) : (s.buildDone ns r q).emitCount = s.emitCount := rfl
@[simp] theorem State.buildDone_bitCount (s : State) (ns : List Node) (r : Idx) (q : List Idx) : (s.buildDone ns r q).bitCount = s.bitCount := rfl
@[simp] theorem State.buildDone_err (s : State) (ns : List Node) (r : Idx) (q : List Idx) : (s.buildDone ns r q).err = s.err := rfl
@[simp] theorem State.buildDone_endCause (s : State) (ns : List Node) (r : Idx) (q : List Idx) : (s.buildDone ns r q).endCause = s.endCause := rfl
@[simp] theorem State.buildDone_done (s : State) (ns : List Node) (r : Idx) (q : List Idx) : (s.buildDone ns r q).done = true := rfl
@[simp] theorem State.buildDone_ctrl (s : State) (ns : List Node) (r : Idx) (q : List Idx) : (s.buildDone ns r q).ctrl = s.ctrl := rfl
@[simp] theorem State.buildDone_freqs (s : State) (ns : List Node) (r : Idx) (q : List Idx) : (s.buildDone ns r q).freqs = s.freqs := rfl
@[simp] theorem State.buildDone_queue (s : State) (ns : List Node) (r : Idx) (q : List Idx) : (s.buildDone ns r q).queue = q := rfl
@[simp] theorem State.buildDone_commands (s : State) (ns : List Node) (r : Idx) (q : List Idx) : (s.buildDone ns r q).commands = s.commands := rfl
@[simp] theorem State.buildDone_tokens (s : State) (ns : List Node) (r : Idx) (q : List Idx) : (s.buildDone ns r q).tokens = s.tokens := rfl
@[simp] theorem State.buildDone_sourceTail (s : State) (ns : List Node) (r : Idx) (q : List Idx) : (s.buildDone ns r q).sourceTail = s.sourceTail := rfl
@[simp] theorem State.buildDone_sink (s : State) (ns : List Node) (r : Idx) (q : List Idx) : (s.buildDone ns r q).sink = s.sink := rfl
@[simp] theorem State.buildDone_responses (s : State) (ns : List Node) (r : Idx) (q : List Idx) : (s.buildDone ns r q).responses = s.responses := rfl
@[simp] theorem State.buildDone_received (s : State) (ns : List Node) (r : Idx) (q : List Idx) : (s.buildDone ns r q).received = s.received := rfl
@[simp] theorem State.buildDone_turns (s : State) (ns : List Node) (r : Idx) (q : List Idx) : (s.buildDone ns r q).turns = s.turns := rfl
@[simp] theorem State.buildDone_freeTurns (s : State) (ns : List Node) (r : Idx) (q : List Idx) : (s.buildDone ns r q).freeTurns = s.freeTurns := rfl

/-! ### resetBlock -/

@[simp] theorem State.resetBlock_params (s : State) : (s.resetBlock).params = s.params := rfl
@[simp] theorem State.resetBlock_mode (s : State) : (s.resetBlock).mode = .idle := rfl
@[simp] theorem State.resetBlock_tree (s : State) : (s.resetBlock).tree = .empty := rfl
@[simp] theorem State.resetBlock_root (s : State) : (s.resetBlock).root = 0 := rfl
@[simp] theorem State.resetBlock_nodes (s : State) : (s.resetBlock).nodes = [Node.zero] := rfl
@[simp] theorem State.resetBlock_cursor (s : State) : (s.resetBlock).cursor = 0 := rfl
@[simp] theorem State.resetBlock_sentinel (s : State) : (s.resetBlock).sentinel = s.params.builderSentinel := rfl
@[simp] theorem State.resetBlock_loadSym (s : State) : (s.resetBlock).loadSym = 0 := rfl
@[simp] theorem State.resetBlock_loadDepth (s : State) : (s.resetBlock).loadDepth = 0 := rfl
@[simp] theorem State.resetBlock_outSym (s : State) : (s.resetBlock).outSym = 0 := rfl
@[simp] theorem State.resetBlock_emitCount (s : State) : (s.resetBlock).emitCount = 0 := rfl
@[simp] theorem State.resetBlock_bitCount (s : State) : (s.resetBlock).bitCount = 0 := rfl
@[simp] theorem State.resetBlock_err (s : State) : (s.resetBlock).err = .none := rfl
@[simp] theorem State.resetBlock_endCause (s : State) : (s.resetBlock).endCause = .none := rfl
@[simp] theorem State.resetBlock_done (s : State) : (s.resetBlock).done = false := rfl
@[simp] theorem State.resetBlock_ctrl (s : State) : (s.resetBlock).ctrl = 0 := rfl
@[simp] theorem State.resetBlock_freqs (s : State) : (s.resetBlock).freqs = if s.params.hasBuilder then List.replicate s.params.nSym 0 else [] := rfl
@[simp] theorem State.resetBlock_queue (s : State) : (s.resetBlock).queue = [] := rfl
@[simp] theorem State.resetBlock_commands (s : State) : (s.resetBlock).commands = s.commands := rfl
@[simp] theorem State.resetBlock_tokens (s : State) : (s.resetBlock).tokens = s.tokens := rfl
@[simp] theorem State.resetBlock_sourceTail (s : State) : (s.resetBlock).sourceTail = s.sourceTail := rfl
@[simp] theorem State.resetBlock_sink (s : State) : (s.resetBlock).sink = s.sink := rfl
@[simp] theorem State.resetBlock_responses (s : State) : (s.resetBlock).responses = s.responses := rfl
@[simp] theorem State.resetBlock_received (s : State) : (s.resetBlock).received = s.received := rfl
@[simp] theorem State.resetBlock_turns (s : State) : (s.resetBlock).turns = s.turns := rfl
@[simp] theorem State.resetBlock_freeTurns (s : State) : (s.resetBlock).freeTurns = s.freeTurns := rfl

/-! ### withFetchWord -/

@[simp] theorem State.withFetchWord_params (s : State) (nbits w : Nat) : (s.withFetchWord nbits w).params = s.params := rfl
@[simp] theorem State.withFetchWord_mode (s : State) (nbits w : Nat) : (s.withFetchWord nbits w).mode = s.mode := rfl
@[simp] theorem State.withFetchWord_tree (s : State) (nbits w : Nat) : (s.withFetchWord nbits w).tree = s.tree := rfl
@[simp] theorem State.withFetchWord_root (s : State) (nbits w : Nat) : (s.withFetchWord nbits w).root = s.root := rfl
@[simp] theorem State.withFetchWord_nodes (s : State) (nbits w : Nat) : (s.withFetchWord nbits w).nodes = s.nodes := rfl
@[simp] theorem State.withFetchWord_cursor (s : State) (nbits w : Nat) : (s.withFetchWord nbits w).cursor = s.cursor := rfl
@[simp] theorem State.withFetchWord_sentinel (s : State) (nbits w : Nat) : (s.withFetchWord nbits w).sentinel = s.sentinel := rfl
@[simp] theorem State.withFetchWord_loadSym (s : State) (nbits w : Nat) : (s.withFetchWord nbits w).loadSym = s.loadSym := rfl
@[simp] theorem State.withFetchWord_loadDepth (s : State) (nbits w : Nat) : (s.withFetchWord nbits w).loadDepth = s.loadDepth := rfl
@[simp] theorem State.withFetchWord_outSym (s : State) (nbits w : Nat) : (s.withFetchWord nbits w).outSym = s.outSym := rfl
@[simp] theorem State.withFetchWord_emitCount (s : State) (nbits w : Nat) : (s.withFetchWord nbits w).emitCount = s.emitCount := rfl
@[simp] theorem State.withFetchWord_bitCount (s : State) (nbits w : Nat) : (s.withFetchWord nbits w).bitCount = s.bitCount := rfl
@[simp] theorem State.withFetchWord_err (s : State) (nbits w : Nat) : (s.withFetchWord nbits w).err = s.err := rfl
@[simp] theorem State.withFetchWord_endCause (s : State) (nbits w : Nat) : (s.withFetchWord nbits w).endCause = s.endCause := rfl
@[simp] theorem State.withFetchWord_done (s : State) (nbits w : Nat) : (s.withFetchWord nbits w).done = s.done := rfl
@[simp] theorem State.withFetchWord_ctrl (s : State) (nbits w : Nat) : (s.withFetchWord nbits w).ctrl = s.ctrl := rfl
@[simp] theorem State.withFetchWord_freqs (s : State) (nbits w : Nat) : (s.withFetchWord nbits w).freqs = s.freqs := rfl
@[simp] theorem State.withFetchWord_queue (s : State) (nbits w : Nat) : (s.withFetchWord nbits w).queue = s.queue := rfl
@[simp] theorem State.withFetchWord_commands (s : State) (nbits w : Nat) : (s.withFetchWord nbits w).commands = BitVec.ofNat 64 (w % 2 ^ nbits) :: s.commands := rfl
@[simp] theorem State.withFetchWord_tokens (s : State) (nbits w : Nat) : (s.withFetchWord nbits w).tokens = s.tokens := rfl
@[simp] theorem State.withFetchWord_sourceTail (s : State) (nbits w : Nat) : (s.withFetchWord nbits w).sourceTail = s.sourceTail := rfl
@[simp] theorem State.withFetchWord_sink (s : State) (nbits w : Nat) : (s.withFetchWord nbits w).sink = s.sink := rfl
@[simp] theorem State.withFetchWord_responses (s : State) (nbits w : Nat) : (s.withFetchWord nbits w).responses = s.responses := rfl
@[simp] theorem State.withFetchWord_received (s : State) (nbits w : Nat) : (s.withFetchWord nbits w).received = s.received := rfl
@[simp] theorem State.withFetchWord_turns (s : State) (nbits w : Nat) : (s.withFetchWord nbits w).turns = .host :: s.turns := rfl
@[simp] theorem State.withFetchWord_freeTurns (s : State) (nbits w : Nat) : (s.withFetchWord nbits w).freeTurns = s.freeTurns := rfl
@[simp] theorem State.withFetchWord_nodeCount (s : State) (nbits w : Nat) : (s.withFetchWord nbits w).nodeCount = s.nodeCount := rfl
@[simp] theorem State.withFetchWord_nodeRead (s : State) (nbits w : Nat) (k : Idx) : (s.withFetchWord nbits w).nodeRead k = s.nodeRead k := rfl

/-! ### resetWith -/

@[simp] theorem State.resetWith_params (p : Params) : (State.resetWith p).params = p := rfl
@[simp] theorem State.resetWith_mode (p : Params) : (State.resetWith p).mode = .idle := rfl
@[simp] theorem State.resetWith_tree (p : Params) : (State.resetWith p).tree = .empty := rfl
@[simp] theorem State.resetWith_root (p : Params) : (State.resetWith p).root = 0 := rfl
@[simp] theorem State.resetWith_nodes (p : Params) : (State.resetWith p).nodes = [Node.zero] := rfl
@[simp] theorem State.resetWith_cursor (p : Params) : (State.resetWith p).cursor = 0 := rfl
@[simp] theorem State.resetWith_sentinel (p : Params) : (State.resetWith p).sentinel = p.builderSentinel := rfl
@[simp] theorem State.resetWith_loadSym (p : Params) : (State.resetWith p).loadSym = 0 := rfl
@[simp] theorem State.resetWith_loadDepth (p : Params) : (State.resetWith p).loadDepth = 0 := rfl
@[simp] theorem State.resetWith_outSym (p : Params) : (State.resetWith p).outSym = 0 := rfl
@[simp] theorem State.resetWith_emitCount (p : Params) : (State.resetWith p).emitCount = 0 := rfl
@[simp] theorem State.resetWith_bitCount (p : Params) : (State.resetWith p).bitCount = 0 := rfl
@[simp] theorem State.resetWith_err (p : Params) : (State.resetWith p).err = .none := rfl
@[simp] theorem State.resetWith_endCause (p : Params) : (State.resetWith p).endCause = .none := rfl
@[simp] theorem State.resetWith_done (p : Params) : (State.resetWith p).done = false := rfl
@[simp] theorem State.resetWith_ctrl (p : Params) : (State.resetWith p).ctrl = 0 := rfl
@[simp] theorem State.resetWith_freqs (p : Params) : (State.resetWith p).freqs = if p.hasBuilder then List.replicate p.nSym 0 else [] := rfl
@[simp] theorem State.resetWith_queue (p : Params) : (State.resetWith p).queue = [] := rfl
@[simp] theorem State.resetWith_commands (p : Params) : (State.resetWith p).commands = [] := rfl
@[simp] theorem State.resetWith_tokens (p : Params) : (State.resetWith p).tokens = [] := rfl
@[simp] theorem State.resetWith_sourceTail (p : Params) : (State.resetWith p).sourceTail = .ends := rfl
@[simp] theorem State.resetWith_sink (p : Params) : (State.resetWith p).sink = .accepts 0 := rfl
@[simp] theorem State.resetWith_responses (p : Params) : (State.resetWith p).responses = [] := rfl
@[simp] theorem State.resetWith_received (p : Params) : (State.resetWith p).received = [] := rfl
@[simp] theorem State.resetWith_turns (p : Params) : (State.resetWith p).turns = [] := rfl
@[simp] theorem State.resetWith_freeTurns (p : Params) : (State.resetWith p).freeTurns = 0 := rfl

end Sys2Proof.Machine
end

