-- ==== Sys2Proof/Laws/Nodes.lean ====
section
/-! SUPPORT. Node tables: reading an entry after a write and after an allocation (10_state.md R40 to R42, R61), and an entry's
image field by field (30_encoding.md R86). -/

namespace Sys2Proof.Machine

theorem nodeAt_of_getElem? {nodes : List Node} {i : Idx} {n : Node} (h : nodes[i.toNat]? = some n) : nodeAt nodes i = n := by
  unfold nodeAt
  rw [List.getD_eq_getElem?_getD, h]
  rfl

theorem nodeRead_of_getElem? {s : State} {i : Idx} {n : Node} (h : s.nodes[i.toNat]? = some n) : s.nodeRead i = n :=
  nodeAt_of_getElem? h

/-- An allocated entry is in the table. -/
theorem nodeAt_mem {nodes : List Node} {i : Idx} (h : i.toNat < nodes.length) : nodeAt nodes i ∈ nodes := by
  unfold nodeAt
  rw [List.getD_eq_getElem _ _ h]
  exact List.getElem_mem h

/-- A free entry reads as the zero entry (R42). -/
theorem nodeAt_free {nodes : List Node} {i : Idx} (h : nodes.length ≤ i.toNat) : nodeAt nodes i = Node.zero := by
  unfold nodeAt
  exact List.getD_eq_default _ _ h

/-- An entry that is not the zero entry is allocated. -/
theorem lt_of_child {nodes : List Node} {i c : Idx} (h : c ∈ (nodeAt nodes i).children) : i.toNat < nodes.length := by
  by_contra hc
  rw [nodeAt_free (by omega)] at h
  simp [Node.children, Node.zero] at h

theorem nodeAt_append_left {a b : List Node} {i : Idx} (h : i.toNat < a.length) : nodeAt (a ++ b) i = nodeAt a i := by
  unfold nodeAt
  simp [List.getD_eq_getElem?_getD, List.getElem?_append_left h]

theorem nodeAt_set_self {nodes : List Node} {i : Idx} {n : Node} (h : i.toNat < nodes.length) :
    nodeAt (nodes.set i.toNat n) i = n := by
  unfold nodeAt
  simp [List.getD_eq_getElem?_getD, h]

theorem nodeAt_set_ne {nodes : List Node} {i j : Idx} {n : Node} (h : j ≠ i) : nodeAt (nodes.set i.toNat n) j = nodeAt nodes j := by
  unfold nodeAt
  have : i.toNat ≠ j.toNat := fun e => h (BitVec.eq_of_toNat_eq e).symm
  simp [List.getD_eq_getElem?_getD, this]

/-- A child that a bit names is one of the children. -/
theorem mem_children_of_child {n : Node} {b : Bool} {i : Idx} (h : n.child b = some i) : i ∈ n.children := by
  cases b <;> simp_all [Node.child, Node.children]

theorem mem_children {n : Node} {i : Idx} : i ∈ n.children ↔ n.left = some i ∨ n.right = some i := by
  cases hl : n.left <;> cases hr : n.right <;> simp [Node.children, hl, hr, eq_comm]

theorem isLeaf_iff {n : Node} : n.isLeaf = true ↔ n.left = none ∧ n.right = none := by
  simp [Node.isLeaf, Node.hasL, Node.hasR]

theorem children_of_isLeaf {n : Node} (h : n.isLeaf = true) : n.children = [] := by
  obtain ⟨hl, hr⟩ := isLeaf_iff.1 h
  simp [Node.children, hl, hr]

/-- An internal entry has a child. -/
theorem exists_child_of_not_leaf {n : Node} (h : n.isLeaf = false) : ∃ i, i ∈ n.children := by
  cases hl : n.left with
  | some i => exact ⟨i, mem_children.2 (.inl hl)⟩
  | none =>
    cases hr : n.right with
    | some i => exact ⟨i, mem_children.2 (.inr hr)⟩
    | none => rw [isLeaf_iff.2 ⟨hl, hr⟩] at h; cases h

theorem ofNat_toNat_idx {n : Nat} (h : n < 1024) : (BitVec.ofNat 10 n : Idx).toNat = n := by
  simpa using Nat.mod_eq_of_lt h

/-- N_SYM is at most 256, so every node index fits in 10 bits (R4, R6). -/
theorem nodeCap_lt (p : Params) : p.nodeCap < 1024 := by
  have := p.lastSym.isLt
  unfold Params.nodeCap Params.nSym
  omega

/-- The image, bit by bit (R86). -/
theorem image_getLsbD (n : Node) (k : Nat) :
    n.image.getLsbD k =
      if k < 32 then n.freq.getLsbD k
      else if k < 41 then n.symValue.getLsbD (k - 32)
      else if k < 51 then n.leftIndex.getLsbD (k - 41)
      else if k < 61 then n.rightIndex.getLsbD (k - 51)
      else if k = 61 then n.lab else if k = 62 then n.hasL else if k = 63 then n.hasR else false := by
  unfold Node.image
  change BitVec.getLsbD (w := 1 + 1 + 1 + 10 + 10 + 9 + 32) (BitVec.ofBool n.hasR ++ BitVec.ofBool n.hasL ++ BitVec.ofBool n.lab ++ n.rightIndex ++ n.leftIndex ++
    n.symValue ++ n.freq) k = _
  simp only [BitVec.getLsbD_append, BitVec.getLsbD_ofBool]
  split_ifs <;> first
    | rfl
    | (exact Bool.and_eq_false_iff.2 (.inl (decide_eq_false (by omega))))
    | omega
    | (subst_vars; simp)

/-- The image, field by field (R86). -/
theorem image_fields (n : Node) :
    n.image.extractLsb' 0 32 = n.freq ∧ n.image.extractLsb' 32 9 = n.symValue ∧ n.image.extractLsb' 41 10 = n.leftIndex ∧
        n.image.extractLsb' 51 10 = n.rightIndex ∧ n.image.getLsbD 61 = n.lab ∧ n.image.getLsbD 62 = n.hasL ∧
        n.image.getLsbD 63 = n.hasR := by
  refine ⟨?_, ?_, ?_, ?_, ?_, ?_, ?_⟩
  iterate 4
    · apply BitVec.eq_of_getLsbD_eq
      intro i hi
      simp only [BitVec.getLsbD_extractLsb', image_getLsbD]
      simp only [hi, decide_true, Bool.true_and]
      split_ifs <;> first | omega | (congr 1; omega)
  all_goals (rw [image_getLsbD]; rfl)

end Sys2Proof.Machine
end

