-- ==== Sys2Proof/Laws/Builder.lean ====
section
/-! SUPPORT. The priority queue and the merge loop of BUILD (40_builder.md R102 to R107): what extractMin takes, what one turn of
the loop does, an induction over the loop, and the tables after step 2. -/

namespace Sys2Proof.Machine

/-! ### The key and extractMin (R106) -/

theorem keyBefore_iff {nodes : List Node} {a b : Idx} :
    keyBefore nodes a b = true ↔
      (nodeAt nodes a).freq.toNat < (nodeAt nodes b).freq.toNat ∨
        ((nodeAt nodes a).freq.toNat = (nodeAt nodes b).freq.toNat ∧ a.toNat < b.toNat) := by
  simp [keyBefore, BitVec.toNat_eq]

theorem keyBefore_trans {nodes : List Node} {a b c : Idx} (h : keyBefore nodes a b = true) (h' : keyBefore nodes b c = true) :
    keyBefore nodes a c = true := by
  rw [keyBefore_iff] at *
  omega

/-- The key is a strict total order: different indices never have equal keys. -/
theorem keyBefore_or_eq (nodes : List Node) (a b : Idx) : keyBefore nodes a b = true ∨ a = b ∨ keyBefore nodes b a = true := by
  simp only [keyBefore_iff, BitVec.toNat_eq]
  omega

theorem keyBefore_irrefl (nodes : List Node) (a : Idx) : keyBefore nodes a a = false := by
  rw [Bool.eq_false_iff]
  intro h
  rw [keyBefore_iff] at h
  omega

theorem leastOf_mem (nodes : List Node) (m : Idx) (l : List Idx) : leastOf nodes m l ∈ m :: l := by
  induction l generalizing m with
  | nil => simp [leastOf]
  | cons n rest ih =>
    rw [leastOf]
    split
    · exact List.mem_cons_of_mem _ (ih n)
    · rcases List.mem_cons.1 (ih m) with h | h
      · rw [h]
        exact List.mem_cons_self ..
      · exact List.mem_cons_of_mem _ (List.mem_cons_of_mem _ h)

theorem leastOf_before (nodes : List Node) (m : Idx) (l : List Idx) :
    ∀ x ∈ m :: l, x = leastOf nodes m l ∨ keyBefore nodes (leastOf nodes m l) x = true := by
  induction l generalizing m with
  | nil => simp [leastOf]
  | cons n rest ih =>
    rw [leastOf]
    have h := ih (if keyBefore nodes n m = true then n else m)
    have least := h _ (List.mem_cons_self ..)
    intro x hx
    rcases List.mem_cons.1 hx with rfl | hx
    · split at least
      · rename_i hk
        rw [if_pos hk]
        exact .inr (least.elim (fun e => e ▸ hk) (fun k => keyBefore_trans k hk))
      · rename_i hk
        rw [if_neg hk]
        exact least
    · rcases List.mem_cons.1 hx with rfl | hx
      · split at least
        · rename_i hk
          rw [if_pos hk]
          exact least
        · rename_i hk
          rw [if_neg hk]
          rcases keyBefore_or_eq nodes m x with k | rfl | k
          · exact .inr (least.elim (fun e => e ▸ k) (fun k' => keyBefore_trans k' k))
          · exact least
          · exact absurd k hk
      · exact h x (List.mem_cons_of_mem _ hx)

theorem extractMin_eq_none {nodes : List Node} {q : List Idx} : extractMin nodes q = none ↔ q = [] := by
  cases q <;> simp [extractMin]

/-- Everything extractMin does: the least queued index leaves the queue (R106). -/
theorem extractMin_eq_some {nodes : List Node} {q q' : List Idx} {a : Idx} (h : extractMin nodes q = some (a, q')) :
    a ∈ q ∧ q' = q.erase a ∧ ∀ x ∈ q, x = a ∨ keyBefore nodes a x = true := by
  cases q with
  | nil => simp [extractMin] at h
  | cons m rest =>
    simp only [extractMin, Option.some.injEq, Prod.mk.injEq] at h
    obtain ⟨rfl, rfl⟩ := h
    exact ⟨leastOf_mem nodes m rest, rfl, leastOf_before nodes m rest⟩

theorem extractMin_perm {nodes : List Node} {q q' : List Idx} {a : Idx} (h : extractMin nodes q = some (a, q')) :
    q.Perm (a :: q') := by
  obtain ⟨ha, rfl, _⟩ := extractMin_eq_some h
  exact List.perm_cons_erase ha

/-! ### One turn of the merge loop (R107) -/

theorem mergeOnce_eq_none {b : Builder} : b.mergeOnce = none ↔ b.queue.length < 2 := by
  unfold Builder.mergeOnce
  cases h : extractMin b.nodes b.queue with
  | none => simp [extractMin_eq_none.1 h]
  | some r =>
    obtain ⟨a, q⟩ := r
    have hp := (extractMin_perm h).length_eq
    cases h' : extractMin b.nodes q with
    | none =>
      rw [extractMin_eq_none.1 h'] at hp
      simp [hp, h']
    | some r' =>
      obtain ⟨c, q'⟩ := r'
      have hp' := (extractMin_perm h').length_eq
      simp only [List.length_cons] at hp hp'
      simp only [h', reduceCtorEq, false_iff]
      omega

/-- Everything a turn of the merge loop does: the two least keys leave the queue, in that order, and their parent joins the
table and the queue at the next index. -/
theorem mergeOnce_eq_some {b b' : Builder} (h : b.mergeOnce = some b') :
    ∃ a c q, b.queue.Perm (a :: c :: q) ∧ (∀ x ∈ b.queue, x = a ∨ keyBefore b.nodes a x = true) ∧
      (∀ x ∈ q, x = c ∨ keyBefore b.nodes c x = true) ∧
      b'.nodes = b.nodes ++ [mergeNode b.nodes a c] ∧ b'.queue = q ++ [BitVec.ofNat 10 b.nodes.length] := by
  unfold Builder.mergeOnce at h
  cases h1 : extractMin b.nodes b.queue with
  | none => simp [h1] at h
  | some r =>
    obtain ⟨a, q⟩ := r
    cases h2 : extractMin b.nodes q with
    | none => simp [h1, h2] at h
    | some r' =>
      obtain ⟨c, q'⟩ := r'
      simp only [h1, h2, Option.some.injEq] at h
      subst h
      refine ⟨a, c, q', (extractMin_perm h1).trans ((extractMin_perm h2).cons a), (extractMin_eq_some h1).2.2, ?_, rfl, rfl⟩
      exact fun x hx => (extractMin_eq_some h2).2.2 x ((extractMin_perm h2).mem_iff.2 (List.mem_cons_of_mem _ hx))

/-! ### The whole loop -/

/-- What every turn keeps, the loop keeps. -/
theorem mergeAll_induction {P : Builder → Prop} (turn : ∀ b b', P b → b.mergeOnce = some b' → P b') :
    ∀ (k : Nat) (b : Builder), P b → P (b.mergeAll k)
  | 0, _, h => h
  | k + 1, b, h => by
    rw [Builder.mergeAll]
    split
    · exact h
    · exact mergeAll_induction turn k _ (turn _ _ h ‹_›)

/-- With a turn for each queued node the loop ends with one node queued (R108). -/
theorem mergeAll_queue_length (k : Nat) (b : Builder) (h1 : 1 ≤ b.queue.length) (hk : b.queue.length ≤ k + 1) :
    (b.mergeAll k).queue.length = 1 := by
  induction k generalizing b with
  | zero => rw [Builder.mergeAll]; omega
  | succ k ih =>
    rw [Builder.mergeAll]
    split
    · rename_i h
      have := mergeOnce_eq_none.1 h
      omega
    · rename_i b' h
      obtain ⟨a, c, q, hp, _, _, _, hq⟩ := mergeOnce_eq_some h
      have := hp.length_eq
      simp at this
      have hl : b'.queue.length = q.length + 1 := by simp [hq]
      exact ih b' (by omega) (by omega)

/-- Each turn adds one entry and takes one from the queue. -/
theorem mergeAll_count (k : Nat) (b : Builder) :
    (b.mergeAll k).nodes.length + (b.mergeAll k).queue.length = b.nodes.length + b.queue.length := by
  refine (mergeAll_induction (P := fun x => x.nodes.length + x.queue.length = b.nodes.length + b.queue.length) ?_ k b rfl)
  intro x x' hx h
  obtain ⟨a, c, q, hp, _, _, hn, hq⟩ := mergeOnce_eq_some h
  have := hp.length_eq
  simp at this
  simp [hn, hq]
  omega

/-! ### The leaves (R103) -/

theorem ofLeaves_foldl (leaves : List Node) (b : Builder) :
    (leaves.foldl Builder.add b).nodes = b.nodes ++ leaves ∧
    (leaves.foldl Builder.add b).queue =
      b.queue ++ (List.range leaves.length).map fun i => BitVec.ofNat 10 (b.nodes.length + i) := by
  induction leaves generalizing b with
  | nil => simp
  | cons n rest ih =>
    obtain ⟨hn, hq⟩ := ih (b.add n)
    simp only [List.foldl_cons]
    rw [hn, hq]
    refine ⟨by simp [Builder.add], ?_⟩
    simp [Builder.add, List.range_succ_eq_map, Function.comp_def, Nat.add_comm, Nat.add_left_comm]

/-- After step 2 of BUILD the table is the leaves, and the queue their indices in order. -/
theorem ofLeaves_eq (leaves : List Node) :
    (Builder.ofLeaves leaves).nodes = leaves ∧
    (Builder.ofLeaves leaves).queue = (List.range leaves.length).map (BitVec.ofNat 10) := by
  have h := ofLeaves_foldl leaves ⟨[], []⟩
  simpa [Builder.ofLeaves] using h

/-- At most N_SYM + 1 leaves, and never none (R103). -/
theorem buildLeaves_length (s : State) : 1 ≤ s.buildLeaves.length ∧ s.buildLeaves.length ≤ s.params.nSym + 1 := by
  have h := List.length_filterMap_le
    (fun i => if s.freqRead i = 0 then none else some (Node.leaf (BitVec.ofNat 9 i) (s.freqRead i))) (List.range s.params.nSym)
  simp only [List.length_range] at h
  simp only [State.buildLeaves, List.length_append, List.length_singleton]
  omega

end Sys2Proof.Machine
end

