-- ==== Sys2Proof/Laws/Tree.lean ====
section
/-! SUPPORT. Trees in a node table: the node that a path leads to, the pairs of Paths(T) by it (41_tree_load.md R130), and what
the invariant's tree shapes say about it (10_state.md R45). -/

namespace Sys2Proof.Machine

/-- The node that a path leads to from node `i`; none where a child is absent. -/
def locate (nodes : List Node) : Idx → List Bool → Option Idx
  | i, [] => some i
  | i, b :: rest =>
    match (nodeAt nodes i).child b with
    | none => none
    | some j => locate nodes j rest

@[simp] theorem locate_nil (nodes : List Node) (i : Idx) : locate nodes i [] = some i := rfl

theorem locate_cons {nodes : List Node} {i l : Idx} {b : Bool} {rest : List Bool} :
    locate nodes i (b :: rest) = some l ↔ ∃ j, (nodeAt nodes i).child b = some j ∧ locate nodes j rest = some l := by
  rw [locate]
  split <;> simp_all

theorem locate_append {nodes : List Node} {i l : Idx} {p q : List Bool} :
    locate nodes i (p ++ q) = some l ↔ ∃ j, locate nodes i p = some j ∧ locate nodes j q = some l := by
  induction p generalizing i with
  | nil => simp
  | cons b p ih =>
    simp only [List.cons_append, locate_cons, ih]
    constructor
    · rintro ⟨j, hj, k, hk, hl⟩; exact ⟨k, ⟨j, hj, hk⟩, hl⟩
    · rintro ⟨k, ⟨j, hj, hk⟩, hl⟩; exact ⟨j, hj, k, hk, hl⟩

/-- A path that stands at a leaf goes no further. -/
theorem locate_of_isLeaf {nodes : List Node} {i l : Idx} {p : List Bool} (hi : (nodeAt nodes i).isLeaf = true)
    (h : locate nodes i p = some l) : p = [] ∧ l = i := by
  cases p with
  | nil => simpa [eq_comm] using h
  | cons b p =>
    obtain ⟨j, hj, _⟩ := locate_cons.1 h
    obtain ⟨h1, h2⟩ := isLeaf_iff.1 hi
    cases b <;> simp [Node.child, h1, h2] at hj

/-- The pairs of the walk from node `i` are exactly the leaves that a path of fewer bits than the fuel leads to (R130). -/
theorem mem_pathsFrom {nodes : List Node} {fuel : Nat} {i : Idx} {pre p : List Bool} {sym : Sym} :
    (sym, p) ∈ pathsFrom nodes fuel i pre ↔
      ∃ q l, p = pre ++ q ∧ q.length < fuel ∧ locate nodes i q = some l ∧ (nodeAt nodes l).isLeaf = true ∧
        sym = (nodeAt nodes l).symValue := by
  induction fuel generalizing i pre with
  | zero => simp [pathsFrom]
  | succ fuel ih =>
    rw [pathsFrom]
    split
    · rename_i hl
      simp only [List.mem_singleton, Prod.mk.injEq]
      constructor
      · rintro ⟨rfl, rfl⟩; exact ⟨[], i, by simp, by simp, rfl, hl, rfl⟩
      · rintro ⟨q, l, rfl, _, hq, _, hs⟩
        obtain ⟨rfl, rfl⟩ := locate_of_isLeaf hl hq
        exact ⟨hs, by simp⟩
    · rename_i hl
      rw [List.mem_append]
      have side : ∀ b : Bool, (sym, p) ∈ (match (nodeAt nodes i).child b with
            | some j => pathsFrom nodes fuel j (pre ++ [b])
            | none => []) ↔
          ∃ q l, p = pre ++ b :: q ∧ (b :: q).length < fuel + 1 ∧ locate nodes i (b :: q) = some l ∧
            (nodeAt nodes l).isLeaf = true ∧ sym = (nodeAt nodes l).symValue := by
        intro b
        cases hc : (nodeAt nodes i).child b with
        | none => simp [locate, hc]
        | some j => simp [ih, locate, hc]
      refine (or_congr (side false) (side true)).trans ?_
      constructor
      · rintro (⟨q, l, h⟩ | ⟨q, l, h⟩)
        · exact ⟨_, l, h⟩
        · exact ⟨_, l, h⟩
      · rintro ⟨q, l, hp, hq, hl', hh⟩
        cases q with
        | nil =>
          simp only [locate_nil, Option.some.injEq] at hl'
          subst hl'
          exact absurd hh.1 hl
        | cons b q => cases b <;> simp_all

/-- Every step down a table whose children stand above their parents moves to a greater index (R127). -/
theorem locate_above {nodes : List Node} (hn : ChildrenAbove nodes) {i l : Idx} {p : List Bool} (h : locate nodes i p = some l) :
    i.toNat + p.length ≤ l.toNat := by
  induction p generalizing i with
  | nil => simp at h; simp [h]
  | cons b p ih =>
    obtain ⟨j, hj, hl⟩ := locate_cons.1 h
    have hc := mem_children_of_child hj
    have := hn _ (lt_of_child hc) j hc
    have := ih hl
    simp only [List.length_cons]
    omega

/-- Every step down a table whose children stand below their parents moves to a smaller index. -/
theorem locate_below {nodes : List Node} (hn : ChildrenBelow nodes) {i l : Idx} {p : List Bool} (h : locate nodes i p = some l) :
    l.toNat + p.length ≤ i.toNat := by
  induction p generalizing i with
  | nil => simp at h; simp [h]
  | cons b p ih =>
    obtain ⟨j, hj, hl⟩ := locate_cons.1 h
    have hc := mem_children_of_child hj
    have := hn _ (lt_of_child hc) j hc
    have := ih hl
    simp only [List.length_cons]
    omega

/-- A path from an allocated entry leads to an allocated entry, when every child index is one (R45 (a)). -/
theorem locate_lt {nodes : List Node} (hb : ∀ n ∈ nodes, ∀ c ∈ n.children, c.toNat < nodes.length) {i l : Idx} {p : List Bool}
    (hi : i.toNat < nodes.length) (h : locate nodes i p = some l) : l.toNat < nodes.length := by
  induction p generalizing i with
  | nil => simp at h; rw [← h]; exact hi
  | cons b p ih =>
    obtain ⟨j, hj, hl⟩ := locate_cons.1 h
    exact ih (hb _ (nodeAt_mem hi) j (mem_children_of_child hj)) hl

/-- A node is reached from the root exactly when a path leads to it (R45 (c)). -/
theorem reaches_iff_locate {nodes : List Node} {root i : Idx} : Reaches nodes root i ↔ ∃ p, locate nodes root p = some i := by
  constructor
  · intro h
    induction h with
    | root => exact ⟨[], rfl⟩
    | @child i c _ hc ih =>
      obtain ⟨p, hp⟩ := ih
      rcases mem_children.1 hc with h | h
      · exact ⟨p ++ [false], locate_append.2 ⟨i, hp, locate_cons.2 ⟨c, by simpa [Node.child] using h, rfl⟩⟩⟩
      · exact ⟨p ++ [true], locate_append.2 ⟨i, hp, locate_cons.2 ⟨c, by simpa [Node.child] using h, rfl⟩⟩⟩
  · rintro ⟨p, hp⟩
    have go : ∀ (p : List Bool) (j : Idx), Reaches nodes root j → locate nodes j p = some i → Reaches nodes root i := by
      intro p
      induction p with
      | nil => intro j hj h; simp at h; rw [← h]; exact hj
      | cons b p ih =>
        intro j hj h
        obtain ⟨k, hk, hl⟩ := locate_cons.1 h
        exact ih k (.child hj (mem_children_of_child hk)) hl
    exact go p root .root hp

/-! ### One parent each (R45 (c)) -/

theorem OneParent.nodup {nodes : List Node} {root : Idx} (h : OneParent nodes root) : (childIndices nodes ++ [root.toNat]).Nodup :=
  h.nodup_iff.2 List.nodup_range

theorem mem_childIndices {nodes : List Node} {i c : Idx} (h : c ∈ (nodeAt nodes i).children) : c.toNat ∈ childIndices nodes :=
  List.mem_flatMap.2 ⟨_, nodeAt_mem (lt_of_child h), List.mem_map.2 ⟨c, h, rfl⟩⟩

/-- The root is no child. -/
theorem OneParent.root_not_child {nodes : List Node} {root i : Idx} (h : OneParent nodes root) :
    root ∉ (nodeAt nodes i).children := by
  intro hc
  have := (List.nodup_append.1 h.nodup).2.2 _ (mem_childIndices hc) root.toNat (by simp)
  exact this rfl

/-- No entry is a child twice. -/
theorem OneParent.child_unique {nodes : List Node} {root i j x : Idx} {b d : Bool} (h : OneParent nodes root)
    (hi : (nodeAt nodes i).child b = some x) (hj : (nodeAt nodes j).child d = some x) : i = j ∧ b = d := by
  have hn := (List.nodup_append.1 h.nodup).1
  unfold childIndices at hn
  rw [List.nodup_flatMap] at hn
  have hil := lt_of_child (mem_children_of_child hi)
  have hjl := lt_of_child (mem_children_of_child hj)
  have e : i = j := by
    by_contra hne
    have hne' : i.toNat ≠ j.toNat := fun e => hne (BitVec.eq_of_toNat_eq e)
    have key : ∀ {k l : Idx}, k.toNat < l.toNat → l.toNat < nodes.length → x ∈ (nodeAt nodes k).children →
        x ∈ (nodeAt nodes l).children → False := by
      intro k l hkl hl hk' hl'
      have hd := List.pairwise_iff_getElem.1 hn.2 k.toNat l.toNat (by omega) hl hkl
      have ek : nodeAt nodes k = nodes[k.toNat] := by unfold nodeAt; rw [List.getD_eq_getElem]
      have el : nodeAt nodes l = nodes[l.toNat] := by unfold nodeAt; rw [List.getD_eq_getElem]
      rw [ek] at hk'
      rw [el] at hl'
      exact hd (List.mem_map.2 ⟨x, hk', rfl⟩) (List.mem_map.2 ⟨x, hl', rfl⟩)
    rcases Nat.lt_or_gt_of_ne hne' with hlt | hlt
    · exact key hlt hjl (mem_children_of_child hi) (mem_children_of_child hj)
    · exact key hlt hil (mem_children_of_child hj) (mem_children_of_child hi)
  subst e
  refine ⟨rfl, ?_⟩
  have h1 := hn.1 _ (nodeAt_mem hil)
  by_contra hbd
  cases b <;> cases d <;> simp_all [Node.child, Node.children]

/-- In such a table two paths from the root that lead to one node are the same path. -/
theorem OneParent.locate_unique {nodes : List Node} {root x : Idx} (h : OneParent nodes root) {p q : List Bool}
    (hp : locate nodes root p = some x) (hq : locate nodes root q = some x) : p = q := by
  induction p using List.reverseRecOn generalizing q x with
  | nil =>
    simp only [locate_nil, Option.some.injEq] at hp
    subst hp
    cases q using List.reverseRecOn with
    | nil => rfl
    | append_singleton q b =>
      obtain ⟨j, _, hj⟩ := locate_append.1 hq
      obtain ⟨k, hk, hl⟩ := locate_cons.1 hj
      simp only [locate_nil, Option.some.injEq] at hl
      subst hl
      exact absurd (mem_children_of_child hk) h.root_not_child
  | append_singleton p b ih =>
    obtain ⟨i, hi, hb⟩ := locate_append.1 hp
    obtain ⟨y, hy, hl⟩ := locate_cons.1 hb
    simp only [locate_nil, Option.some.injEq] at hl
    subst hl
    cases q using List.reverseRecOn with
    | nil =>
      simp only [locate_nil, Option.some.injEq] at hq
      subst hq
      exact absurd (mem_children_of_child hy) h.root_not_child
    | append_singleton q d =>
      obtain ⟨j, hj, hd⟩ := locate_append.1 hq
      obtain ⟨z, hz, hl⟩ := locate_cons.1 hd
      simp only [locate_nil, Option.some.injEq] at hl
      subst hl
      obtain ⟨rfl, rfl⟩ := h.child_unique hy hz
      rw [ih hi hj]

end Sys2Proof.Machine
end

