-- ==== Sys2Proof/Laws/BuiltTree.lean ====
section
/-! SUPPORT. What BUILD's merge loop keeps, and the tables it ends with (40_builder.md R102 to R108). -/

namespace Sys2Proof.Machine

/-- Entry `x` waits in the queue when entry `j` is made: it stands before `j`, and no entry before `j` has taken it as a child. -/
def Queued (nodes : List Node) (j : Nat) (x : Idx) : Prop := x.toNat < j ∧ ∀ m < j, x ∉ (nodes.getD m Node.zero).children

/-- Entry `j` merges `a` and `c`, the two least keys of the queue of its time, in that order (R106, R107). -/
structure Merges (nodes : List Node) (j : Nat) (a c : Idx) : Prop where
  entry    : nodes[j]? = some (mergeNode nodes a c)
  left     : Queued nodes j a
  right    : Queued nodes j c
  ordered  : keyBefore nodes a c = true
  least    : ∀ x, Queued nodes j x → x ≠ a → x ≠ c → keyBefore nodes c x = true
  fits     : (nodeAt nodes a).freq.toNat + (nodeAt nodes c).freq.toNat < 4294967296

/-- The sum of the frequencies of the listed entries. -/
def freqSum (nodes : List Node) (l : List Idx) : Nat := (l.map fun x => (nodeAt nodes x).freq.toNat).sum

/-- What the merge loop keeps, started from the leaves. -/
structure MergeInv (leaves : List Node) (b : Builder) : Prop where
  leaves_first : b.nodes.take leaves.length = leaves
  count        : b.nodes.length + b.queue.length = 2 * leaves.length
  queue_pos    : 1 ≤ b.queue.length
  queued       : ∀ x, x ∈ b.queue ↔ Queued b.nodes b.nodes.length x
  nodup        : b.queue.Nodup
  one_place    : (childIndices b.nodes ++ b.queue.map BitVec.toNat).Perm (List.range b.nodes.length)
  merges       : ∀ j, leaves.length ≤ j → j < b.nodes.length → ∃ a c, Merges b.nodes j a c
  total        : freqSum b.nodes b.queue = (leaves.map fun n => n.freq.toNat).sum

theorem getD_append_left {a b : List Node} {m : Nat} (h : m < a.length) : (a ++ b).getD m Node.zero = a.getD m Node.zero := by
  simp [List.getD_eq_getElem?_getD, List.getElem?_append_left h]

theorem queued_append {a b : List Node} {j : Nat} (h : j ≤ a.length) (x : Idx) : Queued (a ++ b) j x ↔ Queued a j x := by
  unfold Queued
  refine and_congr_right fun _ => forall₂_congr fun m hm => ?_
  rw [getD_append_left (by omega)]

theorem keyBefore_append {a b : List Node} {x y : Idx} (hx : x.toNat < a.length) (hy : y.toNat < a.length) :
    keyBefore (a ++ b) x y = keyBefore a x y := by
  unfold keyBefore
  rw [nodeAt_append_left hx, nodeAt_append_left hy]

theorem Merges.append {nodes more : List Node} {j : Nat} {a c : Idx} (h : Merges nodes j a c) : Merges (nodes ++ more) j a c := by
  have hj : j < nodes.length := (List.getElem?_eq_some_iff.1 h.entry).1
  have ha : a.toNat < nodes.length := Nat.lt_trans h.left.1 hj
  have hc : c.toNat < nodes.length := Nat.lt_trans h.right.1 hj
  have he : mergeNode (nodes ++ more) a c = mergeNode nodes a c := by
    unfold mergeNode
    rw [nodeAt_append_left ha, nodeAt_append_left hc]
  refine ⟨?_, (queued_append hj.le _).2 h.left, (queued_append hj.le _).2 h.right, ?_, ?_, ?_⟩
  · rw [List.getElem?_append_left hj, he]; exact h.entry
  · rw [keyBefore_append ha hc]; exact h.ordered
  · intro x hx hxa hxc
    rw [queued_append hj.le] at hx
    rw [keyBefore_append hc (Nat.lt_trans hx.1 hj)]
    exact h.least x hx hxa hxc
  · rw [nodeAt_append_left ha, nodeAt_append_left hc]; exact h.fits

theorem childIndices_append (a b : List Node) : childIndices (a ++ b) = childIndices a ++ childIndices b := by
  simp [childIndices]

theorem freqSum_perm {nodes : List Node} {l l' : List Idx} (h : l.Perm l') : freqSum nodes l = freqSum nodes l' :=
  (h.map _).sum_eq

theorem freqSum_append_nodes {a b : List Node} {l : List Idx} (h : ∀ x ∈ l, x.toNat < a.length) :
    freqSum (a ++ b) l = freqSum a l := by
  unfold freqSum
  congr 1
  exact List.map_congr_left fun x hx => by rw [nodeAt_append_left (h x hx)]

theorem mergeNode_children (nodes : List Node) (a c : Idx) : (mergeNode nodes a c).children = [a, c] := rfl

/-- One turn of the loop keeps what MergeInv says, while the total fits in 32 bits. -/
theorem MergeInv.turn {leaves : List Node} {b b' : Builder} (hl : leaves.length ≤ 257)
    (ht : (leaves.map fun n => n.freq.toNat).sum < 4294967296) (h : MergeInv leaves b) (hb : b.mergeOnce = some b') :
    MergeInv leaves b' := by
  obtain ⟨a, c, q, hp, ha, hc, hn, hq⟩ := mergeOnce_eq_some hb
  have hlen : b.queue.length = q.length + 2 := by simpa using hp.length_eq
  have hcount := h.count
  have hidx : b.nodes.length < 1024 := by omega
  have hk : leaves.length ≤ b.nodes.length := by
    have := congrArg List.length h.leaves_first
    simp only [List.length_take] at this
    omega
  have hnew : (BitVec.ofNat 10 b.nodes.length : Idx).toNat = b.nodes.length := ofNat_toNat_idx hidx
  have hnd : (a :: c :: q).Nodup := hp.nodup_iff.1 h.nodup
  have hqa : Queued b.nodes b.nodes.length a := (h.queued a).1 (hp.mem_iff.2 (by simp))
  have hqc : Queued b.nodes b.nodes.length c := (h.queued c).1 (hp.mem_iff.2 (by simp))
  have hqq : ∀ x ∈ q, Queued b.nodes b.nodes.length x := fun x hx => (h.queued x).1 (hp.mem_iff.2 (by simp [hx]))
  have hqne : ∀ x ∈ q, x ≠ a ∧ x ≠ c := by
    intro x hx
    simp only [List.nodup_cons, List.mem_cons, not_or] at hnd
    exact ⟨fun e => hnd.1.2 (e ▸ hx), fun e => hnd.2.1 (e ▸ hx)⟩
  have hac : a ≠ c := by
    simp only [List.nodup_cons, List.mem_cons, not_or] at hnd
    exact hnd.1.1
  have hlast : (b.nodes ++ [mergeNode b.nodes a c]).getD b.nodes.length Node.zero = mergeNode b.nodes a c := by
    simp [List.getD_eq_getElem?_getD]
  have hsum : freqSum b.nodes b.queue = (nodeAt b.nodes a).freq.toNat + (nodeAt b.nodes c).freq.toNat + freqSum b.nodes q := by
    rw [freqSum_perm hp]; simp [freqSum, Nat.add_assoc]
  have hfit : (nodeAt b.nodes a).freq.toNat + (nodeAt b.nodes c).freq.toNat < 4294967296 := by
    have := h.total
    omega
  have hqueued' : ∀ x, x ∈ b'.queue ↔ Queued b'.nodes b'.nodes.length x := by
    intro x
    rw [hq, hn, List.length_append, List.length_singleton]
    have split : Queued (b.nodes ++ [mergeNode b.nodes a c]) (b.nodes.length + 1) x ↔
        (x.toNat = b.nodes.length ∨ Queued b.nodes b.nodes.length x ∧ x ≠ a ∧ x ≠ c) := by
      constructor
      · rintro ⟨hx, hm⟩
        by_cases e : x.toNat = b.nodes.length
        · exact .inl e
        · refine .inr ⟨⟨by omega, fun m hml => ?_⟩, ?_⟩
          · have := hm m (by omega); rwa [getD_append_left hml] at this
          · have := hm b.nodes.length (by omega)
            rw [hlast, mergeNode_children] at this
            simpa using this
      · rintro (e | ⟨⟨hx, hm⟩, hxa, hxc⟩)
        · refine ⟨by omega, fun m hml hmem => ?_⟩
          by_cases e' : m = b.nodes.length
          · rw [e', hlast, mergeNode_children] at hmem
            have h1 := hqa.1
            have h2 := hqc.1
            simp only [List.mem_cons, List.not_mem_nil, or_false] at hmem
            rcases hmem with rfl | rfl <;> omega
          · rw [getD_append_left (by omega)] at hmem
            have : x.toNat ∈ childIndices b.nodes := by
              unfold childIndices
              rw [List.mem_flatMap]
              refine ⟨_, ?_, List.mem_map.2 ⟨x, hmem, rfl⟩⟩
              rw [List.getD_eq_getElem _ _ (by omega)]
              exact List.getElem_mem _
            have := h.one_place.mem_iff.1 (List.mem_append_left _ this)
            rw [List.mem_range] at this
            omega
        · refine ⟨by omega, fun m hml => ?_⟩
          by_cases e' : m = b.nodes.length
          · rw [e', hlast, mergeNode_children]; simp [hxa, hxc]
          · rw [getD_append_left (by omega)]; exact hm m (by omega)
    rw [split, List.mem_append, List.mem_singleton]
    constructor
    · rintro (hx | rfl)
      · exact .inr ⟨hqq x hx, hqne x hx⟩
      · exact .inl hnew
    · rintro (e | ⟨hx, hxa, hxc⟩)
      · exact .inr (BitVec.eq_of_toNat_eq (by rw [hnew]; exact e))
      · have := hp.mem_iff.1 ((h.queued x).2 hx)
        simp only [List.mem_cons] at this
        rcases this with rfl | rfl | hx'
        · exact absurd rfl hxa
        · exact absurd rfl hxc
        · exact .inl hx'
  refine ⟨?_, ?_, ?_, hqueued', ?_, ?_, ?_, ?_⟩
  · rw [hn, List.take_append_of_le_length hk]; exact h.leaves_first
  · rw [hn, hq]; simp; omega
  · rw [hq]; simp
  · rw [hq, List.nodup_append]
    refine ⟨(List.nodup_cons.1 (List.nodup_cons.1 hnd).2).2, by simp, ?_⟩
    intro x hx y hy
    have := (hqq x hx).1
    simp only [List.mem_singleton] at hy
    rintro rfl
    rw [hy, hnew] at this
    omega
  · rw [hn, hq, childIndices_append, List.length_append, List.length_singleton, List.range_succ, List.map_append]
    have e : childIndices [mergeNode b.nodes a c] = [a.toNat, c.toNat] := rfl
    rw [e]
    simp only [List.map_cons, List.map_nil, hnew]
    rw [← List.append_assoc]
    refine List.Perm.append_right _ (List.Perm.trans ?_ h.one_place)
    rw [List.append_assoc]
    refine List.Perm.append_left _ ?_
    simpa using (hp.map BitVec.toNat).symm
  · intro j hj hjl
    rw [hn] at hjl ⊢
    rw [List.length_append, List.length_singleton] at hjl
    by_cases e : j = b.nodes.length
    · subst e
      have hqj : ∀ x, Queued (b.nodes ++ [mergeNode b.nodes a c]) b.nodes.length x ↔ Queued b.nodes b.nodes.length x :=
        queued_append le_rfl
      have he : mergeNode (b.nodes ++ [mergeNode b.nodes a c]) a c = mergeNode b.nodes a c := by
        unfold mergeNode
        rw [nodeAt_append_left hqa.1, nodeAt_append_left hqc.1]
      refine ⟨a, c, ?_, (hqj a).2 hqa, (hqj c).2 hqc, ?_, ?_, ?_⟩
      · rw [he]; simp
      · rw [keyBefore_append hqa.1 hqc.1]
        exact ((ha c (hp.mem_iff.2 (by simp))).resolve_left (Ne.symm hac))
      · intro x hx hxa hxc
        rw [hqj] at hx
        rw [keyBefore_append hqc.1 hx.1]
        have := hp.mem_iff.1 ((h.queued x).2 hx)
        simp only [List.mem_cons] at this
        rcases this with rfl | rfl | hx'
        · exact absurd rfl hxa
        · exact absurd rfl hxc
        · exact (hc x hx').resolve_left hxc
      · rw [nodeAt_append_left hqa.1, nodeAt_append_left hqc.1]; exact hfit
    · obtain ⟨x, y, hm⟩ := h.merges j hj (by omega)
      exact ⟨x, y, hm.append⟩
  · rw [← h.total, hsum, hq, hn]
    have e1 : freqSum (b.nodes ++ [mergeNode b.nodes a c]) (q ++ [BitVec.ofNat 10 b.nodes.length]) =
        freqSum (b.nodes ++ [mergeNode b.nodes a c]) q +
          (nodeAt (b.nodes ++ [mergeNode b.nodes a c]) (BitVec.ofNat 10 b.nodes.length)).freq.toNat := by
      simp [freqSum]
    rw [e1, freqSum_append_nodes fun x hx => (hqq x hx).1]
    have e2 : nodeAt (b.nodes ++ [mergeNode b.nodes a c]) (BitVec.ofNat 10 b.nodes.length) = mergeNode b.nodes a c := by
      unfold nodeAt; rw [hnew, hlast]
    rw [e2]
    have e3 : (mergeNode b.nodes a c).freq.toNat = (nodeAt b.nodes a).freq.toNat + (nodeAt b.nodes c).freq.toNat := by
      simp only [mergeNode, BitVec.toNat_add]
      exact Nat.mod_eq_of_lt hfit
    rw [e3]
    omega

/-- The loop's start: the leaves, all queued. -/
theorem MergeInv.start {leaves : List Node} (h1 : 1 ≤ leaves.length) (hl : leaves.length ≤ 257)
    (hleaf : ∀ n ∈ leaves, n.isLeaf = true) : MergeInv leaves (Builder.ofLeaves leaves) := by
  obtain ⟨hn, hq⟩ := ofLeaves_eq leaves
  have hchild : ∀ m, (leaves.getD m Node.zero).children = [] := by
    intro m
    by_cases hm : m < leaves.length
    · rw [List.getD_eq_getElem _ _ hm]
      exact children_of_isLeaf (hleaf _ (List.getElem_mem hm))
    · rw [List.getD_eq_default _ _ (by omega)]; rfl
  have hci : childIndices leaves = [] := by
    unfold childIndices
    rw [List.flatMap_eq_nil_iff]
    intro n hx
    rw [children_of_isLeaf (hleaf n hx)]; rfl
  have hmap : ((List.range leaves.length).map (BitVec.ofNat 10)).map BitVec.toNat = List.range leaves.length := by
    rw [List.map_map]
    conv_rhs => rw [← List.map_id (List.range leaves.length)]
    refine List.map_congr_left fun i hi => ?_
    rw [List.mem_range] at hi
    exact ofNat_toNat_idx (by omega)
  refine ⟨by rw [hn]; exact List.take_length, by rw [hn, hq]; simp; omega, by rw [hq]; simpa using h1, ?_, ?_, ?_, ?_, ?_⟩
  · intro x
    rw [hn, hq, List.mem_map]
    constructor
    · rintro ⟨i, hi, rfl⟩
      rw [List.mem_range] at hi
      exact ⟨by rw [ofNat_toNat_idx (by omega)]; exact hi, fun m _ => by rw [hchild]; simp⟩
    · rintro ⟨hx, _⟩
      exact ⟨x.toNat, List.mem_range.2 hx, by simp⟩
  · rw [hq]
    refine List.Nodup.of_map BitVec.toNat ?_
    rw [hmap]; exact List.nodup_range
  · rw [hn, hq, hci, hmap]; simp
  · intro j hj hjl; rw [hn] at hjl; omega
  · rw [hn, hq]
    unfold freqSum
    congr 1
    rw [List.map_map]
    apply List.ext_getElem (by simp)
    intro i hi hi'
    simp only [List.length_map, List.length_range] at hi
    simp only [List.getElem_map, List.getElem_range, Function.comp_apply, nodeAt]
    rw [ofNat_toNat_idx (by omega), List.getD_eq_getElem _ _ hi]

theorem MergeInv.all {leaves : List Node} (h1 : 1 ≤ leaves.length) (hl : leaves.length ≤ 257)
    (hleaf : ∀ n ∈ leaves, n.isLeaf = true) (ht : (leaves.map fun n => n.freq.toNat).sum < 4294967296) (k : Nat) :
    MergeInv leaves ((Builder.ofLeaves leaves).mergeAll k) :=
  mergeAll_induction (fun _ _ h hb => h.turn hl ht hb) k _ (.start h1 hl hleaf)

/-! ### The leaves of a BUILD -/

theorem buildLeaves_isLeaf (s : State) : ∀ n ∈ s.buildLeaves, n.isLeaf = true ∧ n.lab = true := by
  intro n hn
  simp only [State.buildLeaves, List.mem_append, List.mem_filterMap, List.mem_singleton] at hn
  rcases hn with ⟨i, _, h⟩ | rfl
  · split at h
    · cases h
    · cases h; exact ⟨rfl, rfl⟩
  · exact ⟨rfl, rfl⟩

theorem buildLeaves_total (s : State) : (s.buildLeaves.map fun n => n.freq.toNat).sum = s.freqTotal := by
  have h : ∀ l : List Nat,
      ((l.filterMap fun i => if s.freqRead i = 0 then none else some (Node.leaf (BitVec.ofNat 9 i) (s.freqRead i))).map
        fun n => n.freq.toNat).sum = (l.map fun i => (s.freqRead i).toNat).sum := by
    intro l
    induction l with
    | nil => rfl
    | cons i l ih =>
      rw [List.filterMap_cons]
      split
      · rename_i h
        split at h
        · rename_i hz
          rw [ih, List.map_cons, List.sum_cons, hz]
          simp
        · cases h
      · rename_i h
        split at h
        · cases h
        · cases h
          rw [List.map_cons, List.sum_cons, ih, List.map_cons, List.sum_cons]
          rfl
  rw [State.buildLeaves, State.freqTotal, List.map_append, List.sum_append, h]
  rfl

/-- BUILD's tables when the total fits (R107, R108): what the loop keeps holds, and one node, the root, is queued. -/
theorem buildTables_spec (s : State) (h : s.freqTotal ≤ 0xFFFFFFFF) :
    MergeInv s.buildLeaves s.buildTables ∧ ∃ root, s.buildTables.queue = [root] := by
  have hl := buildLeaves_length s
  have hp := s.params.lastSym.isLt
  have hn : s.buildLeaves.length ≤ 257 := by
    have : s.params.nSym = s.params.lastSym.val + 1 := rfl
    omega
  refine ⟨MergeInv.all hl.1 hn (fun n hx => (buildLeaves_isLeaf s n hx).1) (by rw [buildLeaves_total]; omega) _, ?_⟩
  have hq : (Builder.ofLeaves s.buildLeaves).queue.length = s.buildLeaves.length := by simp [(ofLeaves_eq s.buildLeaves).2]
  exact List.length_eq_one_iff.1 (mergeAll_queue_length _ _ (by omega) (by omega))

/-- BUILD's own rule when the total fits (R108). -/
theorem buildRule_next (s : State) (h : s.freqTotal ≤ 0xFFFFFFFF) :
    ∃ root, s.buildTables.queue = [root] ∧ buildRule s = .next (s.buildDone s.buildTables.nodes root []) := by
  obtain ⟨_, root, hr⟩ := buildTables_spec s h
  refine ⟨root, hr, ?_⟩
  have he : extractMin s.buildTables.nodes [root] = some (root, []) := by simp [extractMin, leastOf]
  rw [buildRule, if_neg (by omega), hr, he]

/-! ### The tables at the end of the loop -/

/-- The first entries are the leaves. -/
theorem MergeInv.getElem_leaf {leaves : List Node} {b : Builder} (h : MergeInv leaves b) {j : Nat} (hj : j < b.nodes.length)
    (hk : j < leaves.length) : b.nodes[j] = leaves[j] := by
  have e : (b.nodes.take leaves.length)[j]? = leaves[j]? := congrArg (·[j]?) h.leaves_first
  rw [List.getElem?_take_of_lt hk, List.getElem?_eq_getElem hj, List.getElem?_eq_getElem hk] at e
  exact Option.some.inj e

/-- The facts about a finished table: the loop's invariant with the root alone in the queue. -/
theorem MergeInv.children_lt {leaves : List Node} {b : Builder} (h : MergeInv leaves b)
    (hleaf : ∀ n ∈ leaves, n.isLeaf = true) : ChildrenBelow b.nodes := by
  intro j hj x hx
  by_cases hk : j < leaves.length
  · have e : b.nodes.getD j Node.zero ∈ leaves := by
      rw [List.getD_eq_getElem _ _ hj, h.getElem_leaf hj hk]
      exact List.getElem_mem hk
    rw [children_of_isLeaf (hleaf _ e)] at hx
    cases hx
  · obtain ⟨a, c, hm⟩ := h.merges j (by omega) hj
    rw [List.getD_eq_getElem?_getD, hm.entry, Option.getD_some, mergeNode_children] at hx
    simp only [List.mem_cons, List.not_mem_nil, or_false] at hx
    rcases hx with rfl | rfl
    · exact hm.left.1
    · exact hm.right.1

/-- Every entry is a leaf of the start or a merge. -/
theorem MergeInv.entry_cases {leaves : List Node} {b : Builder} (h : MergeInv leaves b) {n : Node} (hn : n ∈ b.nodes) :
    n ∈ leaves ∨ ∃ j a c, leaves.length ≤ j ∧ Merges b.nodes j a c ∧ n = mergeNode b.nodes a c := by
  obtain ⟨j, hj, rfl⟩ := List.getElem_of_mem hn
  by_cases hk : j < leaves.length
  · rw [h.getElem_leaf hj hk]
    exact .inl (List.getElem_mem hk)
  · obtain ⟨a, c, hm⟩ := h.merges j (by omega) hj
    refine .inr ⟨j, a, c, by omega, hm, ?_⟩
    have := hm.entry
    rw [List.getElem?_eq_getElem hj, Option.some.injEq] at this
    exact this

theorem mergeNode_freq {nodes : List Node} {j : Nat} {a c : Idx} (h : Merges nodes j a c) :
    (mergeNode nodes a c).freq.toNat = (nodeAt nodes a).freq.toNat + (nodeAt nodes c).freq.toNat := by
  simp only [mergeNode, BitVec.toNat_add]
  exact Nat.mod_eq_of_lt h.fits

theorem MergeInv.freqs_add_up {leaves : List Node} {b : Builder} (h : MergeInv leaves b)
    (hleaf : ∀ n ∈ leaves, n.isLeaf = true) : FreqsAddUp b.nodes := by
  intro n hn hi
  rcases h.entry_cases hn with hl | ⟨j, a, c, _, hm, rfl⟩
  · rw [hleaf n hl] at hi; cases hi
  · exact ⟨rfl, rfl, mergeNode_freq hm⟩

theorem MergeInv.leaves_labeled {leaves : List Node} {b : Builder} (h : MergeInv leaves b)
    (hleaf : ∀ n ∈ leaves, n.isLeaf = true ∧ n.lab = true) : LeavesLabeled b.nodes := by
  intro n hn
  rcases h.entry_cases hn with hl | ⟨j, a, c, _, _, rfl⟩
  · rw [(hleaf n hl).1, (hleaf n hl).2]
  · rfl

theorem MergeInv.one_parent {leaves : List Node} {b : Builder} (h : MergeInv leaves b) {root : Idx} (hr : b.queue = [root]) :
    OneParent b.nodes root := by
  have := h.one_place
  rwa [hr] at this

/-- In a table whose children stand below their parents, the one entry that is no child is the last. -/
theorem root_last_of_below {nodes : List Node} {root : Idx} (hp : OneParent nodes root) (hb : ChildrenBelow nodes)
    (h1 : 1 ≤ nodes.length) : root.toNat = nodes.length - 1 := by
  have hm : nodes.length - 1 ∈ childIndices nodes ++ [root.toNat] := hp.mem_iff.2 (List.mem_range.2 (by omega))
  rcases List.mem_append.1 hm with h | h
  · exfalso
    unfold childIndices at h
    rw [List.mem_flatMap] at h
    obtain ⟨n, hn, hc⟩ := h
    obtain ⟨c, hc, e⟩ := List.mem_map.1 hc
    obtain ⟨j, hj, rfl⟩ := List.getElem_of_mem hn
    have := hb j hj c (by rw [List.getD_eq_getElem _ _ hj]; exact hc)
    omega
  · simpa [eq_comm] using h

/-- An entry that is not the root is the child of an entry. -/
theorem exists_parent {nodes : List Node} {root i : Idx} (hp : OneParent nodes root) (hi : i.toNat < nodes.length) (hr : i ≠ root) :
    ∃ j < nodes.length, i ∈ (nodes.getD j Node.zero).children := by
  have hm : i.toNat ∈ childIndices nodes ++ [root.toNat] := hp.mem_iff.2 (List.mem_range.2 hi)
  rcases List.mem_append.1 hm with h | h
  · unfold childIndices at h
    rw [List.mem_flatMap] at h
    obtain ⟨n, hn, hc⟩ := h
    obtain ⟨c, hc, e⟩ := List.mem_map.1 hc
    obtain ⟨j, hj, rfl⟩ := List.getElem_of_mem hn
    refine ⟨j, hj, ?_⟩
    rw [List.getD_eq_getElem _ _ hj, ← BitVec.eq_of_toNat_eq e]
    exact hc
  · exact absurd (BitVec.eq_of_toNat_eq (by simpa using h)) hr

theorem nodeAt_ofNat {nodes : List Node} {j : Nat} (h : j < 1024) : nodeAt nodes (BitVec.ofNat 10 j) = nodes.getD j Node.zero := by
  unfold nodeAt
  rw [ofNat_toNat_idx h]

/-- With one parent each, and parents above or below their children throughout, every entry is reached from the root. -/
theorem reached_of_above {nodes : List Node} {root : Idx} (hp : OneParent nodes root) (ha : ChildrenAbove nodes)
    (hl : nodes.length ≤ 1024) : ∀ i : Idx, i.toNat < nodes.length → Reaches nodes root i := by
  intro i
  induction hk : i.toNat using Nat.strong_induction_on generalizing i with
  | _ k ih =>
    intro hi
    by_cases hr : i = root
    · subst hr; exact .root
    · obtain ⟨j, hj, hc⟩ := exists_parent hp (by omega) hr
      have hlt := ha j hj i hc
      have e := ofNat_toNat_idx (show j < 1024 by omega)
      refine .child (ih j (by omega) (BitVec.ofNat 10 j) e (by omega)) ?_
      rw [nodeAt_ofNat (by omega)]; exact hc

theorem reached_of_below {nodes : List Node} {root : Idx} (hp : OneParent nodes root) (ha : ChildrenBelow nodes)
    (hl : nodes.length ≤ 1024) : ∀ i : Idx, i.toNat < nodes.length → Reaches nodes root i := by
  intro i
  induction hk : nodes.length - i.toNat using Nat.strong_induction_on generalizing i with
  | _ k ih =>
    intro hi
    by_cases hr : i = root
    · subst hr; exact .root
    · obtain ⟨j, hj, hc⟩ := exists_parent hp hi hr
      have hlt := ha j hj i hc
      have e := ofNat_toNat_idx (show j < 1024 by omega)
      refine .child (ih (nodes.length - j) (by omega) (BitVec.ofNat 10 j) (by rw [e]) (by rw [e]; exact hj)) ?_
      rw [nodeAt_ofNat (by omega)]; exact hc

end Sys2Proof.Machine
end

