-- ==== Sys2Proof/Laws/Ops.lean ====
section
/-! SUPPORT. What each shared operation can do, said once: the acceptance of a command (30_encoding.md R87, R88), the choice of
the agent (R70), the walker's steps (R145, R147), the last line of PATH_BIT (R122). Later proofs cite these and do not unfold. -/

namespace Sys2Proof.Machine

/-! ### Acceptance -/

theorem illegalWord_next {s : State} (hm : s.mode ≠ .build) : illegalWord s = .next (s.recordError .illegalCmd) := by
  unfold illegalWord
  cases h : s.mode <;> simp_all

/-- The command's own rule runs when the table says so. -/
theorem execute_exec {i : Instr} {s : State} {run : State → Out} (hw : i.wellFormed s.params = true)
    (ha : accept s.mode i = .exec) : execute i s run = run s := by
  simp [execute, hw, ha]

theorem execute_busy {i : Instr} {s : State} {run : State → Out} (hw : i.wellFormed s.params = true)
    (ha : accept s.mode i = .busy) : execute i s run = .next (s.recordError .busy) := by
  simp [execute, hw, ha]

theorem execute_trunc {i : Instr} {s : State} {run : State → Out} (hw : i.wellFormed s.params = true)
    (ha : accept s.mode i = .trunc) : execute i s run = .next (s.failLoad .malTruncated) := by
  simp [execute, hw, ha]

theorem execute_norec {i : Instr} {s : State} {run : State → Out} (hw : i.wellFormed s.params = true)
    (ha : accept s.mode i = .norec) : execute i s run = .next (s.recordError .noRecord) := by
  simp [execute, hw, ha]

theorem execute_illegal {i : Instr} {s : State} {run : State → Out} (hw : i.wellFormed s.params = false)
    (hm : s.mode ≠ .build) : execute i s run = .next (s.recordError .illegalCmd) := by
  simp [execute, hw, illegalWord_next hm]

/-- Everything a command can answer: its own rule, an error recorded and nothing else, a truncated record in LOAD, nothing
(ABORT in IDLE), or, in MODE = BUILD only, the held port. -/
theorem execute_cases (i : Instr) (s : State) (run : State → Out) :
    (i.wellFormed s.params = true ∧ accept s.mode i = .exec ∧ execute i s run = run s) ∨
    (∃ e, s.mode ≠ .build ∧ execute i s run = .next (s.recordError e)) ∨
    (s.mode = .load ∧ accept s.mode i = .trunc ∧ execute i s run = .next (s.failLoad .malTruncated)) ∨
    (i = .abort ∧ s.mode = .idle ∧ execute i s run = .next s) ∨
    (s.mode = .build ∧ execute i s run = .fault .commandPortHeld) := by
  cases hw : i.wellFormed s.params
  · by_cases hm : s.mode = .build
    · simp [execute, hw, illegalWord, hm]
    · exact .inr (.inl ⟨_, hm, execute_illegal hw hm⟩)
  · cases hm : s.mode
    case build => simp [execute, hw, accept, hm]
    all_goals cases i <;> simp [execute, hw, accept, hm, acceptRow]

/-- A command that is always legal and accepted in every mode that takes one (R87). -/
theorem execute_always {i : Instr} {s : State} {run : State → Out} (hw : ∀ p, i.wellFormed p = true)
    (hr : acceptRow i = ⟨.exec, .exec, .exec⟩) (hm : s.mode ≠ .build) : execute i s run = run s := by
  refine execute_exec (hw _) ?_
  unfold accept
  cases h : s.mode <;> simp_all

/-! ### The last line of PATH_BIT -/

theorem descendTo_next {i : Idx} {s : State} (h : s.loadDepth.toNat + 1 < s.params.nodeCap) :
    descendTo i s = .next { s with cursor := i, loadDepth := s.loadDepth + 1 } := by
  simp [descendTo, h]

theorem descendTo_cases (i : Idx) (s : State) :
    (s.loadDepth.toNat + 1 < s.params.nodeCap ∧ descendTo i s = .next { s with cursor := i, loadDepth := s.loadDepth + 1 }) ∨
    (s.params.nodeCap ≤ s.loadDepth.toNat + 1 ∧ descendTo i s = .fault .unreachableState) := by
  unfold descendTo
  split
  · exact .inl ⟨‹_›, rfl⟩
  · exact .inr ⟨by omega, rfl⟩

/-! ### The walker -/

/-- Everything the leaf tests of WalkStep can answer (R145, R146, R153). -/
theorem arrive_cases (s : State) :
    ((s.nodeRead s.cursor).isLeaf = false ∧ arrive s = .next s) ∨
    ((s.nodeRead s.cursor).isLeaf = true ∧ (s.nodeRead s.cursor).sym = none ∧ arrive s = .fault .unreachableState) ∨
    ((s.nodeRead s.cursor).isLeaf = true ∧ (s.nodeRead s.cursor).sym = some s.sentinel ∧
      arrive s = .next (s.finishDecode .sentinel)) ∨
    (∃ sym, (s.nodeRead s.cursor).isLeaf = true ∧ (s.nodeRead s.cursor).sym = some sym ∧ sym ≠ s.sentinel ∧
      arrive s = .next { s with outSym := sym, mode := .emit }) := by
  unfold arrive
  split
  · split
    · exact .inr (.inl ⟨‹_›, ‹_›, rfl⟩)
    · split
      · rename_i h; exact .inr (.inr (.inl ⟨‹_›, by rw [← h]; assumption, rfl⟩))
      · exact .inr (.inr (.inr ⟨_, ‹_›, ‹_›, ‹_›, rfl⟩))
  · exact .inl ⟨by simp_all, rfl⟩

/-- Everything WalkStep can answer after a bit (R145). -/
theorem walkBit_cases (b : Bool) (s : State) :
    ((s.nodeRead s.cursor).child b = none ∧ walkBit b s = .next ((s.recordError .deadEnd).finishDecode .deadEnd)) ∨
    (∃ i, (s.nodeRead s.cursor).child b = some i ∧ walkBit b s = arrive { s with cursor := i }) := by
  unfold walkBit
  split
  · exact .inl ⟨‹_›, rfl⟩
  · exact .inr ⟨_, ‹_›, rfl⟩

/-- A token is offered exactly when take_token gives it, and taking it changes what the SOURCE holds and nothing else (R144). -/
theorem takeToken_eq_some {s t : State} {tok : Token} :
    s.takeToken = some (tok, t) ↔
      ∃ tokens tail, Offers s tok tokens tail ∧ t = { s with tokens := tokens, sourceTail := tail } := by
  unfold State.takeToken
  split <;> rename_i h k
  · constructor
    · rintro ⟨⟩; exact ⟨_, _, .inl ⟨k, rfl⟩, rfl⟩
    · rintro ⟨_, _, ⟨e, rfl⟩ | ⟨e, -⟩ | ⟨e, -⟩, rfl⟩ <;> simp_all
  · simp_all
  · constructor
    · rintro ⟨⟩; exact ⟨_, _, .inr (.inl ⟨h, k, rfl⟩), rfl⟩
    · rintro ⟨_, _, ⟨e, rfl⟩ | ⟨-, e, rfl⟩ | ⟨-, -, n, e, -⟩, rfl⟩ <;> simp_all
  · constructor
    · rintro ⟨⟩; exact ⟨_, _, .inr (.inr ⟨h, rfl, _, k, rfl, rfl⟩), by rw [h]⟩
    · rintro ⟨_, _, ⟨e, rfl⟩ | ⟨-, e, rfl⟩ | ⟨-, rfl, n, e, rfl, rfl⟩, rfl⟩ <;> simp_all

/-- No token is offered exactly when the SOURCE's list is used up and nothing follows it (R144). -/
theorem takeToken_eq_none {s : State} : s.takeToken = none ↔ s.tokens = [] ∧ s.sourceTail = .ends := by
  unfold State.takeToken
  split <;> simp_all

/-- Everything WalkStep can answer (R145). -/
theorem walkStep_cases (s : State) :
    (s.tokens = [] ∧ s.sourceTail = .ends ∧ walkStep s = .fault .stuckNoToken) ∨
    (∃ tokens tail, Offers s .eos tokens tail ∧
      walkStep s = .next ({ s with tokens := tokens, sourceTail := tail }.finishDecode .streamEnd)) ∨
    (∃ b tokens tail, Offers s (.bit b) tokens tail ∧
      walkStep s = walkBit b { s with tokens := tokens, sourceTail := tail, bitCount := s.bitCount + 1 }) := by
  unfold walkStep
  split <;> rename_i h
  · exact .inl ⟨(takeToken_eq_none.1 h).1, (takeToken_eq_none.1 h).2, rfl⟩
  · obtain ⟨tokens, tail, o, rfl⟩ := takeToken_eq_some.1 h; exact .inr (.inl ⟨tokens, tail, o, rfl⟩)
  · obtain ⟨tokens, tail, o, rfl⟩ := takeToken_eq_some.1 h; exact .inr (.inr ⟨_, tokens, tail, o, rfl⟩)

/-- WalkStep on a token that is offered (R145). -/
theorem walkStep_of_offers {s : State} {tok : Token} {tokens : List Token} {tail : SourceTail} (h : Offers s tok tokens tail) :
    walkStep s =
      match tok with
      | .eos => .next ({ s with tokens := tokens, sourceTail := tail }.finishDecode .streamEnd)
      | .bit b => walkBit b { s with tokens := tokens, sourceTail := tail, bitCount := s.bitCount + 1 } := by
  unfold walkStep
  rw [takeToken_eq_some.2 ⟨tokens, tail, h, rfl⟩]
  cases tok <;> rfl

theorem Sink.take_eq_none {k : Sink} : k.take = none ↔ k = .accepts 0 := by
  cases k with
  | acceptsAll => simp [Sink.take]
  | accepts n => cases n <;> simp [Sink.take]

/-- Everything EmitStep can answer (R147). -/
theorem emitStep_cases (s : State) :
    (s.sink = .accepts 0 ∧ emitStep s = .fault .stuckNoSink) ∨
    (∃ k, s.sink.take = some k ∧ emitStep s = .next { s with
      sink := k, received := s.received ++ [s.outSym], emitCount := s.emitCount + 1, cursor := s.root, mode := .walk }) := by
  unfold emitStep
  split
  · exact .inl ⟨Sink.take_eq_none.1 ‹_›, rfl⟩
  · exact .inr ⟨_, ‹_›, rfl⟩

/-- Everything the WALKER can do (R31). -/
theorem walkerStep_cases (s : State) :
    (s.mode = .walk ∧ walkerStep s = walkStep s) ∨ (s.mode = .emit ∧ walkerStep s = emitStep s) ∨
    (s.mode ≠ .walk ∧ s.mode ≠ .emit ∧ walkerStep s = .fault s.noStep) := by
  unfold walkerStep
  cases h : s.mode <;> simp

/-! ### The HOST and the choice of the agent -/

theorem hostEnabled_iff (s : State) : s.hostEnabled = true ↔ s.mode ≠ .build ∧ s.commands ≠ [] := by
  simp [State.hostEnabled, State.cmdReady]

theorem walkerEnabled_iff (s : State) :
    s.walkerEnabled = true ↔ (s.mode = .walk ∧ ¬ (s.tokens = [] ∧ s.sourceTail = .ends)) ∨ (s.mode = .emit ∧ s.sink ≠ .accepts 0) := by
  unfold State.walkerEnabled
  cases h : s.mode <;> simp [Option.isSome_iff_ne_none, takeToken_eq_none, Sink.take_eq_none]

/-- Everything one transfer can be (R56, R70). -/
theorem agentStep_cases (first : Bool) (s : State) :
    (s.hostEnabled = true ∧ agentStep first s = hostStep s) ∨
    (s.walkerEnabled = true ∧ agentStep first s = walkerStep s) ∨
    (s.hostEnabled = false ∧ s.walkerEnabled = false ∧ agentStep first s = .fault s.noStep) := by
  unfold agentStep
  split
  · cases first <;> simp [*]
  · simp [*]
  · simp [*]
  · simp [*]

/-- The HOST's step, when it has a word (R88). -/
theorem hostStep_cons {s : State} {w : Word64} {rest : List Word64} (h : s.commands = w :: rest) :
    hostStep s = executeWord w { s with commands := rest } := by
  simp [hostStep, h]

/-- Everything a step can be: a reset edge, or one transfer on the state with the turn used up (R58, R70). -/
theorem step_cases (s : State) :
    (∃ rest, s.turns = .reset :: rest ∧ step s = .next { s with turns := rest }.resetBlock) ∨
    (∃ rest first, (s.turns = .host :: rest ∨ s.turns = .walker :: rest) ∧ step s = agentStep first { s with turns := rest }) ∨
    (s.turns = [] ∧ step s = agentStep (Config.freeTurn s.freeTurns) { s with freeTurns := s.freeTurns + 1 }) := by
  unfold step takeTurn
  split
  · exact .inl ⟨_, ‹_›, rfl⟩
  · exact .inr (.inl ⟨_, true, .inl ‹_›, rfl⟩)
  · exact .inr (.inl ⟨_, false, .inr ‹_›, rfl⟩)
  · exact .inr (.inr ⟨‹_›, rfl⟩)

/-- Whether the WALKER has a step does not depend on whose turn it is. -/
@[simp] theorem walkerEnabled_turns (s : State) (turns : List Turn) (n : Nat) :
    { s with turns := turns, freeTurns := n }.walkerEnabled = s.walkerEnabled := by
  rw [Bool.eq_iff_iff, walkerEnabled_iff, walkerEnabled_iff]

/-- Without a word of the HOST's the transfer is the WALKER's, whoever was named (R56). -/
theorem agentStep_of_no_commands (first : Bool) {s : State} (h : s.commands = []) :
    agentStep first s = if s.walkerEnabled then walkerStep s else .fault s.noStep := by
  have hh : s.hostEnabled = false := by simp [State.hostEnabled, h]
  unfold agentStep
  rw [hh]
  cases s.walkerEnabled <;> rfl

/-- Where the HOST has no word left and no reset comes next, the step is the WALKER's, whoever has the turn (R56, R70). -/
theorem step_of_no_commands {s : State} (hc : s.commands = []) (hr : s.rst = false) :
    ∃ turns n, turns <:+ s.turns ∧
      step s = if s.walkerEnabled then walkerStep { s with turns := turns, freeTurns := n } else .fault s.noStep := by
  rcases step_cases s with ⟨rest, h, -⟩ | ⟨rest, first, h, e⟩ | ⟨h, e⟩
  · simp [State.rst, h] at hr
  · refine ⟨rest, s.freeTurns, by rcases h with h | h <;> simp [h], ?_⟩
    rw [e, agentStep_of_no_commands _ (by exact hc), ← walkerEnabled_turns s rest s.freeTurns]; rfl
  · refine ⟨s.turns, s.freeTurns + 1, List.suffix_refl _, ?_⟩
    rw [e, agentStep_of_no_commands _ (by exact hc), ← walkerEnabled_turns s s.turns (s.freeTurns + 1)]; rfl

/-- Where only the WALKER can step and no reset is named, it does, and leaves the turns without one (R56). -/
theorem step_of_walker_alone {s : State} (hc : s.commands = []) (ht : ∀ x ∈ s.turns, x ≠ .reset) (hw : s.walkerEnabled = true) :
    ∃ turns n, (∀ x ∈ turns, x ≠ Turn.reset) ∧ step s = walkerStep { s with turns := turns, freeTurns := n } := by
  have hr : s.rst = false := by
    unfold State.rst
    split
    · rename_i h; exact absurd rfl (ht .reset (by simp [h]))
    all_goals rfl
  obtain ⟨turns, n, h, e⟩ := step_of_no_commands hc hr
  exact ⟨turns, n, fun x hx => ht x (h.subset hx), by rw [e, if_pos hw]⟩

/-! ### The output ports -/

/-- The outputs while rst = 1 (R230). -/
theorem outputs_of_rst {s : State} (h : s.rst = true) : s.outputs = .low := by simp [State.outputs, h]

/-- The outputs while rst = 0 (R51 to R55). -/
theorem outputs_of_not_rst {s : State} (h : s.rst = false) :
    s.outputs = ⟨s.mode != .build, false, s.mode == .walk, s.mode == .emit, if s.mode == .emit then some s.outSym else none, s.irq⟩ := by
  simp [State.outputs, h, State.cmdReady, State.rspValid, State.bitReady, State.symValid, State.symData]

/-- rst is 1 exactly before a reset edge (R58). -/
theorem rst_iff (s : State) : s.rst = true ↔ ∃ rest, s.turns = .reset :: rest := by
  unfold State.rst
  split <;> simp_all

end Sys2Proof.Machine
end

