-- ==== Sys2Proof/Laws/Dispatch.lean ====
section
/-! SUPPORT. exec, said once: every command is its own rule behind the one acceptance of 30_encoding.md R88. -/

namespace Sys2Proof.Machine

/-- The command's own rule, which runs when the acceptance table says so (R83, column "rule"). -/
def ownRule : Instr → State → Out
  | .nop => fun s => .next s
  | .clear => fun s => .next s.cleared
  | .pathBegin sym => pathBeginRule sym
  | .pathBit b => pathBitRule b
  | .pathEnd => pathEndRule
  | .setSentinel sym => fun s => .next { s with sentinel := sym }
  | .decode => decodeRule
  | .abort => fun s => .next (s.finishDecode .aborted)
  | .freqWrite sym f => freqWriteRule sym f
  | .freqClear => fun s => .next { s with freqs := s.freqs.map fun _ => 0 }
  | .build => buildRule
  | .readNode idx => readNodeRule idx
  | .readReg reg => readRegRule reg
  | .writeCtrl v => fun s => .next { s with ctrl := v }
  | .ack m => fun s => .next (s.acknowledge m)

theorem exec_eq_execute (i : Instr) (s : State) : exec i s = execute i s (ownRule i) := by
  cases i <;> rfl

/-- A command that needs no builder is a command of every machine. -/
theorem wellFormed_of_needsBuilder {i : Instr} (h : i.needsBuilder = false) (p : Params) : i.wellFormed p = true := by
  simp [Instr.wellFormed, h]

theorem wellFormed_of_hasBuilder {p : Params} (h : p.hasBuilder = true) (i : Instr) : i.wellFormed p = true := by
  simp [Instr.wellFormed, h]

theorem exec_run {i : Instr} {s : State} (hw : i.wellFormed s.params = true) (ha : accept s.mode i = .exec) :
    exec i s = ownRule i s := by
  rw [exec_eq_execute, execute_exec hw ha]

theorem exec_busy {i : Instr} {s : State} (hw : i.wellFormed s.params = true) (ha : accept s.mode i = .busy) :
    exec i s = .next (s.recordError .busy) := by
  rw [exec_eq_execute, execute_busy hw ha]

theorem exec_trunc {i : Instr} {s : State} (hw : i.wellFormed s.params = true) (ha : accept s.mode i = .trunc) :
    exec i s = .next (s.failLoad .malTruncated) := by
  rw [exec_eq_execute, execute_trunc hw ha]

theorem exec_norec {i : Instr} {s : State} (hw : i.wellFormed s.params = true) (ha : accept s.mode i = .norec) :
    exec i s = .next (s.recordError .noRecord) := by
  rw [exec_eq_execute, execute_norec hw ha]

theorem exec_illegal {i : Instr} {s : State} (hw : i.wellFormed s.params = false) (hm : s.mode ≠ .build) :
    exec i s = .next (s.recordError .illegalCmd) := by
  rw [exec_eq_execute, execute_illegal hw hm]

/-- The five commands that every mode that takes a command accepts (R87). -/
theorem exec_always {i : Instr} {s : State} (hn : i.needsBuilder = false) (hr : acceptRow i = ⟨.exec, .exec, .exec⟩)
    (hm : s.mode ≠ .build) : exec i s = ownRule i s := by
  rw [exec_eq_execute, execute_always (wellFormed_of_needsBuilder hn) hr hm]

/-- Everything a command can answer (R87, R88). -/
theorem exec_cases (i : Instr) (s : State) :
    (i.wellFormed s.params = true ∧ accept s.mode i = .exec ∧ exec i s = ownRule i s) ∨
    (∃ e, s.mode ≠ .build ∧ exec i s = .next (s.recordError e)) ∨
    (s.mode = .load ∧ accept s.mode i = .trunc ∧ exec i s = .next (s.failLoad .malTruncated)) ∨
    (i = .abort ∧ s.mode = .idle ∧ exec i s = .next s) ∨
    (s.mode = .build ∧ exec i s = .fault .commandPortHeld) := by
  rw [exec_eq_execute]
  exact execute_cases i s (ownRule i)

end Sys2Proof.Machine
end

