-- ==== Sys2Proof/Laws/Encoding.lean ====
section
/-! SUPPORT. The fields of a command word and the word of its fields, each once (30_encoding.md R81, R82): what the decoder
reads from an encoded word, and what the word is when its reserved bits are 0. -/

namespace Sys2Proof

theorem commandWord_getLsbD (op : BitVec 4) (x : Sym) (d : BitVec 32) (i : Nat) :
    (commandWord op x d).getLsbD i =
      if i < 32 then d.getLsbD i else if i < 41 then x.getLsbD (i - 32) else if i < 60 then false else op.getLsbD (i - 60) := by
  unfold commandWord
  change BitVec.getLsbD (w := 4 + 19 + 9 + 32) (op ++ 0#19 ++ x ++ d) i = _
  rw [BitVec.getLsbD_append, BitVec.getLsbD_append, BitVec.getLsbD_append]
  split_ifs <;> first | rfl | omega | simp

@[simp] theorem opField_commandWord (op : BitVec 4) (x : Sym) (d : BitVec 32) : opField (commandWord op x d) = op := by
  unfold opField
  ext i hi
  rw [BitVec.getElem_extractLsb', commandWord_getLsbD]
  split_ifs <;> first | omega | simp [BitVec.getLsbD_eq_getElem hi]

@[simp] theorem rsvField_commandWord (op : BitVec 4) (x : Sym) (d : BitVec 32) : rsvField (commandWord op x d) = 0 := by
  unfold rsvField
  ext i hi
  rw [BitVec.getElem_extractLsb', commandWord_getLsbD]
  split_ifs <;> first | omega | simp

@[simp] theorem symField_commandWord (op : BitVec 4) (x : Sym) (d : BitVec 32) : symField (commandWord op x d) = x := by
  unfold symField
  ext i hi
  rw [BitVec.getElem_extractLsb', commandWord_getLsbD]
  split_ifs <;> first | omega | simp [BitVec.getLsbD_eq_getElem hi]

@[simp] theorem dataField_commandWord (op : BitVec 4) (x : Sym) (d : BitVec 32) : dataField (commandWord op x d) = d := by
  unfold dataField
  ext i hi
  rw [BitVec.getElem_extractLsb', commandWord_getLsbD]
  split_ifs <;> first | omega | simp [BitVec.getLsbD_eq_getElem hi]

/-- A word whose reserved bits are 0 is the word of its fields. -/
theorem commandWord_fields (w : Word64) (h : rsvField w = 0) : commandWord (opField w) (symField w) (dataField w) = w := by
  apply BitVec.eq_of_getLsbD_eq
  intro i hi
  rw [commandWord_getLsbD]
  unfold opField symField dataField
  simp only [BitVec.getLsbD_extractLsb']
  have reserved : ¬ i < 41 → i < 60 → w.getLsbD i = false := by
    intro h1 h2
    have bit := congrArg (fun v => v.getLsbD (i - 41)) h
    simp only [rsvField, BitVec.getLsbD_extractLsb'] at bit
    have e : 41 + (i - 41) = i := by omega
    have l : i - 41 < 19 := by omega
    rw [e] at bit
    simpa [l] using bit
  split_ifs with h1 h2 h3
  · simp [h1]
  · have e : 32 + (i - 32) = i := by omega
    have l : i - 32 < 9 := by omega
    simp [e, l]
  · exact (reserved h2 h3).symm
  · have e : 60 + (i - 60) = i := by omega
    have l : i - 60 < 4 := by omega
    simp [e, l]

/-- The low `k` bits of a data word that holds an operand of `k` bits (R82). -/
@[simp] theorem lowBits_setWidth {k : Nat} (x : BitVec k) (hk : k ≤ 32) : (x.setWidth 32).extractLsb' 0 k = x := by
  ext i hi
  simp [BitVec.getLsbD_eq_getElem hi]
  omega

/-- The bits above an operand of `k` bits (R82). -/
theorem highBits_setWidth {k n : Nat} (x : BitVec k) : (x.setWidth 32).extractLsb' k n = 0 := by
  ext i hi
  simp

/-- A data word whose bits above `k` are 0 is its low `k` bits. -/
theorem setWidth_lowBits {k : Nat} (d : BitVec 32) (h : d.extractLsb' k (32 - k) = 0) : (d.extractLsb' 0 k).setWidth 32 = d := by
  apply BitVec.eq_of_getLsbD_eq
  intro i hi
  simp only [BitVec.getLsbD_setWidth, BitVec.getLsbD_extractLsb']
  by_cases hk : i < k
  · simp [hk, hi]
  · have bit := congrArg (fun v => v.getLsbD (i - k)) h
    simp only [BitVec.getLsbD_extractLsb'] at bit
    have e : k + (i - k) = i := by omega
    have l : i - k < 32 - k := by omega
    rw [e] at bit
    simpa [l, hk] using bit.symm

@[simp] theorem opField_and (w m : Word64) : opField (w &&& m) = opField w &&& opField m := by
  ext i hi
  simp [opField]

@[simp] theorem rsvField_and (w m : Word64) : rsvField (w &&& m) = rsvField w &&& rsvField m := by
  ext i hi
  simp [rsvField]

@[simp] theorem symField_and (w m : Word64) : symField (w &&& m) = symField w &&& symField m := by
  ext i hi
  simp [symField]

@[simp] theorem dataField_and (w m : Word64) : dataField (w &&& m) = dataField w &&& dataField m := by
  ext i hi
  simp [dataField]

/-- A word is its four fields (R81). -/
theorem word_eq_iff_fields (v w : Word64) :
    v = w ↔ opField v = opField w ∧ rsvField v = rsvField w ∧ symField v = symField w ∧ dataField v = dataField w := by
  refine ⟨fun h => by simp [h], fun ⟨ho, hr, hs, hd⟩ => BitVec.eq_of_getLsbD_eq fun i hi => ?_⟩
  have bitOf : ∀ {n lo : Nat}, v.extractLsb' lo n = w.extractLsb' lo n → lo ≤ i → i < lo + n → v.getLsbD i = w.getLsbD i := by
    intro n lo h h1 h2
    have bit := congrArg (fun u => u.getLsbD (i - lo)) h
    simp only [BitVec.getLsbD_extractLsb'] at bit
    have e : lo + (i - lo) = i := by omega
    have l : i - lo < n := by omega
    rw [e] at bit
    simpa [l] using bit
  by_cases h1 : i < 32
  · exact bitOf hd (by omega) (by omega)
  by_cases h2 : i < 41
  · exact bitOf hs (by omega) (by omega)
  by_cases h3 : i < 60
  · exact bitOf hr (by omega) (by omega)
  · exact bitOf ho (by omega) (by omega)

/-- What `ifUnusedZero` answers (R84 (b)). -/
theorem ifUnusedZero_ok {c : Bool} {i j : Instr} (h : ifUnusedZero c i = .ok j) : c = true ∧ i = j := by
  unfold ifUnusedZero at h
  split at h
  · exact ⟨‹_›, by simpa using h⟩
  · cases h

/-- What the decoder of a machine answers: the word's command, if the machine has it (R84 (c)). -/
theorem decode_ok {p : Params} {w : Word64} {i : Instr} (h : decode p w = .ok i) : decodeWord w = .ok i ∧ i.wellFormed p = true := by
  unfold decode at h
  split at h
  · split at h
    · cases h; exact ⟨‹_›, ‹_›⟩
    · cases h
  · cases h

end Sys2Proof
end

