-- ==== Sys2Proof/Laws/Safety.lean ====
section
/-! SUPPORT. What the invariant of Safety.lean does not depend on. -/

namespace Sys2Proof.Machine

/-- The invariant speaks of the block alone: whatever the HOST, the SOURCE and the SINK hold, and whoever steps next, it stays. -/
theorem Inv.environment {s : State} (h : Inv s) (commands : List Word64) (tokens : List Token) (tail : SourceTail) (sink : Sink)
    (responses : List Word64) (received : List Sym) (turns : List Turn) (freeTurns : Nat) :
    Inv { s with commands := commands, tokens := tokens, sourceTail := tail, sink := sink, responses := responses,
                 received := received, turns := turns, freeTurns := freeTurns } where
  bounds := { h.bounds with }
  not_build := h.not_build
  queue_empty := h.queue_empty
  freqs_size := h.freqs_size
  depth_bound := h.depth_bound
  empty_tree := h.empty_tree
  loaded_tree := fun m t => { h.loaded_tree m t with }
  built_tree := fun t => { h.built_tree t with }
  builder := h.builder
  open_record := fun m => { h.open_record m with }
  decoding := fun m => { h.decoding m with }

end Sys2Proof.Machine
end

