-- ==== Sys2Proof/Laws/Invariant.lean ====
section
/-! SUPPORT. The invariant through each operation of the block (10_state.md R45): one lemma per operation. -/

namespace Sys2Proof.Machine

/-! ### Registers that the invariant does not speak of -/

/-- ERR, CTRL, LOAD_SYM, the counters and the responses may be anything. -/
theorem Inv.registers {s : State} (h : Inv s) (err : ErrCode) (ctrl : BitVec 2) (loadSym : Sym) (emitCount bitCount : BitVec 32)
    (responses : List Word64) :
    Inv { s with err := err, ctrl := ctrl, loadSym := loadSym, emitCount := emitCount, bitCount := bitCount,
                 responses := responses } where
  bounds := { h.bounds with }
  not_build := h.not_build
  queue_empty := h.queue_empty
  freqs_size := h.freqs_size
  depth_bound := h.depth_bound
  empty_tree := h.empty_tree
  loaded_tree := fun m t => { h.loaded_tree m t with }
  built_tree := fun t => { h.built_tree t with }
  builder := h.builder
  open_record := fun m => { h.open_record m with }
  decoding := fun m => { h.decoding m with }

theorem Inv.recordError {s : State} (h : Inv s) (e : ErrCode) : Inv (s.recordError e) :=
  h.registers _ s.ctrl s.loadSym s.emitCount s.bitCount s.responses

theorem Inv.respond {s : State} (h : Inv s) (v : Word64) : Inv (s.respond v) :=
  h.registers s.err s.ctrl s.loadSym s.emitCount s.bitCount _

/-- DONE may be cleared at any time. -/
theorem Inv.clearDone {s : State} (h : Inv s) (d : Bool) (hd : d = false ∨ d = s.done) : Inv { s with done := d } where
  bounds := { h.bounds with }
  not_build := h.not_build
  queue_empty := h.queue_empty
  freqs_size := h.freqs_size
  depth_bound := h.depth_bound
  empty_tree := h.empty_tree
  loaded_tree := fun m t => { h.loaded_tree m t with }
  built_tree := fun t => { h.built_tree t with }
  builder := h.builder
  open_record := fun m => { h.open_record m with }
  decoding := fun m =>
    { h.decoding m with
      not_done := by rcases hd with rfl | rfl; exacts [rfl, (h.decoding m).not_done] }

theorem Inv.acknowledge {s : State} (h : Inv s) (m : BitVec 2) : Inv (s.acknowledge m) :=
  (h.clearDone (if m.getLsbD 1 then false else s.done) (by split <;> simp)).registers
    (if m.getLsbD 0 then .none else s.err) s.ctrl s.loadSym s.emitCount s.bitCount s.responses

/-- Outside a decode, SENTINEL, OUT_SYM, END and DONE may be anything. -/
theorem Inv.idleRegisters {s : State} (h : Inv s) (hw : s.mode ≠ .walk) (he : s.mode ≠ .emit) (sentinel outSym : Sym)
    (endCause : EndCause) (done : Bool) :
    Inv { s with sentinel := sentinel, outSym := outSym, endCause := endCause, done := done } where
  bounds := { h.bounds with }
  not_build := h.not_build
  queue_empty := h.queue_empty
  freqs_size := h.freqs_size
  depth_bound := h.depth_bound
  empty_tree := h.empty_tree
  loaded_tree := fun m t => { h.loaded_tree m t with }
  built_tree := fun t => { h.built_tree t with }
  builder := h.builder
  open_record := fun m => { h.open_record m with }
  decoding := fun m => (m.elim hw he).elim

/-- The frequency table may hold any values. -/
theorem Inv.frequencies {s : State} (h : Inv s) (freqs : List Freq) (hl : freqs.length = s.freqs.length) :
    Inv { s with freqs := freqs } where
  bounds := { h.bounds with }
  not_build := h.not_build
  queue_empty := h.queue_empty
  freqs_size := hl.trans h.freqs_size
  depth_bound := h.depth_bound
  empty_tree := h.empty_tree
  loaded_tree := fun m t => { h.loaded_tree m t with }
  built_tree := fun t => { h.built_tree t with }
  builder := h.builder
  open_record := fun m => { h.open_record m with }
  decoding := fun m => { h.decoding m with }

/-! ### Reset and CLEAR -/

theorem childIndices_zero : childIndices [Node.zero] = [] := rfl

theorem inv_resetBlock (s : State) : Inv s.resetBlock where
  bounds := ⟨by simp [State.resetBlock, State.resetWith],
    by simp [State.resetBlock, State.resetWith, Params.nodeCap, Params.nSym],
    by simp [State.resetBlock, State.resetWith], by simp [State.resetBlock, State.resetWith],
    by simp [State.resetBlock, State.resetWith, Node.zero, Node.children]⟩
  not_build := by simp [State.resetBlock, State.resetWith]
  queue_empty := rfl
  freqs_size := by cases h : s.params.hasBuilder <;> simp [State.resetBlock, State.resetWith, h]
  depth_bound := by simp [State.resetBlock, State.resetWith, Params.nodeCap]
  empty_tree := fun _ _ => ⟨rfl, rfl⟩
  loaded_tree := by intro _ h; cases h
  built_tree := by intro h; cases h
  builder := by intro _ h; cases h
  open_record := by intro h; cases h
  decoding := by rintro (h | h) <;> cases h

/-- CLEAR, from any state (R120). -/
theorem inv_cleared {s : State} (h : Inv s) : Inv s.cleared where
  bounds := by
    have := h.bounds.count_pos
    have := h.bounds.count_le
    exact ⟨by simp [State.cleared, State.resetTable], by simp only [State.cleared, State.resetTable]; simp; omega,
      by simp [State.cleared, State.resetTable], by simp [State.cleared, State.resetTable],
      by simp [State.cleared, State.resetTable, Node.zero, Node.children]⟩
  not_build := by simp [State.cleared]
  queue_empty := h.queue_empty
  freqs_size := h.freqs_size
  depth_bound := by simp [State.cleared, State.resetTable, Params.nodeCap]
  empty_tree := fun _ _ => ⟨rfl, rfl⟩
  loaded_tree := by intro _ h; cases h
  built_tree := by intro h; cases h
  builder := by intro _ h; cases h
  open_record := by intro h; cases h
  decoding := by rintro (h | h) <;> cases h

/-- The end of a load error (R125), and what a failed BUILD leaves (R104): a BAD tree has the bounds and no more. -/
theorem Inv.failLoad {s : State} (h : Inv s) (e : ErrCode) : Inv (s.failLoad e) where
  bounds := ⟨h.bounds.count_pos, h.bounds.count_le, h.bounds.root_lt, h.bounds.root_lt, h.bounds.child_lt⟩
  not_build := by simp [State.failLoad, State.malformedLoad]
  queue_empty := h.queue_empty
  freqs_size := h.freqs_size
  depth_bound := h.depth_bound
  empty_tree := by intro _ h; cases h
  loaded_tree := by intro _ h; cases h
  built_tree := by intro h; cases h
  builder := by intro _ h; cases h
  open_record := by intro h; cases h
  decoding := by rintro (h | h) <;> cases h

theorem Inv.buildOverflow {s : State} (h : Inv s) (hm : s.mode = .idle) : Inv s.buildOverflow where
  bounds := by
    have h0 := (inv_cleared h).bounds
    exact ⟨h0.count_pos, h0.count_le, h0.root_lt, h0.cursor_lt, h0.child_lt⟩
  not_build := h.not_build
  queue_empty := h.queue_empty
  freqs_size := h.freqs_size
  depth_bound := h.depth_bound
  empty_tree := by intro _ h; cases h
  loaded_tree := by intro _ h; cases h
  built_tree := by intro h; cases h
  builder := by intro _ h; cases h
  open_record := by intro h; exact absurd (hm.symm.trans h) (by decide)
  decoding := by rintro (h | h) <;> exact absurd (hm.symm.trans h) (by decide)

/-! ### BUILD -/

/-- The tree of a BUILD that fits (R108, R45 (c) and (e)). -/
theorem builtTree_buildDone {s : State} (hf : s.freqTotal ≤ 0xFFFFFFFF) {root : Idx} (hr : s.buildTables.queue = [root]) :
    BuiltTree (s.buildDone s.buildTables.nodes root []) ∧ Bounds (s.buildDone s.buildTables.nodes root []) := by
  obtain ⟨hI, -⟩ := buildTables_spec s hf
  have hleaf := buildLeaves_isLeaf s
  have hcb := hI.children_lt fun n hx => (hleaf n hx).1
  have hone := hI.one_parent hr
  have hc := hI.count
  rw [hr, List.length_singleton] at hc
  have hl := buildLeaves_length s
  have hp := nodeCap_lt s.params
  have hn : s.params.nodeCap = 2 * s.params.nSym + 1 := rfl
  have hlast := root_last_of_below hone hcb (by omega)
  have hlen : s.buildTables.nodes.length ≤ 1024 := by omega
  refine ⟨⟨hlast, hone, reached_of_below hone hcb hlen, hI.leaves_labeled hleaf, hcb,
    hI.freqs_add_up fun n hx => (hleaf n hx).1⟩, ⟨?_, ?_, ?_, ?_, ?_⟩⟩
  · change 1 ≤ s.buildTables.nodes.length; omega
  · change s.buildTables.nodes.length ≤ s.params.nodeCap; omega
  · change root.toNat < s.buildTables.nodes.length; omega
  · change root.toNat < s.buildTables.nodes.length; omega
  · intro n hn c hc
    change c.toNat < s.buildTables.nodes.length
    obtain ⟨j, hj, rfl⟩ := List.getElem_of_mem (show n ∈ s.buildTables.nodes from hn)
    have := hcb j hj c (by rw [List.getD_eq_getElem _ _ hj]; exact hc)
    omega

theorem Inv.buildDone {s : State} (h : Inv s) (hm : s.mode = .idle) (hb : s.params.hasBuilder = true)
    (hf : s.freqTotal ≤ 0xFFFFFFFF) {root : Idx} (hr : s.buildTables.queue = [root]) :
    Inv (s.buildDone s.buildTables.nodes root []) where
  bounds := (builtTree_buildDone hf hr).2
  not_build := h.not_build
  queue_empty := rfl
  freqs_size := h.freqs_size
  depth_bound := h.depth_bound
  empty_tree := by intro _ h; cases h
  loaded_tree := by intro _ h; cases h
  built_tree := fun _ => (builtTree_buildDone hf hr).1
  builder := by intro h; rw [show (s.buildDone s.buildTables.nodes root []).params = s.params from rfl, hb] at h; cases h
  open_record := by intro h; exact absurd (hm.symm.trans h) (by decide)
  decoding := by rintro (h | h) <;> exact absurd (hm.symm.trans h) (by decide)

/-! ### A record: PATH_BEGIN, PATH_BIT, PATH_END -/

theorem Inv.pathBegin {s : State} (h : Inv s) (hm : s.mode = .idle) (ht : s.tree.loadable = true) (sym : Sym) :
    Inv { s with loadSym := sym, loadDepth := 0, cursor := s.root, mode := .load } where
  bounds := ⟨h.bounds.count_pos, h.bounds.count_le, h.bounds.root_lt, h.bounds.root_lt, h.bounds.child_lt⟩
  not_build := by simp
  queue_empty := h.queue_empty
  freqs_size := h.freqs_size
  depth_bound := by simp [Params.nodeCap]
  empty_tree := by intro h; exact absurd rfl h
  loaded_tree := by intro h; exact absurd rfl h
  built_tree := fun t => { h.built_tree t with }
  builder := h.builder
  open_record := by
    intro _
    have hload : s.mode ≠ .load := by rw [hm]; decide
    cases e : s.tree with
    | empty =>
      obtain ⟨hn, hr⟩ := h.empty_tree hload e
      have hz : ∀ n ∈ s.nodes, n = Node.zero := by rw [hn]; simp
      refine ⟨rfl, hr, ?_, ?_, ?_, ?_, ?_, by simp⟩
      · change OneParent s.nodes s.root; rw [hn, hr]; decide
      · intro n hx; rw [hz n hx]; decide
      · intro i hi _ _
        change i = s.root
        rw [hr]
        have hi' : i.toNat < s.nodes.length := hi
        rw [hn] at hi'
        exact BitVec.eq_of_toNat_eq (by simp at hi' ⊢; exact hi')
      · change ChildrenAbove s.nodes; rw [hn]; decide
      · intro n hx; rw [hz n hx]; rfl
    | loaded =>
      have hl := h.loaded_tree hload e
      refine ⟨rfl, hl.root_zero, hl.one_parent, ?_, ?_, hl.children_above, hl.freq_zero, by simp⟩
      · intro n hx hlab; rw [← hl.labeled n hx]; exact hlab
      · intro i hi hleaf hlab
        have := hl.labeled _ (nodeAt_mem hi)
        change (s.nodeRead i).lab = (s.nodeRead i).isLeaf at this
        have hleaf' : (s.nodeRead i).isLeaf = true := hleaf
        have hlab' : (s.nodeRead i).lab = false := hlab
        rw [hleaf', hlab'] at this
        cases this
    | built => rw [e] at ht; cases ht
    | bad => rw [e] at ht; cases ht
  decoding := by rintro (h | h) <;> cases h

/-- PATH_BIT into a child that exists. -/
theorem Inv.pathBitDescend {s : State} (h : Inv s) (hm : s.mode = .load) {b : Bool} {i : Idx}
    (hc : (s.nodeRead s.cursor).child b = some i) :
    s.loadDepth.toNat + 1 < s.params.nodeCap ∧ Inv { s with cursor := i, loadDepth := s.loadDepth + 1 } := by
  have ho := h.open_record hm
  have hmem := mem_children_of_child hc
  have hcl : s.cursor.toNat < s.nodes.length := h.bounds.cursor_lt
  have hlt := ho.children_above _ hcl i hmem
  have hil := h.bounds.child_lt _ (nodeAt_mem hcl) i hmem
  have hd := ho.depth_le
  have hcap := h.bounds.count_le
  have hdepth : s.loadDepth.toNat + 1 < s.params.nodeCap := by omega
  have hcl' := nodeCap_lt s.params
  have hadd : (s.loadDepth + 1).toNat = s.loadDepth.toNat + 1 := by
    rw [BitVec.toNat_add, show (1 : BitVec 16).toNat = 1 from rfl]; omega
  have hnl : (s.nodeRead s.cursor).isLeaf = false := by
    rw [Bool.eq_false_iff]
    intro hl
    rw [children_of_isLeaf hl] at hmem
    cases hmem
  refine ⟨hdepth, ⟨⟨h.bounds.count_pos, hcap, h.bounds.root_lt, hil, h.bounds.child_lt⟩, h.not_build, h.queue_empty, h.freqs_size,
    ?_, h.empty_tree, fun m t => { h.loaded_tree m t with }, fun t => { h.built_tree t with }, h.builder, fun m => ?_, ?_⟩⟩
  · change (s.loadDepth + 1).toNat < s.params.nodeCap; omega
  · refine ⟨ho.loadable, ho.root_zero, ho.one_parent, ho.labels_leaves, ?_, ho.children_above, ho.freq_zero, ?_⟩
    · intro j hj hlf hlab
      have := ho.unlabeled_leaf j hj hlf hlab
      subst this
      exact absurd (hnl.symm.trans hlf) (by decide)
    · change (s.loadDepth + 1).toNat ≤ i.toNat; omega
  · rintro (h' | h') <;> exact absurd (hm.symm.trans h') (by decide)


theorem childIndices_set {nodes : List Node} {i : Nat} {n n' : Node} {x : Nat} (hi : nodes[i]? = some n)
    (hc : (n'.children.map BitVec.toNat).Perm (n.children.map BitVec.toNat ++ [x])) :
    (childIndices (nodes.set i n')).Perm (childIndices nodes ++ [x]) := by
  induction nodes generalizing i with
  | nil => simp at hi
  | cons m rest ih =>
    cases i with
    | zero =>
      simp only [List.getElem?_cons_zero, Option.some.injEq] at hi
      subst hi
      simp only [List.set_cons_zero, childIndices, List.flatMap_cons, List.append_assoc]
      refine (hc.append_right _).trans ?_
      rw [List.append_assoc]
      exact List.Perm.append_left _ List.perm_append_comm
    | succ i =>
      simp only [List.getElem?_cons_succ] at hi
      simp only [List.set_cons_succ, childIndices, List.flatMap_cons, List.append_assoc]
      exact List.Perm.append_left _ (ih hi)

theorem withChild_children {n : Node} {b : Bool} {i : Idx} (h : n.child b = none) :
    (n.withChild b i).children.Perm (n.children ++ [i]) := by
  cases b
  · have h : n.left = none := h
    simp only [Node.withChild, Node.children, h]
    exact List.perm_append_comm
  · have h : n.right = none := h
    simp only [Node.withChild, Node.children, h]
    simp

/-- The table after PATH_BIT has created a child. -/
theorem createChild_nodes {s : State} (hc : s.cursor.toNat < s.nodes.length) (b : Bool) :
    (s.createChild b).nodes = s.nodes.set s.cursor.toNat ((s.nodeRead s.cursor).withChild b s.nodeCount) ++ [Node.zero] := by
  change (s.nodes ++ [Node.zero]).set s.cursor.toNat _ = _
  rw [List.set_append_left _ _ hc]

/-- PATH_BIT toward a child that is absent. -/
theorem Inv.pathBitCreate {s : State} (h : Inv s) (hm : s.mode = .load) {b : Bool} (hlab : (s.nodeRead s.cursor).lab = false)
    (hc : (s.nodeRead s.cursor).child b = none) (hfull : s.nodes.length ≠ s.params.nodeCap) :
    s.loadDepth.toNat + 1 < s.params.nodeCap ∧
      Inv { s.createChild b with cursor := s.nodeCount, loadDepth := s.loadDepth + 1 } := by
  have ho := h.open_record hm
  have hcl : s.cursor.toNat < s.nodes.length := h.bounds.cursor_lt
  have hd := ho.depth_le
  have hcap := h.bounds.count_le
  have hcap' := nodeCap_lt s.params
  have hnc : s.nodeCount.toNat = s.nodes.length := ofNat_toNat_idx (by omega)
  have hadd : (s.loadDepth + 1).toNat = s.loadDepth.toNat + 1 := by
    rw [BitVec.toNat_add, show (1 : BitVec 16).toNat = 1 from rfl]; omega
  have hn := createChild_nodes hcl b
  have hlen : (s.createChild b).nodes.length = s.nodes.length + 1 := by rw [hn]; simp
  have hget : s.nodes[s.cursor.toNat]? = some (s.nodeRead s.cursor) := by
    unfold State.nodeRead nodeAt
    rw [List.getD_eq_getElem _ _ hcl, List.getElem?_eq_getElem hcl]
  have hkids := withChild_children (i := s.nodeCount) hc
  -- every entry of the new table is an old entry, the changed one, or the zero entry
  have hmem : ∀ n ∈ (s.createChild b).nodes, n ∈ s.nodes ∨ n = (s.nodeRead s.cursor).withChild b s.nodeCount ∨ n = Node.zero := by
    intro n hx
    rw [hn, List.mem_append, List.mem_singleton] at hx
    rcases hx with hx | rfl
    · rcases List.mem_or_eq_of_mem_set hx with hx | rfl
      · exact .inl hx
      · exact .inr (.inl rfl)
    · exact .inr (.inr rfl)
  have hcm := nodeAt_mem hcl
  have hread : ∀ i : Idx, nodeAt (s.createChild b).nodes i =
      if i = s.cursor then (s.nodeRead s.cursor).withChild b s.nodeCount else nodeAt s.nodes i := by
    intro i
    rw [hn]
    split
    · rename_i e
      subst e
      rw [nodeAt_append_left (by simpa using hcl), nodeAt_set_self hcl]
    · rename_i e
      by_cases hi : i.toNat < s.nodes.length
      · rw [nodeAt_append_left (by simpa using hi), nodeAt_set_ne e]
      · rw [nodeAt_free (nodes := s.nodes) (by omega)]
        unfold nodeAt
        rw [List.getD_eq_getElem?_getD, List.getElem?_append_right (by rw [List.length_set]; omega)]
        cases (i.toNat - (s.nodes.set s.cursor.toNat ((s.nodeRead s.cursor).withChild b s.nodeCount)).length) <;> simp
  have hfrom : ∀ n ∈ (s.createChild b).nodes, ∀ c ∈ n.children, c.toNat < s.nodes.length + 1 := by
    intro n hx c hcc
    rcases hmem n hx with hx | rfl | rfl
    · have := h.bounds.child_lt n hx c hcc; omega
    · have := hkids.mem_iff.1 hcc
      rw [List.mem_append, List.mem_singleton] at this
      rcases this with hx | rfl
      · have := h.bounds.child_lt _ hcm c hx; omega
      · omega
    · cases hcc
  have hnl : ((s.nodeRead s.cursor).withChild b s.nodeCount).isLeaf = false := by
    rw [Bool.eq_false_iff]
    intro hl
    have := hkids.mem_iff.2 (List.mem_append_right _ (List.mem_singleton.2 rfl))
    rw [children_of_isLeaf hl] at this
    cases this
  have hwlab : ((s.nodeRead s.cursor).withChild b s.nodeCount).lab = false := by
    cases b <;> exact hlab
  refine ⟨by omega, ⟨⟨?_, ?_, ?_, ?_, ?_⟩, h.not_build, h.queue_empty, h.freqs_size, ?_, ?_, ?_, ?_, h.builder, fun _ => ?_, ?_⟩⟩
  · change 1 ≤ (s.createChild b).nodes.length; omega
  · change (s.createChild b).nodes.length ≤ s.params.nodeCap; omega
  · change s.root.toNat < (s.createChild b).nodes.length; have := h.bounds.root_lt; omega
  · change s.nodeCount.toNat < (s.createChild b).nodes.length; omega
  · intro n hx c hcc
    change c.toNat < (s.createChild b).nodes.length
    rw [hlen]; exact hfrom n hx c hcc
  · change (s.loadDepth + 1).toNat < s.params.nodeCap; omega
  · intro h'; exact absurd hm h'
  · intro h'; exact absurd hm h'
  · intro h'
    have h' : s.tree = .built := h'
    have := ho.loadable
    rw [h'] at this
    cases this
  · refine ⟨ho.loadable, ho.root_zero, ?_, ?_, ?_, ?_, ?_, ?_⟩
    · change OneParent (s.createChild b).nodes s.root
      unfold OneParent
      rw [hlen, hn, childIndices_append, childIndices_zero, List.append_nil, List.range_succ]
      have hp := childIndices_set (n' := (s.nodeRead s.cursor).withChild b s.nodeCount) (x := s.nodes.length) hget (by
        have := hkids.map BitVec.toNat
        rwa [List.map_append, List.map_singleton, hnc] at this)
      refine (hp.append_right _).trans ?_
      rw [List.append_assoc]
      refine (List.Perm.append_left _ List.perm_append_comm).trans ?_
      rw [← List.append_assoc]
      exact ho.one_parent.append_right _
    · intro n hx hl
      rcases hmem n hx with hx | rfl | rfl
      · exact ho.labels_leaves n hx hl
      · rw [hwlab] at hl; cases hl
      · cases hl
    · intro i hi hlf hl
      change i.toNat < (s.createChild b).nodes.length at hi
      change (nodeAt (s.createChild b).nodes i).isLeaf = true at hlf
      change (nodeAt (s.createChild b).nodes i).lab = false at hl
      change i = s.nodeCount
      rw [hread] at hlf hl
      split at hlf
      · rw [hnl] at hlf; cases hlf
      · rename_i e
        rw [if_neg e] at hl
        by_cases hi' : i.toNat < s.nodes.length
        · exact absurd (ho.unlabeled_leaf i hi' hlf hl) e
        · exact BitVec.eq_of_toNat_eq (by omega)
    · change ChildrenAbove (s.createChild b).nodes
      intro j hj c hcc
      have ej := ofNat_toNat_idx (show j < 1024 by omega)
      rw [← nodeAt_ofNat (show j < 1024 by omega), hread] at hcc
      split at hcc
      · rename_i e
        have ej' : j = s.cursor.toNat := by rw [← e, ej]
        have := hkids.mem_iff.1 hcc
        rw [List.mem_append, List.mem_singleton] at this
        rcases this with hx | rfl
        · have := ho.children_above _ hcl c hx; omega
        · omega
      · have hjl := lt_of_child hcc
        rw [nodeAt_ofNat (show j < 1024 by omega)] at hcc
        exact ho.children_above j (by omega) c hcc
    · intro n hx
      rcases hmem n hx with hx | rfl | rfl
      · exact ho.freq_zero n hx
      · have := ho.freq_zero _ hcm
        cases b <;> exact this
      · rfl
    · change (s.loadDepth + 1).toNat ≤ s.nodeCount.toNat; omega
  · rintro (h' | h') <;> exact absurd (hm.symm.trans h') (by decide)

/-- PATH_END at an unlabeled leaf. -/
theorem Inv.closeRecord {s : State} (h : Inv s) (hm : s.mode = .load) (hlf : (s.nodeRead s.cursor).isLeaf = true) :
    Inv s.closeRecord := by
  have ho := h.open_record hm
  have hcl : s.cursor.toNat < s.nodes.length := h.bounds.cursor_lt
  have hcap := h.bounds.count_le
  have hcap' := nodeCap_lt s.params
  have hcm := nodeAt_mem hcl
  generalize hn' : ({ s.nodeRead s.cursor with sym := some s.loadSym } : Node) = n'
  have hkids : n'.children = (s.nodeRead s.cursor).children := by rw [← hn']; rfl
  have hleaf' : n'.isLeaf = true := by rw [← hn']; exact hlf
  have hn : s.closeRecord.nodes = s.nodes.set s.cursor.toNat n' := by rw [← hn']; rfl
  have hlen : s.closeRecord.nodes.length = s.nodes.length := by rw [hn]; simp
  have hmem : ∀ n ∈ s.closeRecord.nodes, n ∈ s.nodes ∨ n = n' := by
    intro n hx
    rw [hn] at hx
    exact List.mem_or_eq_of_mem_set hx
  have hkidsD : ∀ j, (s.closeRecord.nodes.getD j Node.zero).children = (s.nodes.getD j Node.zero).children := by
    intro j
    rw [hn, List.getD_eq_getElem?_getD, List.getElem?_set]
    split
    · rename_i e
      rw [Option.getD_some, hkids, ← e]; rfl
    · rw [List.getD_eq_getElem?_getD]
  have hci : childIndices s.closeRecord.nodes = childIndices s.nodes := by
    unfold childIndices
    rw [List.flatMap_def, List.flatMap_def]
    congr 1
    apply List.ext_getElem (by simp)
    intro j h1 h2
    simp only [List.length_map] at h1 h2
    have := hkidsD j
    rw [List.getD_eq_getElem _ _ h1, List.getD_eq_getElem _ _ h2] at this
    simp only [List.getElem_map, this]
  have hone : OneParent s.closeRecord.nodes s.root := by
    unfold OneParent; rw [hci, hlen]; exact ho.one_parent
  have habove : ChildrenAbove s.closeRecord.nodes := by
    intro j hj c hc
    rw [hkidsD] at hc
    exact ho.children_above j (by omega) c hc
  have hchild : ∀ n ∈ s.closeRecord.nodes, ∀ c ∈ n.children, c.toNat < s.nodes.length := by
    intro n hx c hc
    rcases hmem n hx with hx | rfl
    · exact h.bounds.child_lt n hx c hc
    · rw [hkids] at hc; exact h.bounds.child_lt _ hcm c hc
  refine ⟨⟨by have := h.bounds.count_pos; omega, hlen.trans_le hcap, ?_, ?_, ?_⟩, by simp [State.closeRecord], h.queue_empty, h.freqs_size,
    h.depth_bound, ?_, fun _ _ => ⟨ho.root_zero, hone, reached_of_above hone habove (by omega), ?_, habove, ?_⟩, ?_, ?_, ?_, ?_⟩
  · change s.root.toNat < s.closeRecord.nodes.length; have := h.bounds.root_lt; omega
  · change s.root.toNat < s.closeRecord.nodes.length; have := h.bounds.root_lt; omega
  · intro n hx c hc; rw [hlen]; exact hchild n hx c hc
  · intro _ h'; cases h'
  · intro n hx
    obtain ⟨j, hj, rfl⟩ := List.getElem_of_mem hx
    by_cases e : s.cursor.toNat = j
    · have : s.closeRecord.nodes[j] = n' := by
        have := congrArg (·[j]?) hn
        simp only [List.getElem?_eq_getElem hj, List.getElem?_set, e, if_true, show j < s.nodes.length by omega] at this
        exact Option.some.inj this
      rw [this, hleaf', ← hn']; rfl
    · have hj' : j < s.nodes.length := by omega
      have : s.closeRecord.nodes[j] = s.nodes[j] := by
        have := congrArg (·[j]?) hn
        simp only [List.getElem?_eq_getElem hj, List.getElem?_set, e, if_false, List.getElem?_eq_getElem hj'] at this
        exact Option.some.inj this
      rw [this]
      have ej := ofNat_toNat_idx (show j < 1024 by omega)
      have er : s.nodeRead (BitVec.ofNat 10 j) = s.nodes[j] := by
        unfold State.nodeRead nodeAt; rw [ej, List.getD_eq_getElem _ _ hj']
      cases hl : s.nodes[j].lab with
      | true => rw [ho.labels_leaves _ (List.getElem_mem hj') hl]
      | false =>
        cases hf : s.nodes[j].isLeaf with
        | false => rfl
        | true =>
          have := ho.unlabeled_leaf (BitVec.ofNat 10 j) (by omega) (by rw [er]; exact hf) (by rw [er]; exact hl)
          rw [← this, ej] at e
          exact absurd rfl e
  · intro n hx
    rcases hmem n hx with hx | rfl
    · exact ho.freq_zero n hx
    · rw [← hn']; exact ho.freq_zero (s.nodeRead s.cursor) hcm
  · intro h'; cases h'
  · intro _ h'; cases h'
  · intro h'; cases h'
  · rintro (h' | h') <;> cases h'

/-! ### A decode -/

/-- The end of a decode (R148). -/
theorem Inv.finishDecode {s : State} (h : Inv s) (hm : s.mode ≠ .load) (cause : EndCause) : Inv (s.finishDecode cause) where
  bounds := { h.bounds with }
  not_build := by simp [State.finishDecode]
  queue_empty := h.queue_empty
  freqs_size := h.freqs_size
  depth_bound := h.depth_bound
  empty_tree := fun _ => h.empty_tree hm
  loaded_tree := fun _ t => { h.loaded_tree hm t with }
  built_tree := fun t => { h.built_tree t with }
  builder := h.builder
  open_record := by intro h'; cases h'
  decoding := by rintro (h' | h') <;> cases h'

/-- What DECODE clears (R141). -/
theorem Inv.startDecode {s : State} (h : Inv s) (hm : s.mode = .idle) : Inv s.startDecode where
  bounds := ⟨h.bounds.count_pos, h.bounds.count_le, h.bounds.root_lt, h.bounds.root_lt, h.bounds.child_lt⟩
  not_build := h.not_build
  queue_empty := h.queue_empty
  freqs_size := h.freqs_size
  depth_bound := h.depth_bound
  empty_tree := h.empty_tree
  loaded_tree := fun m t => { h.loaded_tree m t with }
  built_tree := fun t => { h.built_tree t with }
  builder := h.builder
  open_record := by intro h'; exact absurd (hm.symm.trans h') (by decide)
  decoding := by rintro (h' | h') <;> exact absurd (hm.symm.trans h') (by decide)

/-- The walk from an internal root (R141). -/
theorem Inv.walk {s : State} (h : Inv s) (hm : s.mode = .idle) (ht : s.tree.decodable = true)
    (hr : (s.nodeRead s.root).isLeaf = false) : Inv { s.startDecode with mode := .walk } where
  bounds := { (h.startDecode hm).bounds with }
  not_build := by simp
  queue_empty := h.queue_empty
  freqs_size := h.freqs_size
  depth_bound := h.depth_bound
  empty_tree := fun _ t => h.empty_tree (by rw [hm]; decide) t
  loaded_tree := fun _ t => { h.loaded_tree (by rw [hm]; decide) t with }
  built_tree := fun t => { h.built_tree t with }
  builder := h.builder
  open_record := by intro h'; cases h'
  decoding := fun _ => ⟨ht, hr, rfl, rfl, fun _ => hr, by intro h'; cases h'⟩

/-- Every leaf of a tree that may be decoded is labeled (R45 (c), R146). -/
theorem Inv.labeled {s : State} (h : Inv s) (hm : s.mode ≠ .load) (ht : s.tree.decodable = true) : LeavesLabeled s.nodes := by
  cases e : s.tree with
  | empty => rw [e] at ht; cases ht
  | loaded => exact (h.loaded_tree hm e).labeled
  | built => exact (h.built_tree e).labeled
  | bad => rw [e] at ht; cases ht

/-- WalkStep moves to an internal node (R145). -/
theorem Inv.walkTo {s : State} (h : Inv s) (hm : s.mode = .walk) {i : Idx} (hi : i.toNat < s.nodes.length)
    (hl : (s.nodeRead i).isLeaf = false) : Inv { s with cursor := i } where
  bounds := ⟨h.bounds.count_pos, h.bounds.count_le, h.bounds.root_lt, hi, h.bounds.child_lt⟩
  not_build := h.not_build
  queue_empty := h.queue_empty
  freqs_size := h.freqs_size
  depth_bound := h.depth_bound
  empty_tree := h.empty_tree
  loaded_tree := fun m t => { h.loaded_tree m t with }
  built_tree := fun t => { h.built_tree t with }
  builder := h.builder
  open_record := by intro h'; exact absurd (hm.symm.trans h') (by decide)
  decoding := fun m =>
    { h.decoding m with
      at_internal := fun _ => hl
      at_leaf := by intro h'; exact absurd (hm.symm.trans h') (by decide) }

/-- The cursor of a walk that ends may stand at any entry. -/
theorem Inv.endAt {s : State} (h : Inv s) (hm : s.mode = .walk) {i : Idx} (hi : i.toNat < s.nodes.length) (cause : EndCause) :
    Inv ({ s with cursor := i }.finishDecode cause) where
  bounds := ⟨h.bounds.count_pos, h.bounds.count_le, h.bounds.root_lt, hi, h.bounds.child_lt⟩
  not_build := by simp [State.finishDecode]
  queue_empty := h.queue_empty
  freqs_size := h.freqs_size
  depth_bound := h.depth_bound
  empty_tree := fun _ => h.empty_tree (by rw [hm]; decide)
  loaded_tree := fun _ t => { h.loaded_tree (by rw [hm]; decide) t with }
  built_tree := fun t => { h.built_tree t with }
  builder := h.builder
  open_record := by intro h'; cases h'
  decoding := by rintro (h' | h') <;> cases h'

/-- WalkStep moves to a leaf whose symbol is not the sentinel (R145). -/
theorem Inv.emitAt {s : State} (h : Inv s) (hm : s.mode = .walk) {i : Idx} {sym : Sym} (hi : i.toNat < s.nodes.length)
    (hl : (s.nodeRead i).isLeaf = true) (hs : (s.nodeRead i).sym = some sym) (hne : sym ≠ s.sentinel) :
    Inv { s with cursor := i, outSym := sym, mode := .emit } where
  bounds := ⟨h.bounds.count_pos, h.bounds.count_le, h.bounds.root_lt, hi, h.bounds.child_lt⟩
  not_build := by simp
  queue_empty := h.queue_empty
  freqs_size := h.freqs_size
  depth_bound := h.depth_bound
  empty_tree := fun _ => h.empty_tree (by rw [hm]; decide)
  loaded_tree := fun _ t => { h.loaded_tree (by rw [hm]; decide) t with }
  built_tree := fun t => { h.built_tree t with }
  builder := h.builder
  open_record := by intro h'; cases h'
  decoding := fun _ =>
    { h.decoding (.inl hm) with
      at_internal := by intro h'; cases h'
      at_leaf := fun _ => ⟨hl, hs, hne⟩ }

/-- EmitStep returns to the root (R147). -/
theorem Inv.emitted {s : State} (h : Inv s) (hm : s.mode = .emit) (sink : Sink) (received : List Sym) (emitCount : BitVec 32) :
    Inv { s with sink := sink, received := received, emitCount := emitCount, cursor := s.root, mode := .walk } where
  bounds := ⟨h.bounds.count_pos, h.bounds.count_le, h.bounds.root_lt, h.bounds.root_lt, h.bounds.child_lt⟩
  not_build := by simp
  queue_empty := h.queue_empty
  freqs_size := h.freqs_size
  depth_bound := h.depth_bound
  empty_tree := fun _ => h.empty_tree (by rw [hm]; decide)
  loaded_tree := fun _ t => { h.loaded_tree (by rw [hm]; decide) t with }
  built_tree := fun t => { h.built_tree t with }
  builder := h.builder
  open_record := by intro h'; cases h'
  decoding := fun _ =>
    { h.decoding (.inr hm) with
      at_internal := fun _ => (h.decoding (.inr hm)).root_internal
      at_leaf := by intro h'; cases h' }

end Sys2Proof.Machine
end

