-- ==== Sys2Proof/Laws/PerInstr.lean ====
section
/-! SUPPORT. One statement for every command: its word selects the row of the opcode map that stands at its opcode, and that
row says whether the command needs the builder (30_encoding.md R83). One lemma per constructor. -/

namespace Sys2Proof.Laws.TableRow

open Sys2Proof

/-- The command's row of R83: present, selected by the command's word, and marked B exactly for a builder command. -/
def Statement (i : Instr) : Prop :=
  ∃ r, opcodeTable[i.opcode]? = some r ∧ r.selects (encode i) = true ∧ r.builder = i.needsBuilder

/-- A row selects a word when it does so field by field. -/
theorem selects_of_fields {r : OpcodeRow} {w : Word64} (ho : opField w &&& opField r.mask = opField r.want)
    (hr : rsvField w &&& rsvField r.mask = rsvField r.want) (hs : symField w &&& symField r.mask = symField r.want)
    (hd : dataField w &&& dataField r.mask = dataField r.want) : r.selects w = true := by
  unfold OpcodeRow.selects
  rw [beq_iff_eq, word_eq_iff_fields]
  simp [ho, hr, hs, hd]

/-- An operand of `k` bits leaves every higher bit of DATA 0. -/
theorem operand_and_high {k : Nat} (x : BitVec k) (m : BitVec 32) (hm : ∀ i < k, m.getLsbD i = false) :
    x.setWidth 32 &&& m = 0 := by
  apply BitVec.eq_of_getLsbD_eq
  intro i hi
  by_cases h : i < k
  · simp [hm i h]
  · simp [BitVec.getLsbD_of_ge x i (by omega)]

theorem nop : Statement .nop := ⟨_, rfl, by decide, rfl⟩

theorem clear : Statement .clear := ⟨_, rfl, by decide, rfl⟩

theorem pathBegin (sym : Sym) : Statement (.pathBegin sym) :=
  ⟨_, rfl, selects_of_fields (by simp [encode]; decide) (by simp [encode]; decide)
    (by simp [encode]; rw [show symField _ = 0 from by decide, show symField _ = 0 from by decide]; simp) (by simp [encode]; decide), rfl⟩

theorem pathBit (b : Bool) : Statement (.pathBit b) := ⟨_, rfl, by cases b <;> decide, rfl⟩

theorem pathEnd : Statement .pathEnd := ⟨_, rfl, by decide, rfl⟩

theorem setSentinel (sym : Sym) : Statement (.setSentinel sym) :=
  ⟨_, rfl, selects_of_fields (by simp [encode]; decide) (by simp [encode]; decide)
    (by simp [encode]; rw [show symField _ = 0 from by decide, show symField _ = 0 from by decide]; simp) (by simp [encode]; decide), rfl⟩

theorem decode : Statement .decode := ⟨_, rfl, by decide, rfl⟩

theorem abort : Statement .abort := ⟨_, rfl, by decide, rfl⟩

theorem freqWrite (sym : Sym) (f : Freq) : Statement (.freqWrite sym f) :=
  ⟨_, rfl, selects_of_fields (by simp [encode]; decide) (by simp [encode]; decide)
    (by simp [encode]; rw [show symField _ = 0 from by decide, show symField _ = 0 from by decide]; simp)
    (by simp [encode]; rw [show dataField _ = 0 from by decide, show dataField _ = 0 from by decide]; simp), rfl⟩

theorem freqClear : Statement .freqClear := ⟨_, rfl, by decide, rfl⟩

theorem build : Statement .build := ⟨_, rfl, by decide, rfl⟩

theorem readNode (idx : Idx) : Statement (.readNode idx) := 
  ⟨_, rfl, selects_of_fields (by simp [encode]; decide) (by simp [encode]; decide) (by simp [encode]; decide)
    (by simp only [encode, dataField_commandWord]; exact operand_and_high idx _ (by decide)), rfl⟩

theorem readReg (reg : BitVec 4) : Statement (.readReg reg) := ⟨_, rfl, by revert reg; decide, rfl⟩

theorem writeCtrl (v : BitVec 2) : Statement (.writeCtrl v) := ⟨_, rfl, by revert v; decide, rfl⟩

theorem ack (m : BitVec 2) : Statement (.ack m) := ⟨_, rfl, by revert m; decide, rfl⟩

end Sys2Proof.Laws.TableRow
end

