-- ==== Sys2Proof/Laws/Run.lean ====
section
/-! SUPPORT. Runs of several steps, said once for every machine behind the interface of Host/Core.lean. -/

namespace Sys2Proof.Machine

/-- A run goes on from the state its first step gives. -/
theorem run_of_next {M : Host.Core} {s t : M.State} (h : M.step s = .next t) (k : Nat) : M.run (k + 1) s = M.run k t := by
  simp only [Host.Core.run, h]

/-- Two runs one after the other are one run. -/
theorem run_add {M : Host.Core} {j : Nat} {s t : M.State} (h : M.run j s = .next t) (k : Nat) : M.run (j + k) s = M.run k t := by
  induction j generalizing s with
  | zero => simp only [Host.Core.run, Host.Outcome.next.injEq] at h; rw [Nat.zero_add, h]
  | succ j ih =>
    cases hs : M.step s with
    | next u => rw [run_of_next hs] at h; rw [Nat.succ_add, run_of_next hs, ih h]
    | fault r => simp [Host.Core.run, hs] at h
    | refused r => simp [Host.Core.run, hs] at h

/-- The same for this machine, by `step`. -/
theorem core_run_of_step {s t : State} (h : step s = .next t) (k : Nat) :
    Host.Core.run Sys2Proof.core (k + 1) s = Host.Core.run Sys2Proof.core k t := run_of_next h k

/-- The same for this machine. -/
theorem core_run_add {j : Nat} {s t : State} (h : Host.Core.run Sys2Proof.core j s = .next t) (k : Nat) :
    Host.Core.run Sys2Proof.core (j + k) s = Host.Core.run Sys2Proof.core k t := run_add (M := Sys2Proof.core) h k

/-- A run of no step. -/
theorem core_run_zero (s : State) : Host.Core.run Sys2Proof.core 0 s = .next s := rfl

end Sys2Proof.Machine
end

