-- ==== Sys2Proof/Tests/Slice0.lean ====
section
/-! SUPPORT. The model's own tests: which commands a machine has, every command's decoding from a word written out from
30_encoding.md R81 to R83, one step per command with the values of 95_test_vectors.md, and for every statement that has
hypotheses a concrete state and operands that meet them. -/

namespace Sys2Proof.Tests

open Sys2Proof Sys2Proof.Machine

/-! ### Commands a machine has (WellFormed) -/

/-- R84 (c): without the builder, FREQ_WRITE is no command of the machine. -/
theorem test_freqWrite_ill_formed : (Instr.freqWrite 0 1).wellFormed ⟨255, false⟩ = false := by decide
/-- R84 (c). -/
theorem test_freqClear_ill_formed : Instr.freqClear.wellFormed ⟨255, false⟩ = false := by decide
/-- R84 (c). -/
theorem test_build_ill_formed : Instr.build.wellFormed ⟨255, false⟩ = false := by decide
/-- R8: with the builder it is; and a command of another family always is. -/
theorem test_well_formed : Instr.build.wellFormed ⟨255, true⟩ = true ∧ Instr.nop.wellFormed ⟨255, false⟩ = true := by decide

/-! ### Decoding: one word per command, from the fields of R81: OP [63:60], RSV [59:41], SYM [40:32], DATA [31:0] -/

theorem test_decode_nop : decodeTableWord 64 0x0000000000000000 = some .nop := by decide
theorem test_decode_clear : decodeTableWord 64 0x1000000000000000 = some .clear := by decide
theorem test_decode_pathBegin : decodeTableWord 64 0x2000004100000000 = some (.pathBegin 65) := by decide
theorem test_decode_pathBit_left : decodeTableWord 64 0x3000000000000000 = some (.pathBit false) := by decide
theorem test_decode_pathBit_right : decodeTableWord 64 0x3000000000000001 = some (.pathBit true) := by decide
theorem test_decode_pathEnd : decodeTableWord 64 0x4000000000000000 = some .pathEnd := by decide
theorem test_decode_setSentinel : decodeTableWord 64 0x5000010000000000 = some (.setSentinel 256) := by decide
theorem test_decode_decode : decodeTableWord 64 0x6000000000000000 = some .decode := by decide
theorem test_decode_abort : decodeTableWord 64 0x7000000000000000 = some .abort := by decide
theorem test_decode_freqWrite : decodeTableWord 64 0x800000FFFFFFFFFF = some (.freqWrite 255 0xFFFFFFFF) := by decide
theorem test_decode_freqClear : decodeTableWord 64 0x9000000000000000 = some .freqClear := by decide
theorem test_decode_build : decodeTableWord 64 0xA000000000000000 = some .build := by decide
theorem test_decode_readNode : decodeTableWord 64 0xB000000000000201 = some (.readNode 513) := by decide
theorem test_decode_readReg : decodeTableWord 64 0xC00000000000000A = some (.readReg 10) := by decide
theorem test_decode_writeCtrl : decodeTableWord 64 0xD000000000000002 = some (.writeCtrl 2) := by decide
theorem test_decode_ack : decodeTableWord 64 0xE000000000000001 = some (.ack 1) := by decide
/-- R84 (a): OP = 0xF. -/
theorem test_decode_reserved_opcode : decode ⟨255, true⟩ 0xF000000000000000 = .error .reservedOpcode := by decide
/-- R84 (b): RSV bit 41 of PATH_BEGIN, DATA bit 1 of PATH_BIT, DATA bit 10 of READ_NODE. -/
theorem test_decode_reserved_bits :
    decode ⟨255, true⟩ 0x2000020000000000 = .error .reservedBits ∧ decode ⟨255, true⟩ 0x3000000000000002 = .error .reservedBits ∧
      decode ⟨255, true⟩ 0xB000000000000400 = .error .reservedBits := by decide
/-- R84 (c): a builder command without the builder. -/
theorem test_decode_builder_absent : decode ⟨255, false⟩ 0x8000000000000001 = .error .builderAbsent := by decide

/-! ### Small states -/

/-- The next state has the property. -/
def leaves (o : Out) (p : State → Bool) : Bool :=
  match o with
  | .next t => p t
  | .fault _ => false
  | .refused _ => false

/-- The machine of N_SYM = 1 after reset. -/
def tiny : State := State.resetWith ⟨0, true⟩

/-- Its tree of symbol 0 with frequency 5 and the sentinel 1, as R111 gives it, after BUILD. -/
def tinyBuilt : State :=
  { tiny with
    freqs := [5], nodes := [⟨some 0, none, none, 5⟩, ⟨some 1, none, none, 1⟩, ⟨none, some 1, some 0, 6⟩], root := 2, cursor := 2,
    tree := .built, sentinel := 1, done := true }

/-- A decode of it, at the root, with the tokens 1 0 offered and every symbol accepted. -/
def tinyWalk : State :=
  { tinyBuilt with mode := .walk, done := false, tokens := [.bit true, .bit false], sink := .acceptsAll }

/-- The same decode with symbol 0 held in EMIT. -/
def tinyEmit : State := { tinyWalk with mode := .emit, cursor := 0, outSym := 0, tokens := [.bit false], bitCount := 1 }

/-- A record of symbol 7 just opened on the empty tree. -/
def tinyLoad : State := { tiny with mode := .load, loadSym := 7 }

/-- A record that has taken one bit 0: the cursor stands at the new entry 1. -/
def tinyDown : State :=
  { tinyLoad with nodes := [⟨none, some 1, none, 0⟩, Node.zero], cursor := 1, loadDepth := 1 }

/-- The tree of the pairs (1, "0") and (2, "1"), loaded. -/
def tinyLoaded : State :=
  { tiny with
    nodes := [⟨none, some 1, some 2, 0⟩, ⟨some 1, none, none, 0⟩, ⟨some 2, none, none, 0⟩], tree := .loaded, sentinel := 2,
    loadSym := 2, loadDepth := 1 }

/-- The frequency table of the textbook scenario, with N_SYM = 6 (95_test_vectors.md S1, B1-6). -/
def textbook : State := { State.resetWith ⟨5, true⟩ with freqs := [5, 9, 12, 13, 16, 45] }

/-! ### One step per command -/

/-- R170. -/
theorem test_nop : exec .nop tinyWalk = .next tinyWalk := rfl

/-- R120: the tree, DONE and the counters go; SENTINEL and the frequency table stay. -/
theorem test_clear :
    leaves (exec .clear tinyBuilt) (fun t => t.status == 0 && t.nodes == [Node.zero] && t.root == 0 && t.sentinel == 1 &&
      t.freqs == [5]) = true := by decide
/-- CLEAR abandons an open record without an error (T10). -/
theorem test_clear_in_load :
    leaves (exec .clear tinyDown) (fun t => t.status == 0 && t.nodeCount == 1 && t.loadDepth == 0) = true := by decide

/-- CV10: PATH_BEGIN 3 from reset gives MODE = LOAD and LOAD_SYM = 3. -/
theorem test_pathBegin : leaves (exec (.pathBegin 3) tiny) (fun t => t.status == 1 && t.loadSym == 3) = true := by decide
/-- T8: a record on a BUILT tree is TREE_STATE. -/
theorem test_pathBegin_built : leaves (exec (.pathBegin 3) tinyBuilt) (fun t => t.status == 0x10320) = true := by decide

/-- T5's first bit: PATH_BIT 1 at the root of an empty tree; images 0x8008000000000000 and 0. -/
theorem test_pathBit_creates :
    leaves (exec (.pathBit true) tinyLoad) (fun t => t.nodes.map Node.image == [0x8008000000000000, 0] && t.cursor == 1 &&
      t.loadDepth == 1) = true := by decide
/-- T9b's last bit: NODE_OVERFLOW in a full table of N_SYM = 1. -/
theorem test_pathBit_overflow :
    leaves (exec (.pathBit false)
        { tinyLoad with nodes := [⟨none, some 1, none, 0⟩, ⟨none, some 2, none, 0⟩, Node.zero], cursor := 2, loadDepth := 2 })
      (fun t => t.status == 0x930 && t.nodes.map Node.image == [0x4000020000000000, 0x4000040000000000, 0] && t.loadDepth == 2)
      = true := by decide

/-- R123: the label, TREE = LOADED, and the cursor back at the root. -/
theorem test_pathEnd :
    leaves (exec .pathEnd tinyDown) (fun t => t.status == 0x10 && t.nodes.map Node.image == [0x4000020000000000, 0x2000000700000000] &&
      t.cursor == 0) = true := by decide
/-- T4: a label on an internal node is MAL_LABEL_INTERNAL. -/
theorem test_pathEnd_internal : leaves (exec .pathEnd { tinyDown with cursor := 0 }) (fun t => t.status == 0x630) = true := by decide

/-- R140. -/
theorem test_setSentinel : leaves (exec (.setSentinel 511) tinyBuilt) (fun t => t.sentinel == 511 && t.status == 0x10020) = true := by
  decide
/-- DV9: BUSY during a decode. -/
theorem test_setSentinel_busy : leaves (exec (.setSentinel 5) tinyWalk) (fun t => t.sentinel == 1 && t.status == 0x223) = true := by
  decide

/-- CV13 without its CTRL: DECODE of a built tree walks from the root and clears DONE. -/
theorem test_decode : leaves (exec .decode tinyBuilt) (fun t => t.status == 0x23 && t.cursor == 2) = true := by decide
/-- T7: DECODE of a root-only tree ends at once. -/
theorem test_decode_root_only :
    leaves (exec .decode { tiny with nodes := [⟨some 7, none, none, 0⟩], tree := .loaded, tokens := [.eos] })
      (fun t => t.status == 0x13010 && t.tokens == [.eos]) = true := by decide

/-- DV6: ABORT in EMIT drops the held symbol and keeps CURSOR, OUT_SYM and the counters. -/
theorem test_abort :
    leaves (exec .abort tinyEmit) (fun t => t.status == 0x15020 && t.received == [] && t.cursor == 0 && t.bitCount == 1 &&
      t.tokens == [.bit false]) = true := by decide
/-- DV7: ABORT in IDLE does nothing. -/
theorem test_abort_idle : exec .abort tinyBuilt = .next tinyBuilt := rfl

/-- R100: one entry. -/
theorem test_freqWrite :
    leaves (exec (.freqWrite 2 7) textbook) (fun t => t.freqs == [5, 9, 7, 13, 16, 45] && t.status == 0) = true := by decide
/-- BV9: the first symbol out of range is BAD_INDEX. -/
theorem test_freqWrite_bad_index :
    leaves (exec (.freqWrite 6 3) textbook) (fun t => t.freqs == textbook.freqs && t.status == 0x400) = true := by decide

/-- R101. -/
theorem test_freqClear : leaves (exec .freqClear textbook) (fun t => t.freqs == [0, 0, 0, 0, 0, 0] && t.status == 0) = true := by
  decide

/-- B1-6: the thirteen node images of the textbook tree. -/
theorem test_build_textbook :
    leaves (exec .build textbook) (fun t => t.root == 12 && t.sentinel == 6 && t.status == 0x10020 && t.nodes.map Node.image ==
      [0x2000000000000005, 0x2000000100000009, 0x200000020000000C, 0x200000030000000D, 0x2000000400000010, 0x200000050000002D,
       0x2000000600000001, 0xC0000C0000000006, 0xC0080E000000000F, 0xC018040000000019, 0xC02010000000001F, 0xC050120000000038,
       0xC0580A0000000065]) = true := by decide +kernel
/-- BV7: FREQ_OVERFLOW. -/
theorem test_build_overflow :
    leaves (exec .build { tiny with freqs := [0xFFFFFFFF] }) (fun t => t.status == 0x10C30 && t.nodeCount == 1) = true := by decide

/-- CV5 on the tiny tree: the root's image from R86, HASR = HASL = 1, R = 0, L = 1, FREQ = 6. -/
theorem test_readNode :
    leaves (exec (.readNode 2) tinyBuilt) (fun t => t.responses == [0xC000020000000006]) = true := by decide
/-- CV7: an index of NODE_CAP or more is BAD_INDEX and responds 0. -/
theorem test_readNode_bad_index :
    leaves (exec (.readNode 3) tinyBuilt) (fun t => t.responses == [0] && t.status == 0x10420) = true := by decide

/-- CV4 with the builder: CONFIG of N_SYM = 1, the word of R38 with bit 9 set. -/
theorem test_readReg : leaves (exec (.readReg 10) tiny) (fun t => t.responses == [0x6000E01]) = true := by decide
/-- CV8: register number 12. -/
theorem test_readReg_bad_index :
    leaves (exec (.readReg 12) tinyBuilt) (fun t => t.responses == [0] && t.status == 0x10420) = true := by decide

/-- CV11: IE_DONE with DONE = 1 raises irq. -/
theorem test_writeCtrl : leaves (exec (.writeCtrl 2) tinyBuilt) (fun t => t.irq && t.status == 0x30020) = true := by decide

/-- CV12: ACK 2 clears DONE and irq. -/
theorem test_ack : leaves (exec (.ack 2) { tinyBuilt with ctrl := 2 }) (fun t => !t.irq && t.status == 0x20) = true := by decide
/-- R174: ACK 1 clears ERR and keeps DONE. -/
theorem test_ack_err : leaves (exec (.ack 1) { tinyBuilt with err := .busy }) (fun t => t.status == 0x10020) = true := by decide

/-! ### The walker, the environment and the run -/

/-- R145, R153: a bit into a leaf whose symbol is not the sentinel. -/
theorem test_walk_to_leaf :
    leaves (walkerStep tinyWalk) (fun t => t.status == 0x24 && t.outSym == 0 && t.cursor == 0 && t.bitCount == 1 &&
      t.tokens == [.bit false]) = true := by decide
/-- R147: the symbol leaves and the walk restarts at the root. -/
theorem test_emit :
    leaves (walkerStep tinyEmit) (fun t => t.received == [0] && t.emitCount == 1 && t.cursor == 2 && t.status == 0x23) = true := by
  decide
/-- DV5: a child that is absent ends the decode with DEAD_END. -/
theorem test_dead_end :
    leaves (walkerStep { tinyWalk with nodes := [⟨none, some 1, none, 0⟩, ⟨some 0, none, none, 0⟩], root := 0, cursor := 0,
                                       tree := .loaded })
      (fun t => t.status == 0x14A10 && t.bitCount == 1) = true := by decide
/-- R240 (iii): a SOURCE without an end whose list is used up offers the first token of its block, and the rest of it after. -/
theorem test_endless_source :
    leaves (walkerStep { tinyWalk with tokens := [], sourceTail := .repeats (.bit true) [.bit false] })
      (fun t => t.outSym == 0 && t.tokens == [.bit false] && t.sourceTail == .repeats (.bit true) [.bit false]) = true := by decide
/-- R230: every output is 0 while rst = 1, in a mode in which bit_ready is 1 otherwise. -/
theorem test_outputs_in_reset :
    { tinyWalk with turns := [Turn.reset] }.outputs = .low ∧ tinyWalk.outputs = ⟨true, false, true, false, none, false⟩ := by decide
/-- R64: the tokens of the byte 0x66 (S4). -/
theorem test_tokens_of_byte :
    tokensOfBytes [0x66] = [false, true, true, false, false, true, true, false].map Token.bit ++ [.eos] := by decide
/-- B1-6's paths of the symbols 5 and 1 and of the sentinel, on the built textbook table. -/
theorem test_paths :
    leaves (exec .build textbook) (fun t => t.pathOf 5 == some [false] && t.pathOf 1 == some [true, true, false, true] &&
      t.pathOf 6 == some [true, true, false, false, false]) = true := by decide +kernel
/-- The host's placement: the very next step runs the word. -/
theorem test_withFetchWord :
    step (State.reset.withFetchWord 64 0xD000000000000003) = .next { State.reset with ctrl := 3 } := rfl
/-- R240: from reset with nothing placed, the run has ended. -/
theorem test_reset_has_no_step : step State.reset = .fault .runEnded := by
  cases h : Config.freeTurn 0 <;> simp [step, takeTurn, State.reset, State.resetWith, agentStep, State.hostEnabled, State.cmdReady,
    State.walkerEnabled, State.noStep]

/-! ### The invariant on small states -/

theorem tinyBuilt_reached : ∀ i : Idx, i.toNat < 3 → Reaches tinyBuilt.nodes 2 i := by
  intro i hi
  have h : i = 0 ∨ i = 1 ∨ i = 2 := by
    rcases (by omega : i.toNat = 0 ∨ i.toNat = 1 ∨ i.toNat = 2) with h | h | h
    · exact .inl (BitVec.eq_of_toNat_eq h)
    · exact .inr (.inl (BitVec.eq_of_toNat_eq h))
    · exact .inr (.inr (BitVec.eq_of_toNat_eq h))
  rcases h with rfl | rfl | rfl
  · exact .child .root (by decide)
  · exact .child .root (by decide)
  · exact .root

theorem tinyLoaded_reached : ∀ i : Idx, i.toNat < 3 → Reaches tinyLoaded.nodes 0 i := by
  intro i hi
  have h : i = 0 ∨ i = 1 ∨ i = 2 := by
    rcases (by omega : i.toNat = 0 ∨ i.toNat = 1 ∨ i.toNat = 2) with h | h | h
    · exact .inl (BitVec.eq_of_toNat_eq h)
    · exact .inr (.inl (BitVec.eq_of_toNat_eq h))
    · exact .inr (.inr (BitVec.eq_of_toNat_eq h))
  rcases h with rfl | rfl | rfl
  · exact .root
  · exact .child .root (by decide)
  · exact .child .root (by decide)

/-- The tiny built tree in IDLE, with DECODE as the next command and the stream of the symbol 0 and of the sentinel. -/
def tinyReady : State :=
  { tinyBuilt with commands := [0x6000000000000000], tokens := [.bit true, .bit false, .eos], sink := .acceptsAll }

theorem test_inv_ready : Inv tinyReady where
  bounds := ⟨by decide, by decide, by decide, by decide, by decide⟩
  not_build := by decide
  queue_empty := by decide
  freqs_size := by decide
  depth_bound := by decide
  empty_tree := by intro _ h; cases h
  loaded_tree := by intro _ h; cases h
  built_tree := fun _ => ⟨by decide, by decide, tinyBuilt_reached, by decide, by decide, by decide⟩
  builder := by intro h; cases h
  open_record := by intro h; cases h
  decoding := by rintro (h | h) <;> cases h

theorem test_inv_walk : Inv tinyWalk where
  bounds := ⟨by decide, by decide, by decide, by decide, by decide⟩
  not_build := by decide
  queue_empty := by decide
  freqs_size := by decide
  depth_bound := by decide
  empty_tree := by intro _ h; cases h
  loaded_tree := by intro _ h; cases h
  built_tree := fun _ => ⟨by decide, by decide, tinyBuilt_reached, by decide, by decide, by decide⟩
  builder := by intro h; cases h
  open_record := by intro h; cases h
  decoding := fun _ => ⟨by decide, by decide, by decide, by decide, by decide, by decide⟩

theorem test_inv_emit : Inv tinyEmit where
  bounds := ⟨by decide, by decide, by decide, by decide, by decide⟩
  not_build := by decide
  queue_empty := by decide
  freqs_size := by decide
  depth_bound := by decide
  empty_tree := by intro _ h; cases h
  loaded_tree := by intro _ h; cases h
  built_tree := fun _ => ⟨by decide, by decide, tinyBuilt_reached, by decide, by decide, by decide⟩
  builder := by intro h; cases h
  open_record := by intro h; cases h
  decoding := fun _ => ⟨by decide, by decide, by decide, by decide, by decide, by decide⟩

theorem test_inv_loaded : Inv tinyLoaded where
  bounds := ⟨by decide, by decide, by decide, by decide, by decide⟩
  not_build := by decide
  queue_empty := by decide
  freqs_size := by decide
  depth_bound := by decide
  empty_tree := by intro _ h; cases h
  loaded_tree := fun _ _ => ⟨by decide, by decide, tinyLoaded_reached, by decide, by decide, by decide⟩
  built_tree := by intro h; cases h
  builder := by intro h; cases h
  open_record := by intro h; cases h
  decoding := by rintro (h | h) <;> cases h

/-- The invariant while a record is open, its cursor below the root. -/
theorem test_inv_open_record : Inv tinyDown where
  bounds := ⟨by decide, by decide, by decide, by decide, by decide⟩
  not_build := by decide
  queue_empty := by decide
  freqs_size := by decide
  depth_bound := by decide
  empty_tree := by intro h; exact absurd rfl h
  loaded_tree := by intro h; exact absurd rfl h
  built_tree := by intro h; cases h
  builder := by intro h; cases h
  open_record := fun _ => ⟨by decide, by decide, by decide, by decide, by decide +kernel, by decide, by decide, by decide⟩
  decoding := by rintro (h | h) <;> cases h

/-! ### States and operands that meet the hypotheses of the statements, one theorem per statement that has any -/

/-- The nine commands that are BUSY during a decode (R204). -/
def busyCommands : List Instr :=
  [.clear, .pathBegin 511, .pathBit true, .pathEnd, .setSentinel 0, .decode, .freqWrite 511 0, .freqClear, .build]

/-- The seven commands that truncate an open record (R124). -/
def truncatingCommands : List Instr := [.pathBegin 0, .setSentinel 511, .decode, .abort, .freqWrite 0 0, .freqClear, .build]

theorem test_meets_DecodeOfEncodeIsIdentity :
    (Instr.freqWrite 511 0xFFFFFFFF).wellFormed ⟨0, true⟩ = true ∧ (Instr.readNode 1023).wellFormed ⟨0, false⟩ = true := by decide
theorem test_meets_EncodeOfDecodeIsIdentity : decode ⟨0, true⟩ 0xB0000000000003FF = .ok (.readNode 1023) := by decide
theorem test_meets_LegalWordMatchesExactlyItsRow :
    decode ⟨0, true⟩ 0xA000000000000000 = .ok .build ∧ opcodeTable[10]? = some ⟨0xA000000000000000, 0xFFFFFFFFFFFFFFFF, true⟩ ∧
      OpcodeRow.selects ⟨0xA000000000000000, 0xFFFFFFFFFFFFFFFF, true⟩ 0xA000000000000000 = true := by decide
theorem test_meets_IllegalWordRecordsOnlyIllegalCmd :
    (∃ e, decode tiny.params 0xF000000000000000 = .error e) ∧ tiny.mode ≠ .build := ⟨⟨_, rfl⟩, by decide⟩
theorem test_meets_StepRunsTheDecodedCommand :
    let s := { tinyReady with turns := [Turn.host] }
    let t := { tinyReady with turns := [Turn.walker] }
    s.commands = [0x6000000000000000] ∧ s.mode ≠ .build ∧ decode s.params 0x6000000000000000 = .ok .decode ∧ s.turns = [.host] ∧
      t.turns = [.walker] ∧ t.walkerEnabled = false ∧ tinyReady.turns = [] ∧ tinyReady.walkerEnabled = false := by decide
theorem test_meets_EitherAgentMayStepFirst :
    let s := { tinyWalk with commands := [0x7000000000000000] }
    let t := { tinyEmit with commands := [0x7000000000000000] }
    s.hostEnabled = true ∧ s.walkerEnabled = true ∧ s.turns = [] ∧ t.hostEnabled = true ∧ t.walkerEnabled = true := by decide
theorem test_meets_ResetLeavesTheListedValues : Params.atDefaults.hasBuilder = true := by decide
theorem test_meets_ResetActsAlikeInEveryMode :
    { tinyWalk with turns := [Turn.reset] }.turns = [.reset] ∧ { tinyBuilt with turns := [Turn.reset] }.turns = [.reset] ∧
    { tinyEmit with turns := [Turn.reset, Turn.host] }.turns = .reset :: [.host] ∧ (∀ us, [Turn.host] ≠ .reset :: us) :=
  ⟨by decide, by decide, by decide, by simp⟩
theorem test_meets_RunsEndOrStickAsDefined :
    (tinyBuilt.commands = [] ∧ tinyBuilt.turns = [] ∧ Ended tinyBuilt) ∧
    (let s := { tinyWalk with tokens := [] }; s.commands = [] ∧ s.turns = [] ∧ WalkerStuck s) ∧
    (let s := { tinyEmit with sink := .accepts 0 }; s.commands = [] ∧ s.turns = [] ∧ WalkerStuck s) ∧
    (tinyWalk.commands = [] ∧ ¬ Ended tinyWalk ∧ ¬ WalkerStuck tinyWalk) := by decide

theorem test_meets_TreeCommandsAreBusyDuringADecode :
    tinyWalk.mode = .walk ∧ tinyEmit.mode = .emit ∧ busyCommands.all (fun i => i.wellFormed tinyWalk.params) = true := by decide
theorem test_meets_OtherCommandsTruncateAnOpenRecord :
    tinyDown.mode = .load ∧ truncatingCommands.all (fun i => i.wellFormed tinyDown.params) = true := by decide
theorem test_meets_PathCommandsInIdleRecordNoRecord : tiny.mode = .idle ∧ tinyBuilt.mode = .idle := by decide
theorem test_meets_FirstErrorStaysUntilCleared :
    (∃ t, step { tinyBuilt with err := .busy, commands := [0x0000000000000000], turns := [.host] } = .next t ∧ t.err = .busy) ∧
    (∃ t, step { tinyBuilt with err := .busy, commands := [0xE000000000000003], turns := [.host] } = .next t ∧ t.err = .none) ∧
    (∃ t, step { tinyBuilt with err := .busy, commands := [0x1000000000000000], turns := [.host] } = .next t ∧ t.err = .none) ∧
    (∃ t, step { tinyBuilt with err := .busy, turns := [.reset] } = .next t ∧ t.err = .none) :=
  ⟨⟨_, rfl, rfl⟩, ⟨_, rfl, rfl⟩, ⟨_, rfl, rfl⟩, ⟨_, rfl, rfl⟩⟩
theorem test_meets_BuilderCommandsNeedTheBuilder :
    (State.resetWith ⟨0, false⟩).params.hasBuilder = false ∧ (State.resetWith ⟨0, false⟩).mode ≠ .build := by decide

theorem test_meets_NopChangesNothing :
    tiny.mode ≠ .build ∧ tinyDown.mode ≠ .build ∧ tinyWalk.mode ≠ .build ∧ tinyEmit.mode ≠ .build := by decide
/-- The three cases at their boundaries: NODE_CAP = 3 at N_SYM = 1, so 3 is out of range; 2 is a free entry of a table of two
entries; 1 is its last entry. -/
theorem test_meets_ReadNodeRespondsTheImage :
    tinyDown.mode ≠ .build ∧ tinyDown.params.nodeCap ≤ (3 : Idx).toNat ∧
    ((2 : Idx).toNat < tinyDown.params.nodeCap ∧ tinyDown.nodes.length ≤ (2 : Idx).toNat) ∧
    ((1 : Idx).toNat < tinyDown.params.nodeCap ∧ tinyDown.nodes[(1 : Idx).toNat]? = some Node.zero) := by decide
theorem test_meets_ReadRegRespondsTheRegister :
    tinyEmit.mode ≠ .build ∧ 12 ≤ (12 : BitVec 4).toNat ∧ 12 ≤ (15 : BitVec 4).toNat ∧ ¬ 12 ≤ (11 : BitVec 4).toNat := by decide
theorem test_meets_WriteCtrlSetsTheEnables : tinyBuilt.mode ≠ .build ∧ { tinyBuilt with ctrl := 2 }.irq = true := by decide
theorem test_meets_AckClearsTheMaskedBits : tinyBuilt.mode ≠ .build ∧ tinyWalk.mode ≠ .build := by decide

theorem test_meets_ClearEmptiesTheTree : tinyBuilt.mode = .idle ∧ tinyDown.mode = .load := by decide
theorem test_meets_PathBeginOpensARecord :
    (tiny.mode = .idle ∧ tiny.tree = .empty) ∧ (tinyLoaded.mode = .idle ∧ tinyLoaded.tree = .loaded) ∧
    (tinyBuilt.mode = .idle ∧ tinyBuilt.tree = .built) ∧
    (let s := { tiny with tree := .bad }; s.mode = .idle ∧ s.tree = .bad) := by decide
/-- Both bits: a left child, and, on the loaded tree, a right one. -/
theorem test_meets_PathBitDescendsAnExistingChild :
    (let s := { tinyDown with cursor := 0, loadDepth := 0 }
     s.mode = .load ∧ (s.nodeRead s.cursor).sym = none ∧ (s.nodeRead s.cursor).left = some 1 ∧
       s.loadDepth.toNat + 1 < s.params.nodeCap) ∧
    (let s := { tinyLoaded with mode := .load, loadDepth := 0 }
     s.mode = .load ∧ (s.nodeRead s.cursor).sym = none ∧ (s.nodeRead s.cursor).right = some 2 ∧
       s.loadDepth.toNat + 1 < s.params.nodeCap) := by decide
/-- An empty table, and the last free entry of NODE_CAP = 3 at the greatest depth. -/
theorem test_meets_PathBitCreatesAnAbsentChild :
    (tinyLoad.mode = .load ∧ tinyLoad.nodes[tinyLoad.cursor.toNat]? = some Node.zero ∧ Node.zero.sym = none ∧
      Node.zero.left = none ∧ Node.zero.right = none ∧ tinyLoad.nodes.length < tinyLoad.params.nodeCap ∧
      tinyLoad.loadDepth.toNat + 1 < tinyLoad.params.nodeCap) ∧
    (tinyDown.mode = .load ∧ tinyDown.nodes[tinyDown.cursor.toNat]? = some Node.zero ∧
      tinyDown.nodes.length + 1 = tinyDown.params.nodeCap ∧ tinyDown.loadDepth.toNat + 2 = tinyDown.params.nodeCap) := by decide
theorem test_meets_PathBitRefusesAMalformedPath :
    (let s := { tinyLoaded with mode := .load, cursor := 1 }; s.mode = .load ∧ (s.nodeRead s.cursor).sym ≠ none) ∧
    (let s := { tinyLoad with nodes := [⟨none, some 1, none, 0⟩, ⟨none, some 2, none, 0⟩, Node.zero], cursor := 2 }
     s.mode = .load ∧ (s.nodeRead s.cursor).sym = none ∧ (s.nodeRead s.cursor).left = none ∧ (s.nodeRead s.cursor).right = none ∧
       s.nodes.length = s.params.nodeCap) := by decide
theorem test_meets_PathEndLabelsTheCursorNode :
    (tinyDown.mode = .load ∧ tinyDown.nodes[tinyDown.cursor.toNat]? = some Node.zero) ∧
    (let s := { tinyLoaded with mode := .load, cursor := 1 }
     s.mode = .load ∧ s.nodes[s.cursor.toNat]? = some ⟨some 1, none, none, 0⟩) ∧
    (let s := { tinyDown with cursor := 0 }
     s.mode = .load ∧ s.nodes[s.cursor.toNat]? = some ⟨none, some 1, none, 0⟩) := by decide

theorem test_meets_SetSentinelWritesSentinel : tinyBuilt.mode = .idle := by decide
theorem test_meets_DecodeStartsTheWalk :
    (tinyBuilt.mode = .idle ∧ tinyBuilt.tree = .built ∧ (tinyBuilt.nodeRead tinyBuilt.root).isLeaf = false) ∧
    (tinyLoaded.mode = .idle ∧ tinyLoaded.tree = .loaded ∧ (tinyLoaded.nodeRead tinyLoaded.root).isLeaf = false) ∧
    (tiny.mode = .idle ∧ tiny.tree = .empty) := by decide
theorem test_meets_RootOnlyDecodeEndsAtOnce :
    let s := { tiny with nodes := [⟨some 7, none, none, 0⟩], tree := .loaded }
    s.mode = .idle ∧ s.tree = .loaded ∧ (s.nodeRead s.root).left = none ∧ (s.nodeRead s.root).right = none := by decide
theorem test_meets_AbortEndsTheDecode : tinyWalk.mode = .walk ∧ tinyEmit.mode = .emit ∧ tiny.mode = .idle := by decide
/-- The SOURCE offers from its list, from the block it repeats and from the free stream. -/
theorem test_meets_Offers :
    Offers tinyWalk (.bit true) [.bit false] .ends ∧
    Offers { tinyWalk with tokens := [], sourceTail := .repeats .eos [] } .eos [] (.repeats .eos []) ∧
    Offers { tinyWalk with tokens := [], sourceTail := .free 3 } (Config.freeToken 3) [] (.free 4) :=
  ⟨.inl ⟨rfl, rfl⟩, .inr (.inl ⟨rfl, rfl, rfl⟩), .inr (.inr ⟨rfl, rfl, 3, rfl, rfl, rfl⟩)⟩
/-- EOS; a bit toward an absent child; toward an internal node; toward a leaf without a label; toward the sentinel's leaf; and
toward another symbol's leaf. -/
theorem test_meets_WalkStepFollowsOneToken :
    (let s := { tinyWalk with tokens := [.eos] }; s.mode = .walk ∧ Offers s .eos [] .ends) ∧
    (let s := { tinyWalk with nodes := [⟨none, some 1, none, 0⟩, ⟨none, some 2, none, 0⟩, Node.zero], root := 0, cursor := 0 }
     s.mode = .walk ∧ Offers s (.bit true) [.bit false] .ends ∧ (s.nodeRead s.cursor).right = none ∧
       (s.nodeRead s.cursor).left = some 1 ∧ (s.nodeRead 1).left ≠ none ∧ (s.nodeRead 1).left = some 2 ∧
       (s.nodeRead 2).left = none ∧ (s.nodeRead 2).right = none ∧ (s.nodeRead 2).sym = none) ∧
    (tinyWalk.mode = .walk ∧ (tinyWalk.nodeRead tinyWalk.cursor).left = some 1 ∧ (tinyWalk.nodeRead 1).left = none ∧
      (tinyWalk.nodeRead 1).right = none ∧ (tinyWalk.nodeRead 1).sym = some tinyWalk.sentinel) ∧
    ((tinyWalk.nodeRead tinyWalk.cursor).right = some 0 ∧ (tinyWalk.nodeRead 0).sym = some 0 ∧ (0 : Sym) ≠ tinyWalk.sentinel) :=
  ⟨⟨by decide, .inl (by decide)⟩, ⟨by decide, .inl (by decide), by decide⟩, by decide, by decide⟩
theorem test_meets_EmitStepHandsOverTheSymbol :
    (tinyEmit.mode = .emit ∧ tinyEmit.sink = .acceptsAll) ∧ { tinyEmit with sink := .accepts 1 }.sink = .accepts (0 + 1) ∧
    { tinyEmit with sink := .accepts 0 }.sink = .accepts 0 ∧ (tiny.mode ≠ .walk ∧ tiny.mode ≠ .emit) := by decide
theorem test_meets_NoStepOfADecodeWritesTheTree :
    (∃ t, tinyWalk.mode = .walk ∧ step { tinyWalk with turns := [.walker] } = .next t) ∧
    (∃ t, tinyEmit.mode = .emit ∧ step { tinyEmit with turns := [.walker] } = .next t) ∧
    (∃ t, step { tinyWalk with turns := [.host], commands := [0x1000000000000000] } = .next t ∧ t.err = .busy) :=
  ⟨⟨_, rfl, rfl⟩, ⟨_, rfl, rfl⟩, ⟨_, rfl, rfl⟩⟩
theorem test_meets_TokensAndSymbolsKeepTheirOrder :
    (∃ t, step { tinyWalk with turns := [.walker] } = .next t ∧ t.tokens = [.bit false]) ∧
    (∃ t, step { tinyEmit with turns := [.walker] } = .next t ∧ t.received = [0]) ∧
    ((∀ ts, tinyEmit.turns ≠ .reset :: ts) ∧ tinyEmit.outputs.symValid = true ∧ tinyWalk.outputs.bitReady = true) :=
  ⟨⟨_, rfl, rfl⟩, ⟨_, rfl, rfl⟩, by simp [tinyEmit, tinyWalk, tinyBuilt, tiny, State.resetWith], by decide, by decide⟩
/-- The stream of the one symbol 0: its path 1, the sentinel's path 0, and an EOS that is not taken. -/
theorem test_meets_DecodeReproducesTheEncodedSymbols :
    Inv tinyReady ∧ tinyReady.mode = .idle ∧ tinyReady.tree = .built ∧ (tinyReady.nodeRead tinyReady.root).isLeaf = false ∧
    (∀ x ∈ [(0 : Sym)], x ≠ tinyReady.sentinel) ∧ tinyReady.encodeSymbols [0] = some [true, false] ∧
    tinyReady.tokens = [true, false].map Token.bit ++ [.eos] ∧ tinyReady.sink = .acceptsAll ∧
    tinyReady.commands = [encode .decode] ∧ (∀ x ∈ tinyReady.turns, x ≠ .reset) := ⟨test_inv_ready, by decide⟩
theorem test_meets_DecodeEndsByTheFirstEos :
    ∃ s, Inv s ∧ s.mode = .walk ∧ s.tokens = [true, false].map Token.bit ++ Token.eos :: [] ∧ s.sink = .acceptsAll ∧
      s.commands = [] ∧ ∀ x ∈ s.turns, x ≠ .reset :=
  ⟨{ tinyWalk with tokens := [.bit true, .bit false, .eos] }, test_inv_walk.environment [] [.bit true, .bit false, .eos] .ends .acceptsAll [] [] [] 0, by decide⟩
/-- The same from EMIT, with the HOST and the WALKER named for turns. -/
theorem test_meets_DecodeEndsByTheFirstEos_in_emit :
    ∃ s, Inv s ∧ s.mode = .emit ∧ s.tokens = [false].map Token.bit ++ Token.eos :: [.bit true] ∧ s.sink = .acceptsAll ∧
      s.commands = [] ∧ s.turns = [.host, .walker] ∧ ∀ x ∈ s.turns, x ≠ .reset :=
  ⟨{ tinyEmit with tokens := [.bit false, .eos, .bit true], turns := [.host, .walker] },
   test_inv_emit.environment [] [.bit false, .eos, .bit true] .ends .acceptsAll [] [] [.host, .walker] 0, by decide⟩

theorem test_meets_FreqWriteWritesOneEntry :
    textbook.mode = .idle ∧ textbook.params.hasBuilder = true ∧ textbook.freqs.length = textbook.params.nSym ∧
    (5 : Sym).toNat < textbook.params.nSym ∧ textbook.params.nSym ≤ (6 : Sym).toNat ∧
    textbook.params.nSym ≤ (511 : Sym).toNat := by decide
theorem test_meets_FreqClearZeroesEveryEntry : textbook.mode = .idle ∧ textbook.params.hasBuilder = true := by decide
/-- BV7: the least frequency that does not fit. -/
theorem test_meets_BuildRefusesAnOverflowingSum :
    let s := { tiny with freqs := [0xFFFFFFFF] }
    s.mode = .idle ∧ s.params.hasBuilder = true ∧
      0xFFFFFFFF < ((List.range s.params.nSym).map fun i => (s.freqRead i).toNat).sum + 1 := by decide
/-- The textbook table, and BV6, the greatest frequency that fits. -/
theorem test_meets_BuildCompletesWithTheRootLast :
    (textbook.mode = .idle ∧ textbook.params.hasBuilder = true ∧ textbook.freqTotal ≤ 0xFFFFFFFF) ∧
    (let s := { tiny with freqs := [0xFFFFFFFE] }; s.freqTotal ≤ 0xFFFFFFFF ∧ s.freqTotal = 0xFFFFFFFF) := by decide
/-- The hypotheses of the statements about a built tree: R103, R106, R110 (a), (c), (d). -/
theorem test_meets_BuildAllocatesTheLeavesFirst :
    ∃ t, textbook.mode = .idle ∧ textbook.params.hasBuilder = true ∧ textbook.freqTotal ≤ 0xFFFFFFFF ∧
      exec .build textbook = .next t := ⟨_, rfl, rfl, by decide, rfl⟩
/-- An internal entry of the textbook tree: entry 7 of B1-6. -/
theorem test_meets_BuildMergesTheTwoLeastKeys :
    ∃ t n, textbook.mode = .idle ∧ textbook.params.hasBuilder = true ∧ textbook.freqTotal ≤ 0xFFFFFFFF ∧
      exec .build textbook = .next t ∧ t.nodes[7]? = some n ∧ n.isLeaf = false ∧ n = ⟨none, some 6, some 0, 6⟩ :=
  ⟨_, _, rfl, rfl, by decide, rfl, rfl, rfl, rfl⟩
theorem test_meets_BuiltRootCarriesTheTotal :
    ∃ t, textbook.mode = .idle ∧ textbook.params.hasBuilder = true ∧ textbook.freqTotal ≤ 0xFFFFFFFF ∧
      exec .build textbook = .next t ∧ t.nodeRead t.root = ⟨none, some 5, some 11, 101⟩ := ⟨_, rfl, rfl, by decide, rfl, rfl⟩
theorem test_meets_BuiltTreeHasOneLeafPerSymbol :
    ∃ t, textbook.mode = .idle ∧ textbook.params.hasBuilder = true ∧ textbook.freqTotal ≤ 0xFFFFFFFF ∧
      exec .build textbook = .next t ∧ t.paths.map Prod.fst = [5, 2, 3, 6, 0, 1, 4] := ⟨_, rfl, rfl, by decide, rfl, rfl⟩
theorem test_meets_LowerFrequencyNeverGetsAShorterPath :
    ∃ t, textbook.mode = .idle ∧ textbook.params.hasBuilder = true ∧ textbook.freqTotal ≤ 0xFFFFFFFF ∧
      exec .build textbook = .next t ∧ (0, [true, true, false, false, true]) ∈ t.paths ∧ (5, [false]) ∈ t.paths ∧
      (textbook.freqRead 0).toNat < (textbook.freqRead 5).toNat := ⟨_, rfl, rfl, by decide, rfl, by decide +kernel⟩
theorem test_meets_BuildOfTheZeroTableIsRootOnly :
    tiny.mode = .idle ∧ tiny.params.hasBuilder = true ∧ ∀ i < tiny.params.nSym, tiny.freqRead i = 0 := by decide
/-- One entry above 1, the one entry equal to 1, and the greatest that fits. -/
theorem test_meets_BuildOfOneSymbolHasTwoLeaves :
    (let s := { textbook with freqs := [0, 0, 0, 7, 0, 0] }
     s.mode = .idle ∧ s.params.hasBuilder = true ∧ 3 < s.params.nSym ∧ (∀ i < s.params.nSym, i ≠ 3 → s.freqRead i = 0) ∧
       1 ≤ (s.freqRead 3).toNat ∧ (s.freqRead 3).toNat ≤ 0xFFFFFFFE) ∧
    (let s := { tiny with freqs := [1] }; 0 < s.params.nSym ∧ (s.freqRead 0).toNat = 1) ∧
    (let s := { tiny with freqs := [0xFFFFFFFE] }; 0 < s.params.nSym ∧ (s.freqRead 0).toNat = 0xFFFFFFFE) := by decide
theorem test_meets_LoadingTheSerializedTreeRestoresIt :
    Inv tinyReady ∧ tinyReady.tree = .built ∧ tinyLoaded.mode = .idle ∧ tinyLoaded.params = tinyReady.params :=
  ⟨test_inv_ready, by decide⟩

/-- A step of each agent, of a command in an open record, and a reset, from states that meet the invariant. -/
theorem test_meets_EveryStepKeepsTheInvariant :
    (∃ t, Inv { tinyWalk with turns := [.walker] } ∧ step { tinyWalk with turns := [.walker] } = .next t) ∧
    (∃ t, Inv { tinyEmit with turns := [.walker] } ∧ step { tinyEmit with turns := [.walker] } = .next t) ∧
    (∃ t, Inv { tinyReady with turns := [.host] } ∧ step { tinyReady with turns := [.host] } = .next t) ∧
    (∃ t, Inv { tinyDown with commands := [0x4000000000000000], turns := [.host] } ∧
      step { tinyDown with commands := [0x4000000000000000], turns := [.host] } = .next t ∧ t.tree = .loaded) ∧
    (∃ t, Inv { tinyReady with turns := [.reset] } ∧ step { tinyReady with turns := [.reset] } = .next t) :=
  ⟨⟨_, test_inv_walk.environment [] [.bit true, .bit false] .ends .acceptsAll [] [] [.walker] 0, rfl⟩,
   ⟨_, test_inv_emit.environment [] [.bit false] .ends .acceptsAll [] [] [.walker] 0, rfl⟩,
   ⟨_, test_inv_ready.environment [0x6000000000000000] [.bit true, .bit false, .eos] .ends .acceptsAll [] [] [.host] 0, rfl⟩,
   ⟨_, test_inv_open_record.environment [0x4000000000000000] [] .ends (.accepts 0) [] [] [.host] 0, rfl, rfl⟩,
   ⟨_, test_inv_ready.environment [0x6000000000000000] [.bit true, .bit false, .eos] .ends .acceptsAll [] [] [.reset] 0, rfl⟩⟩
theorem test_meets_NoStepReachesAnUnreachableState : Inv tinyWalk ∧ Inv tinyEmit ∧ Inv tinyLoaded ∧ Inv tinyDown :=
  ⟨test_inv_walk, test_inv_emit, test_inv_loaded, test_inv_open_record⟩
theorem test_meets_CommandsWriteOnlyWhatTheirRulesName :
    (∃ t, exec (.writeCtrl 3) tinyBuilt = .next t ∧ t.ctrl ≠ tinyBuilt.ctrl) ∧
    (∃ t, exec .clear tinyBuilt = .next t ∧ t.nodes ≠ tinyBuilt.nodes ∧ t.tree ≠ tinyBuilt.tree ∧ t.cursor ≠ tinyBuilt.cursor) ∧
    (∃ t, exec .decode tinyBuilt = .next t ∧ t.mode ≠ tinyBuilt.mode) ∧
    (∃ t, exec .decode tinyDown = .next t ∧ t.err ≠ tinyDown.err ∧ t.tree ≠ tinyDown.tree ∧ t.mode ≠ tinyDown.mode ∧
      t.cursor ≠ tinyDown.cursor) :=
  ⟨⟨_, rfl, by decide⟩, ⟨_, rfl, by decide⟩, ⟨_, rfl, by decide⟩, ⟨_, rfl, by decide⟩⟩
theorem test_meets_RecordCommandsTouchOnlyTheCursorEntry :
    (∃ t, exec (.pathBit true) tinyDown = .next t ∧ t.nodes.length = 3) ∧ (∃ t, exec .pathEnd tinyDown = .next t) :=
  ⟨⟨_, rfl, by decide⟩, ⟨_, rfl⟩⟩
theorem test_meets_NoStepChangesTheParameters : ∃ t, step { tinyWalk with turns := [.walker] } = .next t := ⟨_, rfl⟩

theorem test_meets_TokensOfBytesAreMostSignificantFirst :
    [(0x66 : BitVec 8), 0x60][1]? = some 0x60 ∧ (7 : Nat) < 8 := by decide
theorem test_meets_FreqsExpansionFillsTheTable :
    textbook.mode = .idle ∧ textbook.params.hasBuilder = true ∧ textbook.freqs.length = textbook.params.nSym ∧
    [(1 : Freq), 0, 3].length ≤ textbook.params.nSym ∧ [(1 : Freq), 2, 3, 4, 5, 6].length ≤ textbook.params.nSym := by decide

end Sys2Proof.Tests
end

section
/-! PROOF SUPPORT. What each command's own rule can answer (30_encoding.md R83, column "rule"), and what one step can be, each said
once. Every own rule but PATH_BIT's gives a next state, whatever the state is. -/

namespace Sys2Proof.Machine

/-! ### The own rules -/

theorem freqWriteRule_cases (sym : Sym) (f : Freq) (s : State) :
    (sym.toNat < s.params.nSym ∧ freqWriteRule sym f s = .next (s.freqWrite sym f)) ∨
    (s.params.nSym ≤ sym.toNat ∧ freqWriteRule sym f s = .next (s.recordError .badIndex)) := by
  unfold freqWriteRule
  split
  · exact .inl ⟨‹_›, rfl⟩
  · exact .inr ⟨by omega, rfl⟩

theorem readNodeRule_cases (idx : Idx) (s : State) :
    (s.params.nodeCap ≤ idx.toNat ∧ readNodeRule idx s = .next ((s.recordError .badIndex).respond 0)) ∨
    (idx.toNat < s.params.nodeCap ∧ s.nodes.length ≤ idx.toNat ∧ readNodeRule idx s = .next (s.respond 0)) ∨
    (idx.toNat < s.params.nodeCap ∧ idx.toNat < s.nodes.length ∧
      readNodeRule idx s = .next (s.respond (s.nodeRead idx).image)) := by
  unfold readNodeRule
  split
  · exact .inl ⟨‹_›, rfl⟩
  · split
    · exact .inr (.inl ⟨by omega, ‹_›, rfl⟩)
    · exact .inr (.inr ⟨by omega, by omega, rfl⟩)

theorem readRegRule_cases (reg : BitVec 4) (s : State) :
    (∃ v, s.readRegister reg = some v ∧ readRegRule reg s = .next (s.respond v)) ∨
    (s.readRegister reg = none ∧ readRegRule reg s = .next ((s.recordError .badIndex).respond 0)) := by
  unfold readRegRule
  split
  · exact .inl ⟨_, ‹_›, rfl⟩
  · exact .inr ⟨‹_›, rfl⟩

theorem pathBeginRule_cases (sym : Sym) (s : State) :
    (s.tree.loadable = true ∧
      pathBeginRule sym s = .next { s with loadSym := sym, loadDepth := 0, cursor := s.root, mode := .load }) ∨
    (s.tree.loadable = false ∧ pathBeginRule sym s = .next (s.recordError .treeState)) := by
  unfold pathBeginRule
  split
  · exact .inl ⟨‹_›, rfl⟩
  · exact .inr ⟨by simp_all, rfl⟩

/-- PATH_BIT, in the order of R215: a labeled node on the way, an existing child, a full table, a new child (R122). -/
theorem pathBitRule_cases (b : Bool) (s : State) :
    ((s.nodeRead s.cursor).lab = true ∧ pathBitRule b s = .next (s.failLoad .malThroughLeaf)) ∨
    (∃ i, (s.nodeRead s.cursor).lab = false ∧ (s.nodeRead s.cursor).child b = some i ∧ pathBitRule b s = descendTo i s) ∨
    ((s.nodeRead s.cursor).lab = false ∧ (s.nodeRead s.cursor).child b = none ∧ s.nodes.length = s.params.nodeCap ∧
      pathBitRule b s = .next (s.failLoad .nodeOverflow)) ∨
    ((s.nodeRead s.cursor).lab = false ∧ (s.nodeRead s.cursor).child b = none ∧ s.nodes.length ≠ s.params.nodeCap ∧
      pathBitRule b s = descendTo s.nodeCount (s.createChild b)) := by
  unfold pathBitRule
  split
  · exact .inl ⟨‹_›, rfl⟩
  · have hlab : (s.nodeRead s.cursor).lab = false := by simp_all
    split
    · exact .inr (.inl ⟨_, hlab, ‹_›, rfl⟩)
    · split
      · exact .inr (.inr (.inl ⟨hlab, ‹_›, ‹_›, rfl⟩))
      · exact .inr (.inr (.inr ⟨hlab, ‹_›, ‹_›, rfl⟩))

theorem pathEndRule_cases (s : State) :
    ((s.nodeRead s.cursor).lab = true ∧ pathEndRule s = .next (s.failLoad .malRelabel)) ∨
    ((s.nodeRead s.cursor).lab = false ∧ (s.nodeRead s.cursor).isLeaf = true ∧ pathEndRule s = .next s.closeRecord) ∨
    ((s.nodeRead s.cursor).lab = false ∧ (s.nodeRead s.cursor).isLeaf = false ∧
      pathEndRule s = .next (s.failLoad .malLabelInternal)) := by
  unfold pathEndRule
  split
  · exact .inl ⟨‹_›, rfl⟩
  · split
    · exact .inr (.inl ⟨by simp_all, ‹_›, rfl⟩)
    · exact .inr (.inr ⟨by simp_all, by simp_all, rfl⟩)

theorem decodeRule_cases (s : State) :
    (s.tree.decodable = true ∧ (s.nodeRead s.root).isLeaf = true ∧
      decodeRule s = .next (s.startDecode.finishDecode .rootLeaf)) ∨
    (s.tree.decodable = true ∧ (s.nodeRead s.root).isLeaf = false ∧
      decodeRule s = .next { s.startDecode with mode := .walk }) ∨
    (s.tree.decodable = false ∧ decodeRule s = .next (s.recordError .treeState)) := by
  unfold decodeRule
  split
  · split
    · exact .inl ⟨‹_›, ‹_›, rfl⟩
    · exact .inr (.inl ⟨‹_›, by simp_all, rfl⟩)
  · exact .inr (.inr ⟨by simp_all, rfl⟩)

/-- BUILD overflows or completes (R104, R108): its arm for an empty queue is reached for no state. -/
theorem buildRule_cases (s : State) :
    (0xFFFFFFFF < s.freqTotal ∧ buildRule s = .next s.buildOverflow) ∨
    (s.freqTotal ≤ 0xFFFFFFFF ∧
      ∃ root, s.buildTables.queue = [root] ∧ buildRule s = .next (s.buildDone s.buildTables.nodes root [])) := by
  by_cases h : 0xFFFFFFFF < s.freqTotal
  · exact .inl ⟨h, by rw [buildRule, if_pos h]⟩
  · exact .inr ⟨by omega, buildRule_next s (by omega)⟩

/-- Every own rule but PATH_BIT's answers a next state of the same machine. -/
theorem ownRule_next {i : Instr} (hi : ∀ b, i ≠ .pathBit b) (s : State) :
    ∃ t, ownRule i s = .next t ∧ t.params = s.params := by
  cases i with
  | pathBit b => exact absurd rfl (hi b)
  | nop => exact ⟨_, rfl, rfl⟩
  | clear => exact ⟨_, rfl, rfl⟩
  | setSentinel sym => exact ⟨_, rfl, rfl⟩
  | abort => exact ⟨_, rfl, rfl⟩
  | freqClear => exact ⟨_, rfl, rfl⟩
  | writeCtrl v => exact ⟨_, rfl, rfl⟩
  | ack m => exact ⟨_, rfl, rfl⟩
  | pathBegin sym => rcases pathBeginRule_cases sym s with ⟨_, e⟩ | ⟨_, e⟩ <;> exact ⟨_, e, rfl⟩
  | pathEnd => rcases pathEndRule_cases s with ⟨_, e⟩ | ⟨_, _, e⟩ | ⟨_, _, e⟩ <;> exact ⟨_, e, rfl⟩
  | decode => rcases decodeRule_cases s with ⟨_, _, e⟩ | ⟨_, _, e⟩ | ⟨_, e⟩ <;> exact ⟨_, e, rfl⟩
  | freqWrite sym f => rcases freqWriteRule_cases sym f s with ⟨_, e⟩ | ⟨_, e⟩ <;> exact ⟨_, e, rfl⟩
  | build => rcases buildRule_cases s with ⟨_, e⟩ | ⟨_, root, _, e⟩ <;> exact ⟨_, e, rfl⟩
  | readNode idx => rcases readNodeRule_cases idx s with ⟨_, e⟩ | ⟨_, _, e⟩ | ⟨_, _, e⟩ <;> exact ⟨_, e, rfl⟩
  | readReg reg => rcases readRegRule_cases reg s with ⟨_, _, e⟩ | ⟨_, e⟩ <;> exact ⟨_, e, rfl⟩

/-- PATH_BIT's own rule runs in an open record and nowhere else (R87). -/
theorem accept_pathBit {m : Mode} {b : Bool} : accept m (.pathBit b) = .exec ↔ m = .load := by
  cases m <;> simp [accept, acceptRow]

/-! ### A word, a transfer, a step -/

/-- Everything a transferred word can be (R84, R88). -/
theorem executeWord_cases (w : Word64) (s : State) :
    (∃ i, decode s.params w = .ok i ∧ executeWord w s = exec i s) ∨
    (∃ e, decode s.params w = .error e ∧ executeWord w s = illegalWord s) := by
  unfold executeWord
  split
  · exact .inl ⟨_, ‹_›, rfl⟩
  · exact .inr ⟨_, ‹_›, rfl⟩

/-- Everything one transfer can be, with the mode that gives it (R51, R56, R145, R147). -/
theorem agentStep_transfers (first : Bool) (s : State) :
    (∃ w rest, s.mode ≠ .build ∧ s.commands = w :: rest ∧
      agentStep first s = executeWord w { s with commands := rest }) ∨
    (s.mode = .walk ∧ agentStep first s = walkStep s) ∨ (s.mode = .emit ∧ agentStep first s = emitStep s) ∨
    agentStep first s = .fault s.noStep := by
  rcases agentStep_cases first s with ⟨hh, e⟩ | ⟨_, e⟩ | ⟨_, _, e⟩
  · obtain ⟨hm, hc⟩ := (hostEnabled_iff s).1 hh
    obtain ⟨w, rest, hw⟩ := List.exists_cons_of_ne_nil hc
    exact .inl ⟨w, rest, hm, hw, by rw [e, hostStep_cons hw]⟩
  · rw [e]
    rcases walkerStep_cases s with h | h | ⟨_, _, h⟩
    · exact .inr (.inl h)
    · exact .inr (.inr (.inl h))
    · exact .inr (.inr (.inr h))
  · exact .inr (.inr (.inr e))

/-- Every step is a reset edge, or a transfer on the state whose turn is used up (R58, R70). -/
theorem step_resets_or_transfers (s : State) :
    (∃ rest, s.turns = .reset :: rest ∧ step s = .next { s with turns := rest }.resetBlock) ∨
    (∃ first turns n, step s = agentStep first { s with turns := turns, freeTurns := n }) := by
  rcases step_cases s with h | ⟨rest, first, _, e⟩ | ⟨_, e⟩
  · exact .inl h
  · exact .inr ⟨first, rest, s.freeTurns, e⟩
  · exact .inr ⟨_, s.turns, s.freeTurns + 1, e⟩

end Sys2Proof.Machine
end

section
/-! PROOF. No step from the invariant reaches UnreachableState (00_scope.md R14, 60_exceptions.md R223). Two places could: the
last line of PATH_BIT, where the open record's tree bounds LOAD_DEPTH (R37), and the walker at a leaf, which a decodable tree
labels (R146). -/

namespace Sys2Proof.Machine

/-- Where the command port takes words, a state in which no agent steps only says so. -/
theorem safeOutcome_noStep {s : State} (hm : s.mode ≠ .build) : SafeOutcome (.fault s.noStep) := by
  unfold State.noStep
  cases h : s.mode with
  | build => exact absurd h hm
  | idle => trivial
  | load => trivial
  | walk => trivial
  | emit => trivial

/-- PATH_BIT in an open record: the cursor's index bounds LOAD_DEPTH, and every step down meets a greater index (R37, R127). -/
theorem Inv.safe_pathBit {s : State} (h : Inv s) (hm : s.mode = .load) (b : Bool) : SafeOutcome (pathBitRule b s) := by
  rcases pathBitRule_cases b s with ⟨_, e⟩ | ⟨i, _, hc, e⟩ | ⟨_, _, _, e⟩ | ⟨hlab, hc, hfull, e⟩ <;> rw [e]
  · trivial
  · rw [descendTo_next (h.pathBitDescend hm hc).1]
    trivial
  · trivial
  · rw [descendTo_next (s := s.createChild b) (h.pathBitCreate hm hlab hc hfull).1]
    trivial

theorem Inv.safe_exec {s : State} (h : Inv s) (i : Instr) : SafeOutcome (exec i s) := by
  rcases exec_cases i s with ⟨_, ha, e⟩ | ⟨_, _, e⟩ | ⟨_, _, e⟩ | ⟨_, _, e⟩ | ⟨hm, _⟩
  · rw [e]
    by_cases hi : ∃ b, i = .pathBit b
    · obtain ⟨b, rfl⟩ := hi
      exact h.safe_pathBit (accept_pathBit.1 ha) b
    · obtain ⟨t, ht, _⟩ := ownRule_next (fun b hb => hi ⟨b, hb⟩) s
      rw [ht]
      trivial
  · rw [e]; trivial
  · rw [e]; trivial
  · rw [e]; trivial
  · exact absurd hm h.not_build

theorem Inv.safe_executeWord {s : State} (h : Inv s) (w : Word64) : SafeOutcome (executeWord w s) := by
  rcases executeWord_cases w s with ⟨i, _, e⟩ | ⟨_, _, e⟩ <;> rw [e]
  · exact h.safe_exec i
  · rw [illegalWord_next h.not_build]
    trivial

/-- The leaf tests meet no leaf without a label. -/
theorem safeOutcome_arrive {s : State} (hl : LeavesLabeled s.nodes) (hc : s.cursor.toNat < s.nodes.length) :
    SafeOutcome (arrive s) := by
  rcases arrive_cases s with ⟨_, e⟩ | ⟨hleaf, hs, _⟩ | ⟨_, _, e⟩ | ⟨_, _, _, _, e⟩
  · rw [e]; trivial
  · have hlab : (s.nodeRead s.cursor).lab = (s.nodeRead s.cursor).isLeaf := hl _ (nodeAt_mem hc)
    simp [Node.lab, hs, hleaf] at hlab
  · rw [e]; trivial
  · rw [e]; trivial

/-- WalkStep follows a child link of a decodable tree, to an allocated entry (R45 (a), (c)). -/
theorem Inv.safe_walkStep {s : State} (h : Inv s) (hm : s.mode = .walk) : SafeOutcome (walkStep s) := by
  have hl : LeavesLabeled s.nodes := h.labeled (by rw [hm]; decide) (h.decoding (.inl hm)).decodable
  rcases walkStep_cases s with ⟨_, _, e⟩ | ⟨_, _, _, e⟩ | ⟨b, tokens, tail, _, e⟩ <;> rw [e]
  · trivial
  · trivial
  · rcases walkBit_cases b { s with tokens := tokens, sourceTail := tail, bitCount := s.bitCount + 1 } with
      ⟨_, e⟩ | ⟨i, hc, e⟩ <;> rw [e]
    · trivial
    · have hi : i.toNat < s.nodes.length :=
        h.bounds.child_lt _ (nodeAt_mem h.bounds.cursor_lt) i (mem_children_of_child hc)
      exact safeOutcome_arrive hl hi

theorem safeOutcome_emitStep (s : State) : SafeOutcome (emitStep s) := by
  rcases emitStep_cases s with ⟨_, e⟩ | ⟨_, _, e⟩ <;> rw [e] <;> trivial

theorem Inv.safe_agentStep {s : State} (h : Inv s) (first : Bool) : SafeOutcome (agentStep first s) := by
  rcases agentStep_transfers first s with ⟨w, rest, _, _, e⟩ | ⟨hm, e⟩ | ⟨_, e⟩ | e <;> rw [e]
  · exact (h.environment rest s.tokens s.sourceTail s.sink s.responses s.received s.turns s.freeTurns).safe_executeWord w
  · exact h.safe_walkStep hm
  · exact safeOutcome_emitStep s
  · exact safeOutcome_noStep h.not_build

/-- Settles O54: a reset edge gives a state, and every transfer is safe from a state that meets the invariant. -/
theorem noStepReachesAnUnreachableState : Obligations.NoStepReachesAnUnreachableState := by
  intro s h
  rcases step_resets_or_transfers s with ⟨_, _, e⟩ | ⟨first, turns, n, e⟩ <;> rw [e]
  · trivial
  · exact (h.environment s.commands s.tokens s.sourceTail s.sink s.responses s.received turns n).safe_agentStep first

end Sys2Proof.Machine
end

section
/-! PROOF. A builder command on a machine without the builder (00_scope.md R8, 30_encoding.md R84 (c)). -/

namespace Sys2Proof.Machine

/-- A word that reads as a command this machine lacks is rejected for that reason (R84 (c)). -/
theorem decode_of_not_wellFormed {p : Params} {w : Word64} {i : Instr} (hd : decodeWord w = .ok i)
    (hw : i.wellFormed p = false) : decode p w = .error .builderAbsent := by
  simp [decode, hd, hw]

/-- The word of every command is read as that command, field by field (R81 to R83). -/
theorem decodeWord_encode (i : Instr) : decodeWord (encode i) = .ok i := by
  cases i <;> simp [decodeWord, encode, ifUnusedZero, highBits_setWidth]

/-- Settles O15: such a command is not well formed, so exec answers as to an illegal word, and the decoder rejects its word. -/
theorem builderCommandsNeedTheBuilder : Obligations.BuilderCommandsNeedTheBuilder := by
  intro s i hb hm hi
  have hn : i.needsBuilder = true := by rcases hi with ⟨_, _, rfl⟩ | rfl | rfl <;> rfl
  have hw : i.wellFormed s.params = false := by simp [Instr.wellFormed, hb, hn]
  exact ⟨exec_illegal hw hm, decode_of_not_wellFormed (decodeWord_encode i) hw⟩

end Sys2Proof.Machine
end

section
/-! PROOF. No step changes the parameters (00_scope.md R4, R8). -/

namespace Sys2Proof.Machine

/-- A next state, if there is one, is of the machine with parameters `p`. -/
def KeepsParams (p : Params) (o : Out) : Prop := ∀ t, o = .next t → t.params = p

theorem keepsParams_next {p : Params} {t : State} : KeepsParams p (.next t) ↔ t.params = p := by
  simp [KeepsParams]

theorem keepsParams_fault (p : Params) (r : Fault) : KeepsParams p (.fault r) := by
  simp [KeepsParams]

theorem keepsParams_descendTo (i : Idx) (s : State) : KeepsParams s.params (descendTo i s) := by
  rcases descendTo_cases i s with ⟨_, e⟩ | ⟨_, e⟩ <;> rw [e]
  · exact keepsParams_next.2 rfl
  · exact keepsParams_fault _ _

theorem keepsParams_pathBitRule (b : Bool) (s : State) : KeepsParams s.params (pathBitRule b s) := by
  rcases pathBitRule_cases b s with ⟨_, e⟩ | ⟨i, _, _, e⟩ | ⟨_, _, _, e⟩ | ⟨_, _, _, e⟩ <;> rw [e]
  · exact keepsParams_next.2 rfl
  · exact keepsParams_descendTo i s
  · exact keepsParams_next.2 rfl
  · exact keepsParams_descendTo s.nodeCount (s.createChild b)

theorem keepsParams_exec (i : Instr) (s : State) : KeepsParams s.params (exec i s) := by
  rcases exec_cases i s with ⟨_, _, e⟩ | ⟨_, _, e⟩ | ⟨_, _, e⟩ | ⟨_, _, e⟩ | ⟨_, e⟩ <;> rw [e]
  · by_cases hi : ∃ b, i = .pathBit b
    · obtain ⟨b, rfl⟩ := hi
      exact keepsParams_pathBitRule b s
    · obtain ⟨t, ht, hp⟩ := ownRule_next (fun b hb => hi ⟨b, hb⟩) s
      rw [ht]
      exact keepsParams_next.2 hp
  · exact keepsParams_next.2 rfl
  · exact keepsParams_next.2 rfl
  · exact keepsParams_next.2 rfl
  · exact keepsParams_fault _ _

theorem keepsParams_arrive (s : State) : KeepsParams s.params (arrive s) := by
  rcases arrive_cases s with ⟨_, e⟩ | ⟨_, _, e⟩ | ⟨_, _, e⟩ | ⟨_, _, _, _, e⟩ <;> rw [e]
  · exact keepsParams_next.2 rfl
  · exact keepsParams_fault _ _
  · exact keepsParams_next.2 rfl
  · exact keepsParams_next.2 rfl

theorem keepsParams_walkBit (b : Bool) (s : State) : KeepsParams s.params (walkBit b s) := by
  rcases walkBit_cases b s with ⟨_, e⟩ | ⟨i, _, e⟩ <;> rw [e]
  · exact keepsParams_next.2 rfl
  · exact keepsParams_arrive { s with cursor := i }

theorem keepsParams_walkStep (s : State) : KeepsParams s.params (walkStep s) := by
  rcases walkStep_cases s with ⟨_, _, e⟩ | ⟨_, _, _, e⟩ | ⟨b, _, _, _, e⟩ <;> rw [e]
  · exact keepsParams_fault _ _
  · exact keepsParams_next.2 rfl
  · exact keepsParams_walkBit b _

theorem keepsParams_emitStep (s : State) : KeepsParams s.params (emitStep s) := by
  rcases emitStep_cases s with ⟨_, e⟩ | ⟨_, _, e⟩ <;> rw [e]
  · exact keepsParams_fault _ _
  · exact keepsParams_next.2 rfl

theorem keepsParams_executeWord {s : State} (hm : s.mode ≠ .build) (w : Word64) :
    KeepsParams s.params (executeWord w s) := by
  rcases executeWord_cases w s with ⟨i, _, e⟩ | ⟨_, _, e⟩ <;> rw [e]
  · exact keepsParams_exec i s
  · rw [illegalWord_next hm]
    exact keepsParams_next.2 rfl

theorem keepsParams_agentStep (first : Bool) (s : State) : KeepsParams s.params (agentStep first s) := by
  rcases agentStep_transfers first s with ⟨w, rest, hm, _, e⟩ | ⟨_, e⟩ | ⟨_, e⟩ | e <;> rw [e]
  · exact keepsParams_executeWord (s := { s with commands := rest }) hm w
  · exact keepsParams_walkStep s
  · exact keepsParams_emitStep s
  · exact keepsParams_fault _ _

/-- Settles O57: a reset edge reads the parameters and gives them back, and no transfer writes them. -/
theorem noStepChangesTheParameters : Obligations.NoStepChangesTheParameters := by
  intro s
  change KeepsParams s.params (step s)
  rcases step_resets_or_transfers s with ⟨_, _, e⟩ | ⟨first, turns, n, e⟩ <;> rw [e]
  · exact keepsParams_next.2 rfl
  · exact keepsParams_agentStep first { s with turns := turns, freeTurns := n }

end Sys2Proof.Machine
end

section
/-! PROOF SUPPORT. What holds of every next state of an outcome, and the modes in which a command's own rule runs (30_encoding.md
R87). -/

namespace Sys2Proof.Machine

/-- The outcome's next state, if it gives one, meets `P`. -/
def NextMeets (P : State → Prop) (o : Out) : Prop := ∀ t, o = .next t → P t

@[simp] theorem nextMeets_next {P : State → Prop} {t : State} : NextMeets P (.next t) ↔ P t := by
  simp [NextMeets]

@[simp] theorem nextMeets_fault (P : State → Prop) (r : Fault) : NextMeets P (.fault r) := by
  simp [NextMeets]

/-- The commands of R87's row (exec, TRUNC, BUSY) run in IDLE alone. -/
theorem mode_of_accept_idle {m : Mode} {i : Instr} (hr : acceptRow i = ⟨.exec, .trunc, .busy⟩) (ha : accept m i = .exec) :
    m = .idle := by
  cases m <;> simp_all [accept]

theorem mode_of_accept_clear {m : Mode} (ha : accept m .clear = .exec) : m = .idle ∨ m = .load := by
  cases m <;> simp_all [accept, acceptRow]

theorem mode_of_accept_pathEnd {m : Mode} (ha : accept m .pathEnd = .exec) : m = .load := by
  cases m <;> simp_all [accept, acceptRow]

theorem mode_of_accept_abort {m : Mode} (ha : accept m .abort = .exec) : m = .walk ∨ m = .emit := by
  cases m <;> simp_all [accept, acceptRow]

end Sys2Proof.Machine
end

section
/-! PROOF. Every step keeps the invariant (10_state.md R45, R37, R43, R44, 40_builder.md R105), by the agents' rules: the laws of
Laws/Invariant.lean say what each operation keeps, and what is proved here is that a step is made of those operations, each in a
mode and on a tree where its law holds. -/

namespace Sys2Proof.Machine

/-! ### The HOST's commands -/

theorem Inv.nextMeets_pathBegin {s : State} (h : Inv s) (hm : s.mode = .idle) (sym : Sym) :
    NextMeets Inv (pathBeginRule sym s) := by
  rcases pathBeginRule_cases sym s with ⟨ht, e⟩ | ⟨_, e⟩ <;> rw [e, nextMeets_next]
  · exact h.pathBegin hm ht sym
  · exact h.recordError _

theorem Inv.nextMeets_pathBit {s : State} (h : Inv s) (hm : s.mode = .load) (b : Bool) : NextMeets Inv (pathBitRule b s) := by
  rcases pathBitRule_cases b s with ⟨_, e⟩ | ⟨i, _, hc, e⟩ | ⟨_, _, _, e⟩ | ⟨hlab, hc, hfull, e⟩ <;> rw [e]
  · exact nextMeets_next.2 (h.failLoad _)
  · obtain ⟨hd, hi⟩ := h.pathBitDescend hm hc
    rw [descendTo_next hd]
    exact nextMeets_next.2 hi
  · exact nextMeets_next.2 (h.failLoad _)
  · obtain ⟨hd, hi⟩ := h.pathBitCreate hm hlab hc hfull
    rw [descendTo_next (s := s.createChild b) hd]
    exact nextMeets_next.2 hi

theorem Inv.nextMeets_pathEnd {s : State} (h : Inv s) (hm : s.mode = .load) : NextMeets Inv (pathEndRule s) := by
  rcases pathEndRule_cases s with ⟨_, e⟩ | ⟨_, hl, e⟩ | ⟨_, _, e⟩ <;> rw [e, nextMeets_next]
  · exact h.failLoad _
  · exact h.closeRecord hm hl
  · exact h.failLoad _

theorem Inv.nextMeets_decode {s : State} (h : Inv s) (hm : s.mode = .idle) : NextMeets Inv (decodeRule s) := by
  rcases decodeRule_cases s with ⟨_, _, e⟩ | ⟨ht, hr, e⟩ | ⟨_, e⟩ <;> rw [e, nextMeets_next]
  · have hload : s.startDecode.mode ≠ .load := by
      change s.mode ≠ .load
      rw [hm]; decide
    exact (h.startDecode hm).finishDecode hload _
  · exact h.walk hm ht hr
  · exact h.recordError _

theorem Inv.nextMeets_freqWrite {s : State} (h : Inv s) (sym : Sym) (f : Freq) : NextMeets Inv (freqWriteRule sym f s) := by
  rcases freqWriteRule_cases sym f s with ⟨_, e⟩ | ⟨_, e⟩ <;> rw [e, nextMeets_next]
  · exact h.frequencies _ List.length_set
  · exact h.recordError _

theorem Inv.nextMeets_build {s : State} (h : Inv s) (hm : s.mode = .idle) (hb : s.params.hasBuilder = true) :
    NextMeets Inv (buildRule s) := by
  rcases buildRule_cases s with ⟨_, e⟩ | ⟨hf, root, hr, e⟩ <;> rw [e, nextMeets_next]
  · exact h.buildOverflow hm
  · exact h.buildDone hm hb hf hr

theorem Inv.nextMeets_readNode {s : State} (h : Inv s) (idx : Idx) : NextMeets Inv (readNodeRule idx s) := by
  rcases readNodeRule_cases idx s with ⟨_, e⟩ | ⟨_, _, e⟩ | ⟨_, _, e⟩ <;> rw [e, nextMeets_next]
  · exact (h.recordError _).respond _
  · exact h.respond _
  · exact h.respond _

theorem Inv.nextMeets_readReg {s : State} (h : Inv s) (reg : BitVec 4) : NextMeets Inv (readRegRule reg s) := by
  rcases readRegRule_cases reg s with ⟨_, _, e⟩ | ⟨_, e⟩ <;> rw [e, nextMeets_next]
  · exact h.respond _
  · exact (h.recordError _).respond _

/-- A command's own rule keeps the invariant in every mode in which the acceptance table runs it (R87). -/
theorem Inv.nextMeets_ownRule {s : State} (h : Inv s) {i : Instr} (hw : i.wellFormed s.params = true)
    (ha : accept s.mode i = .exec) : NextMeets Inv (ownRule i s) := by
  cases i with
  | nop => exact nextMeets_next.2 h
  | clear => exact nextMeets_next.2 (inv_cleared h)
  | pathBegin sym => exact h.nextMeets_pathBegin (mode_of_accept_idle rfl ha) sym
  | pathBit b => exact h.nextMeets_pathBit (accept_pathBit.1 ha) b
  | pathEnd => exact h.nextMeets_pathEnd (mode_of_accept_pathEnd ha)
  | setSentinel sym =>
    have hm := mode_of_accept_idle rfl ha
    exact nextMeets_next.2 (h.idleRegisters (by rw [hm]; decide) (by rw [hm]; decide) sym s.outSym s.endCause s.done)
  | decode => exact h.nextMeets_decode (mode_of_accept_idle rfl ha)
  | abort =>
    have hm : s.mode ≠ .load := by rcases mode_of_accept_abort ha with hm | hm <;> rw [hm] <;> decide
    exact nextMeets_next.2 (h.finishDecode hm _)
  | freqWrite sym f => exact h.nextMeets_freqWrite sym f
  | freqClear => exact nextMeets_next.2 (h.frequencies _ (List.length_map _))
  | build => exact h.nextMeets_build (mode_of_accept_idle rfl ha) (by simpa [Instr.wellFormed, Instr.needsBuilder] using hw)
  | readNode idx => exact h.nextMeets_readNode idx
  | readReg reg => exact h.nextMeets_readReg reg
  | writeCtrl v => exact nextMeets_next.2 (h.registers s.err v s.loadSym s.emitCount s.bitCount s.responses)
  | ack m => exact nextMeets_next.2 (h.acknowledge m)

theorem Inv.nextMeets_exec {s : State} (h : Inv s) (i : Instr) : NextMeets Inv (exec i s) := by
  rcases exec_cases i s with ⟨hw, ha, e⟩ | ⟨_, _, e⟩ | ⟨_, _, e⟩ | ⟨_, _, e⟩ | ⟨_, e⟩ <;> rw [e]
  · exact h.nextMeets_ownRule hw ha
  · exact nextMeets_next.2 (h.recordError _)
  · exact nextMeets_next.2 (h.failLoad _)
  · exact nextMeets_next.2 h
  · exact nextMeets_fault _ _

theorem Inv.nextMeets_executeWord {s : State} (h : Inv s) (w : Word64) : NextMeets Inv (executeWord w s) := by
  rcases executeWord_cases w s with ⟨i, _, e⟩ | ⟨_, _, e⟩ <;> rw [e]
  · exact h.nextMeets_exec i
  · rw [illegalWord_next h.not_build]
    exact nextMeets_next.2 (h.recordError _)

/-! ### The WALKER -/

/-- The leaf tests at the entry `i` that a walk has just moved to: it goes on at an internal node, and otherwise ends or emits. -/
theorem Inv.nextMeets_arrive {s : State} (h : Inv s) (hm : s.mode = .walk) {i : Idx} (hi : i.toNat < s.nodes.length) :
    NextMeets Inv (arrive { s with cursor := i }) := by
  rcases arrive_cases { s with cursor := i } with ⟨hl, e⟩ | ⟨_, _, e⟩ | ⟨_, _, e⟩ | ⟨sym, hl, hs, hne, e⟩ <;> rw [e]
  · exact nextMeets_next.2 (h.walkTo hm hi hl)
  · exact nextMeets_fault _ _
  · exact nextMeets_next.2 (h.endAt hm hi _)
  · exact nextMeets_next.2 (h.emitAt hm hi hl hs hne)

/-- After a bit the walker follows a child link of the cursor's entry, to an allocated entry (R45 (a)), or meets a dead end. -/
theorem Inv.nextMeets_walkBit {s : State} (h : Inv s) (hm : s.mode = .walk) (b : Bool) : NextMeets Inv (walkBit b s) := by
  rcases walkBit_cases b s with ⟨_, e⟩ | ⟨i, hc, e⟩ <;> rw [e]
  · have hload : s.mode ≠ .load := by rw [hm]; decide
    exact nextMeets_next.2 ((h.recordError _).finishDecode hload _)
  · exact h.nextMeets_arrive hm (h.bounds.child_lt _ (nodeAt_mem h.bounds.cursor_lt) i (mem_children_of_child hc))

/-- What the SOURCE holds and BIT_COUNT are no part of the invariant. -/
theorem Inv.tokenTaken {s : State} (h : Inv s) (tokens : List Token) (tail : SourceTail) (bitCount : BitVec 32) :
    Inv { s with tokens := tokens, sourceTail := tail, bitCount := bitCount } :=
  (h.registers s.err s.ctrl s.loadSym s.emitCount bitCount s.responses).environment s.commands tokens tail s.sink s.responses
    s.received s.turns s.freeTurns

theorem Inv.nextMeets_walkStep {s : State} (h : Inv s) (hm : s.mode = .walk) : NextMeets Inv (walkStep s) := by
  rcases walkStep_cases s with ⟨_, _, e⟩ | ⟨tokens, tail, _, e⟩ | ⟨b, tokens, tail, _, e⟩ <;> rw [e]
  · exact nextMeets_fault _ _
  · have hload : s.mode ≠ .load := by rw [hm]; decide
    exact nextMeets_next.2 ((h.tokenTaken tokens tail s.bitCount).finishDecode hload _)
  · exact (h.tokenTaken tokens tail _).nextMeets_walkBit hm b

theorem Inv.nextMeets_emitStep {s : State} (h : Inv s) (hm : s.mode = .emit) : NextMeets Inv (emitStep s) := by
  rcases emitStep_cases s with ⟨_, e⟩ | ⟨sink, _, e⟩ <;> rw [e]
  · exact nextMeets_fault _ _
  · exact nextMeets_next.2 (h.emitted hm sink _ _)

/-! ### A step -/

theorem Inv.nextMeets_agentStep {s : State} (h : Inv s) (first : Bool) : NextMeets Inv (agentStep first s) := by
  rcases agentStep_transfers first s with ⟨w, rest, _, _, e⟩ | ⟨hm, e⟩ | ⟨hm, e⟩ | e <;> rw [e]
  · exact (h.environment rest s.tokens s.sourceTail s.sink s.responses s.received s.turns s.freeTurns).nextMeets_executeWord w
  · exact h.nextMeets_walkStep hm
  · exact h.nextMeets_emitStep hm
  · exact nextMeets_fault _ _

/-- Settles O53: a reset edge gives a state of the invariant, and every transfer keeps it. -/
theorem everyStepKeepsTheInvariant : Obligations.EveryStepKeepsTheInvariant := by
  intro s t h
  suffices NextMeets Inv (step s) from this t
  rcases step_resets_or_transfers s with ⟨rest, _, e⟩ | ⟨first, turns, n, e⟩ <;> rw [e]
  · exact nextMeets_next.2 (inv_resetBlock _)
  · exact (h.environment s.commands s.tokens s.sourceTail s.sink s.responses s.received turns n).nextMeets_agentStep first

/-- Settles O52: the reset state is its own image under a reset edge, which gives the invariant whatever the state is. -/
theorem resetStateMeetsTheInvariant : Obligations.ResetStateMeetsTheInvariant :=
  ⟨fun p => inv_resetBlock (State.resetWith p), inv_resetBlock State.reset⟩

end Sys2Proof.Machine
end

section
/-! PROOF. The state after reset, field by field (10_state.md R59), and the views STATUS and CONFIG (R36, R38): each field is the
piece of the word's concatenation that stands at its place. -/

namespace Sys2Proof.Machine

theorem nSym_lt (p : Params) : p.nSym < 512 := by
  have := p.lastSym.isLt
  unfold Params.nSym
  omega

/-- After reset no cause is recorded and none is enabled (R54). -/
@[simp] theorem irq_resetWith (p : Params) : (State.resetWith p).irq = false := by
  simp [State.irq]

@[simp] theorem status_resetWith (p : Params) : (State.resetWith p).status = 0 := by
  simp [State.status, Mode.code, TreeState.code, ErrCode.code, EndCause.code]

/-- STATUS, field by field (R36). -/
theorem status_fields (s : State) :
    s.status.extractLsb' 0 3 = s.mode.code ∧ s.status.getLsbD 3 = false ∧ s.status.extractLsb' 4 2 = s.tree.code ∧
      s.status.extractLsb' 6 2 = 0 ∧ s.status.extractLsb' 8 4 = s.err.code ∧ s.status.extractLsb' 12 4 = s.endCause.code ∧
      s.status.getLsbD 16 = s.done ∧ s.status.getLsbD 17 = s.irq ∧ s.status.extractLsb' 18 46 = 0 := by
  refine ⟨?_, ?_, ?_, ?_, ?_, ?_, ?_, ?_, ?_⟩ <;>
    simp (disch := omega) only [State.status, BitVec.extractLsb'_append_eq_of_add_le, BitVec.extractLsb'_append_eq_of_le,
      BitVec.getLsbD_append] <;>
    simp

/-- CONFIG, field by field (R38): N_SYM and NODE_CAP fit in their fields for every machine. -/
theorem configWord_fields (p : Params) :
    ((configWord p).extractLsb' 0 9).toNat = p.nSym ∧ (configWord p).getLsbD 9 = p.hasBuilder ∧
      ((configWord p).extractLsb' 10 10).toNat = p.nodeCap ∧ (configWord p).extractLsb' 20 6 = 32 ∧
      (configWord p).extractLsb' 26 6 = 1 ∧ (configWord p).extractLsb' 32 32 = 0 := by
  refine ⟨?_, ?_, ?_, ?_, ?_, ?_⟩ <;>
    simp (disch := omega) only [configWord, BitVec.extractLsb'_append_eq_of_add_le, BitVec.extractLsb'_append_eq_of_le,
      BitVec.getLsbD_append] <;>
    simp [nSym_lt, nodeCap_lt, Config.freqW, Config.revision]

/-- Settles O19: the fields hold in every state, the reset view is computed, and the code tables are the definitions'. -/
theorem statusHasTheListedFields : Obligations.StatusHasTheListedFields :=
  ⟨fun s => ⟨rfl, status_fields s⟩, status_resetWith, by decide, by decide, by decide, by decide⟩

/-- Settles O20: the register is the constant of the machine, whose fields are those listed. -/
theorem configHasTheListedFields : Obligations.ConfigHasTheListedFields :=
  ⟨fun _ => rfl, configWord_fields, by decide⟩

theorem builderSentinel_toNat (p : Params) : p.builderSentinel.toNat = p.nSym := by
  simpa [Params.builderSentinel] using nSym_lt p

/-- In the one-entry table every index, allocated or free, reads the zero entry (R42). -/
@[simp] theorem nodeAt_zero_table (i : Idx) : nodeAt [Node.zero] i = Node.zero := by
  unfold nodeAt
  cases i.toNat <;> rfl

/-- The output ports once reset is released (R59, R230). -/
theorem outputs_resetWith (p : Params) : (State.resetWith p).outputs = ⟨true, false, false, false, none, false⟩ := by
  rw [outputs_of_not_rst rfl, irq_resetWith]
  rfl

/-- Settles O8: every register is listed by the definition; the node table's image, the width of the sentinel and the levels of
the ports are the lemmas above. -/
theorem resetLeavesTheListedValues : Obligations.ResetLeavesTheListedValues := by
  intro p
  have hout := outputs_resetWith p
  refine ⟨rfl, rfl, rfl, rfl, rfl, builderSentinel_toNat p, rfl, rfl, rfl, rfl, rfl, rfl, rfl, rfl, rfl, fun i => ?_, fun hb => ?_,
    rfl, ?_, ?_, ?_, ?_, ?_, status_resetWith p⟩
  · rw [State.nodeRead, State.resetWith_nodes, nodeAt_zero_table]
    decide
  · simp [hb]
  all_goals rw [hout]

end Sys2Proof.Machine
end

section
/-! PROOF SUPPORT. What a command may write (10_state.md R20 to R37, 30_encoding.md R87, 43_control.md R175, 60_exceptions.md R202):
the rule of each register as a table by the value written, and all of them together as one relation between a command and the
states before and after it. Its fields say by default that nothing changes, so that each proof names what its operation writes and nothing else. -/

namespace Sys2Proof.Machine

/-- The command truncates the open record (R124). -/
def Truncates (i : Instr) (s : State) : Prop :=
  s.mode = .load ∧
    ((∃ sym, i = .pathBegin sym) ∨ (∃ sym, i = .setSentinel sym) ∨ i = .decode ∨ i = .abort ∨
      (∃ sym f, i = .freqWrite sym f) ∨ i = .freqClear ∨ i = .build)

/-- The command is one of the open record's own (R122, R123). -/
def InRecord (i : Instr) (s : State) : Prop := s.mode = .load ∧ ((∃ b, i = .pathBit b) ∨ i = .pathEnd)

/-- The commands that clear ERR (R120, R174). -/
def ClearsErr (i : Instr) : Prop := i = .clear ∨ ∃ m : BitVec 2, i = .ack m ∧ m.getLsbD 0 = true

/-- When a command raises an error code (R202). -/
def Raises (i : Instr) (s : State) : ErrCode → Prop
  | .illegalCmd => i.wellFormed s.params = false
  | .busy => s.mode = .walk ∨ s.mode = .emit
  | .treeState => s.mode = .idle ∧ (i = .decode ∨ ∃ sym, i = .pathBegin sym)
  | .badIndex => (∃ sym f, i = .freqWrite sym f) ∨ (∃ idx, i = .readNode idx) ∨ ∃ reg, i = .readReg reg
  | .malThroughLeaf => InRecord i s ∧ ∃ b, i = .pathBit b
  | .malLabelInternal => InRecord i s ∧ i = .pathEnd
  | .malRelabel => InRecord i s ∧ i = .pathEnd
  | .malTruncated => Truncates i s
  | .nodeOverflow => InRecord i s ∧ ∃ b, i = .pathBit b
  | .noRecord => s.mode = .idle ∧ ((∃ b, i = .pathBit b) ∨ i = .pathEnd)
  | .freqOverflow => i = .build
  | .none => False
  | .deadEnd => False

/-- When a command gives TREE a new value (R22). -/
def SetsTree (i : Instr) (s : State) : TreeState → Prop
  | .empty => i = .clear
  | .loaded => i = .pathEnd
  | .built => i = .build
  | .bad => i = .build ∨ InRecord i s ∨ Truncates i s

/-- When a command gives MODE a new value (R21). -/
def SetsMode (i : Instr) (s : State) : Mode → Prop
  | .load => s.mode = .idle ∧ ∃ sym, i = .pathBegin sym
  | .walk => s.mode = .idle ∧ i = .decode
  | .idle => (s.mode = .load ∧ i = .clear) ∨ InRecord i s ∨ Truncates i s ∨ ((s.mode = .walk ∨ s.mode = .emit) ∧ i = .abort)
  | .build => False
  | .emit => False

/-- Everything that the command `i` may change from `s` to `t`. -/
structure Writes (i : Instr) (s t : State) : Prop where
  err : t.err ≠ s.err → (t.err = .none ∧ ClearsErr i) ∨ (s.err = .none ∧ Raises i s t.err) := by exact fun h => absurd rfl h
  tree : t.tree ≠ s.tree → SetsTree i s t.tree := by exact fun h => absurd rfl h
  mode : t.mode ≠ s.mode → SetsMode i s t.mode := by exact fun h => absurd rfl h
  cursor : t.cursor ≠ s.cursor →
    i = .clear ∨ i = .build ∨ (s.mode = .idle ∧ (i = .decode ∨ ∃ sym, i = .pathBegin sym)) ∨ InRecord i s ∨ Truncates i s := by
      exact fun h => absurd rfl h
  params : t.params = s.params := by rfl
  commands : t.commands = s.commands := by rfl
  tokens : t.tokens = s.tokens := by rfl
  sourceTail : t.sourceTail = s.sourceTail := by rfl
  sink : t.sink = s.sink := by rfl
  received : t.received = s.received := by rfl
  turns : t.turns = s.turns := by rfl
  freeTurns : t.freeTurns = s.freeTurns := by rfl
  outSym : t.outSym = s.outSym := by rfl
  root : t.root ≠ s.root → i = .clear ∨ i = .build := by exact fun h => absurd rfl h
  nodes : t.nodes ≠ s.nodes → i = .clear ∨ (∃ b, i = .pathBit b) ∨ i = .pathEnd ∨ i = .build := by exact fun h => absurd rfl h
  sentinel : t.sentinel ≠ s.sentinel → (∃ sym, i = .setSentinel sym) ∨ i = .build := by exact fun h => absurd rfl h
  ctrl : t.ctrl ≠ s.ctrl → ∃ v, i = .writeCtrl v := by exact fun h => absurd rfl h
  loadSym : t.loadSym ≠ s.loadSym → i = .clear ∨ ∃ sym, i = .pathBegin sym := by exact fun h => absurd rfl h
  loadDepth : t.loadDepth ≠ s.loadDepth → i = .clear ∨ (∃ sym, i = .pathBegin sym) ∨ ∃ b, i = .pathBit b := by
    exact fun h => absurd rfl h
  counters : t.emitCount ≠ s.emitCount ∨ t.bitCount ≠ s.bitCount → i = .clear ∨ i = .decode := by
    exact fun h => h.elim (absurd rfl) (absurd rfl)
  endCause : t.endCause ≠ s.endCause → i = .clear ∨ i = .decode ∨ i = .abort := by exact fun h => absurd rfl h
  done : t.done ≠ s.done → i = .clear ∨ i = .decode ∨ i = .abort ∨ i = .build ∨ ∃ m, i = .ack m := by exact fun h => absurd rfl h
  freqs : t.freqs ≠ s.freqs → (∃ sym f, i = .freqWrite sym f) ∨ i = .freqClear := by exact fun h => absurd rfl h
  queue : t.queue ≠ s.queue → i = .build := by exact fun h => absurd rfl h
  responses : t.responses ≠ s.responses → (∃ idx, i = .readNode idx) ∨ ∃ reg, i = .readReg reg := by exact fun h => absurd rfl h

/-! ### What a command answers without its own rule -/

theorem decoding_of_accept_busy {m : Mode} {i : Instr} (ha : accept m i = .busy) : m = .walk ∨ m = .emit := by
  cases m <;> cases i <;> simp_all [accept, acceptRow]

theorem truncates_of_accept {i : Instr} {s : State} (ha : accept s.mode i = .trunc) : Truncates i s := by
  unfold Truncates
  cases hm : s.mode <;> cases i <;> simp_all [accept, acceptRow]

theorem noRecord_of_accept {i : Instr} {s : State} (ha : accept s.mode i = .norec) : Raises i s .noRecord := by
  unfold Raises
  cases hm : s.mode <;> cases i <;> simp_all [accept, acceptRow]

/-- Everything a command's next state can be (R87, R88): what its own rule gives, an error that the command raises in this mode, a
truncated record, or the same state (ABORT in IDLE). -/
theorem exec_next {i : Instr} {s t : State} (h : exec i s = .next t) :
    (i.wellFormed s.params = true ∧ accept s.mode i = .exec ∧ ownRule i s = .next t) ∨
    (∃ e, Raises i s e ∧ t = s.recordError e) ∨ (Truncates i s ∧ t = s.failLoad .malTruncated) ∨ t = s := by
  cases hw : i.wellFormed s.params with
  | false =>
    have hm : s.mode ≠ .build := by
      intro hm
      simp [exec_eq_execute, execute, illegalWord, hw, hm] at h
    rw [exec_illegal hw hm, Host.Outcome.next.injEq] at h
    exact .inr (.inl ⟨.illegalCmd, hw, h.symm⟩)
  | true =>
    cases ha : accept s.mode i with
    | exec => exact .inl ⟨rfl, rfl, by rw [← exec_run hw ha, h]⟩
    | busy =>
      rw [exec_busy hw ha, Host.Outcome.next.injEq] at h
      exact .inr (.inl ⟨.busy, decoding_of_accept_busy ha, h.symm⟩)
    | trunc =>
      rw [exec_trunc hw ha, Host.Outcome.next.injEq] at h
      exact .inr (.inr (.inl ⟨truncates_of_accept ha, h.symm⟩))
    | norec =>
      rw [exec_norec hw ha, Host.Outcome.next.injEq] at h
      exact .inr (.inl ⟨.noRecord, noRecord_of_accept ha, h.symm⟩)
    | none =>
      simp only [exec_eq_execute, execute, hw, ha, if_true, Host.Outcome.next.injEq] at h
      exact .inr (.inr (.inr h.symm))
    | held => simp [exec_eq_execute, execute, hw, ha] at h

/-! ### What the shared operations write -/

theorem Writes.refl (i : Instr) (s : State) : Writes i s s where

/-- RecordError writes ERR alone, and only from 0 (R201). -/
theorem recordError_err_ne {s : State} {e : ErrCode} (h : (s.recordError e).err ≠ s.err) :
    s.err = .none ∧ (s.recordError e).err = e := by
  rw [State.recordError_err] at h ⊢
  split at h
  · exact ⟨‹_›, if_pos ‹_›⟩
  · exact absurd rfl h

theorem raised_recordError {i : Instr} {s : State} {e : ErrCode} (h : Raises i s e) :
    (s.recordError e).err ≠ s.err →
      ((s.recordError e).err = .none ∧ ClearsErr i) ∨ (s.err = .none ∧ Raises i s (s.recordError e).err) := by
  intro hne
  obtain ⟨h0, he⟩ := recordError_err_ne hne
  exact .inr ⟨h0, by rwa [he]⟩

theorem writes_recordError {i : Instr} {s : State} {e : ErrCode} (h : Raises i s e) : Writes i s (s.recordError e) where
  err := raised_recordError h

/-- MalformedLoad, for the reason `e`, in a record that the command continues or truncates (R125). -/
theorem writes_failLoad {i : Instr} {s : State} {e : ErrCode} (h : Raises i s e) (hr : InRecord i s ∨ Truncates i s) :
    Writes i s (s.failLoad e) where
  err := raised_recordError h
  tree _ := .inr hr
  mode _ := .inr (hr.imp_right .inl)
  cursor _ := .inr (.inr (.inr hr))

theorem writes_respond {i : Instr} {s t : State} (h : Writes i s t) (v : Word64)
    (hi : (∃ idx, i = .readNode idx) ∨ ∃ reg, i = .readReg reg) : Writes i s (t.respond v) :=
  { h with responses := fun _ => hi }

/-! ### What the own rules write -/

theorem writes_pathBeginRule {s : State} (hm : s.mode = .idle) (sym : Sym) :
    NextMeets (Writes (.pathBegin sym) s) (pathBeginRule sym s) := by
  rcases pathBeginRule_cases sym s with ⟨_, e⟩ | ⟨_, e⟩ <;> rw [e, nextMeets_next]
  · exact {
      loadSym := fun _ => .inr ⟨sym, rfl⟩
      loadDepth := fun _ => .inr (.inl ⟨sym, rfl⟩)
      cursor := fun _ => .inr (.inr (.inl ⟨hm, .inr ⟨sym, rfl⟩⟩))
      mode := fun _ => ⟨hm, sym, rfl⟩ }
  · exact writes_recordError (e := .treeState) ⟨hm, .inr ⟨sym, rfl⟩⟩

theorem writes_pathBitRule {s : State} (hm : s.mode = .load) (b : Bool) :
    NextMeets (Writes (.pathBit b) s) (pathBitRule b s) := by
  have hr : InRecord (.pathBit b) s := ⟨hm, .inl ⟨b, rfl⟩⟩
  rcases pathBitRule_cases b s with ⟨_, e⟩ | ⟨i, _, _, e⟩ | ⟨_, _, _, e⟩ | ⟨_, _, _, e⟩ <;> rw [e]
  · exact nextMeets_next.2 (writes_failLoad (e := .malThroughLeaf) ⟨hr, b, rfl⟩ (.inl hr))
  · rcases descendTo_cases i s with ⟨_, e⟩ | ⟨_, e⟩ <;> rw [e]
    · exact nextMeets_next.2 {
        loadDepth := fun _ => .inr (.inr ⟨b, rfl⟩)
        cursor := fun _ => .inr (.inr (.inr (.inl hr))) }
    · exact nextMeets_fault _ _
  · exact nextMeets_next.2 (writes_failLoad (e := .nodeOverflow) ⟨hr, b, rfl⟩ (.inl hr))
  · rcases descendTo_cases s.nodeCount (s.createChild b) with ⟨_, e⟩ | ⟨_, e⟩ <;> rw [e]
    · exact nextMeets_next.2 {
        nodes := fun _ => .inr (.inl ⟨b, rfl⟩)
        loadDepth := fun _ => .inr (.inr ⟨b, rfl⟩)
        cursor := fun _ => .inr (.inr (.inr (.inl hr))) }
    · exact nextMeets_fault _ _

theorem writes_pathEndRule {s : State} (hm : s.mode = .load) : NextMeets (Writes .pathEnd s) (pathEndRule s) := by
  have hr : InRecord .pathEnd s := ⟨hm, .inr rfl⟩
  rcases pathEndRule_cases s with ⟨_, e⟩ | ⟨_, _, e⟩ | ⟨_, _, e⟩ <;> rw [e, nextMeets_next]
  · exact writes_failLoad (e := .malRelabel) ⟨hr, rfl⟩ (.inl hr)
  · exact {
      nodes := fun _ => .inr (.inr (.inl rfl))
      tree := fun _ => rfl
      cursor := fun _ => .inr (.inr (.inr (.inl hr)))
      mode := fun _ => .inr (.inl hr) }
  · exact writes_failLoad (e := .malLabelInternal) ⟨hr, rfl⟩ (.inl hr)

theorem writes_decodeRule {s : State} (hm : s.mode = .idle) : NextMeets (Writes .decode s) (decodeRule s) := by
  rcases decodeRule_cases s with ⟨_, _, e⟩ | ⟨_, _, e⟩ | ⟨_, e⟩ <;> rw [e, nextMeets_next]
  · exact {
      counters := fun _ => .inr rfl
      endCause := fun _ => .inr (.inl rfl)
      done := fun _ => .inr (.inl rfl)
      cursor := fun _ => .inr (.inr (.inl ⟨hm, .inl rfl⟩))
      mode := fun h => absurd hm.symm h }
  · exact {
      counters := fun _ => .inr rfl
      endCause := fun _ => .inr (.inl rfl)
      done := fun _ => .inr (.inl rfl)
      cursor := fun _ => .inr (.inr (.inl ⟨hm, .inl rfl⟩))
      mode := fun _ => ⟨hm, rfl⟩ }
  · exact writes_recordError (e := .treeState) ⟨hm, .inl rfl⟩

theorem writes_freqWriteRule (sym : Sym) (f : Freq) (s : State) :
    NextMeets (Writes (.freqWrite sym f) s) (freqWriteRule sym f s) := by
  rcases freqWriteRule_cases sym f s with ⟨_, e⟩ | ⟨_, e⟩ <;> rw [e, nextMeets_next]
  · exact { freqs := fun _ => .inl ⟨sym, f, rfl⟩ }
  · exact writes_recordError (e := .badIndex) (.inl ⟨sym, f, rfl⟩)

theorem writes_buildRule (s : State) : NextMeets (Writes .build s) (buildRule s) := by
  rcases buildRule_cases s with ⟨_, e⟩ | ⟨_, root, _, e⟩ <;> rw [e, nextMeets_next]
  · exact {
      err := raised_recordError (i := .build) (e := .freqOverflow) rfl
      nodes := fun _ => .inr (.inr (.inr rfl))
      root := fun _ => .inr rfl
      cursor := fun _ => .inr (.inl rfl)
      tree := fun _ => .inl rfl
      done := fun _ => .inr (.inr (.inr (.inl rfl))) }
  · exact {
      nodes := fun _ => .inr (.inr (.inr rfl))
      queue := fun _ => rfl
      root := fun _ => .inr rfl
      tree := fun _ => rfl
      sentinel := fun _ => .inr rfl
      cursor := fun _ => .inr (.inl rfl)
      done := fun _ => .inr (.inr (.inr (.inl rfl))) }

theorem writes_readNodeRule (idx : Idx) (s : State) : NextMeets (Writes (.readNode idx) s) (readNodeRule idx s) := by
  have hi : (∃ x, Instr.readNode idx = .readNode x) ∨ ∃ reg, Instr.readNode idx = .readReg reg := .inl ⟨idx, rfl⟩
  rcases readNodeRule_cases idx s with ⟨_, e⟩ | ⟨_, _, e⟩ | ⟨_, _, e⟩ <;> rw [e, nextMeets_next]
  · exact writes_respond (writes_recordError (e := .badIndex) (.inr hi)) _ hi
  · exact writes_respond (.refl _ s) _ hi
  · exact writes_respond (.refl _ s) _ hi

theorem writes_readRegRule (reg : BitVec 4) (s : State) : NextMeets (Writes (.readReg reg) s) (readRegRule reg s) := by
  have hi : (∃ idx, Instr.readReg reg = .readNode idx) ∨ ∃ x, Instr.readReg reg = .readReg x := .inr ⟨reg, rfl⟩
  rcases readRegRule_cases reg s with ⟨_, _, e⟩ | ⟨_, e⟩ <;> rw [e, nextMeets_next]
  · exact writes_respond (.refl _ s) _ hi
  · exact writes_respond (writes_recordError (e := .badIndex) (.inr hi)) _ hi

theorem writes_cleared {s : State} (hm : s.mode = .idle ∨ s.mode = .load) : Writes .clear s s.cleared where
  nodes _ := .inl rfl
  root _ := .inl rfl
  cursor _ := .inl rfl
  tree _ := rfl
  mode h := .inl ⟨hm.resolve_left fun hi => h hi.symm, rfl⟩
  err _ := .inl ⟨rfl, .inl rfl⟩
  done _ := .inl rfl
  endCause _ := .inl rfl
  counters _ := .inl rfl
  loadSym _ := .inl rfl
  loadDepth _ := .inl rfl

theorem writes_acknowledge (m : BitVec 2) (s : State) : Writes (.ack m) s (s.acknowledge m) where
  err h := by
    cases hb : m.getLsbD 0 with
    | true => exact .inl ⟨by simp [hb], .inr ⟨m, rfl, hb⟩⟩
    | false => exact absurd (by rw [State.acknowledge_err, hb]; rfl) h
  done _ := .inr (.inr (.inr (.inr ⟨m, rfl⟩)))

/-- A command's own rule writes what its rule names, in every mode in which the acceptance table runs it (R87). -/
theorem writes_ownRule {i : Instr} {s : State} (ha : accept s.mode i = .exec) : NextMeets (Writes i s) (ownRule i s) := by
  cases i with
  | nop => exact nextMeets_next.2 (.refl _ s)
  | clear => exact nextMeets_next.2 (writes_cleared (mode_of_accept_clear ha))
  | pathBegin sym => exact writes_pathBeginRule (mode_of_accept_idle rfl ha) sym
  | pathBit b => exact writes_pathBitRule (accept_pathBit.1 ha) b
  | pathEnd => exact writes_pathEndRule (mode_of_accept_pathEnd ha)
  | setSentinel sym => exact nextMeets_next.2 { sentinel := fun _ => .inl ⟨sym, rfl⟩ }
  | decode => exact writes_decodeRule (mode_of_accept_idle rfl ha)
  | abort =>
    exact nextMeets_next.2 {
      endCause := fun _ => .inr (.inr rfl)
      done := fun _ => .inr (.inr (.inl rfl))
      mode := fun _ => .inr (.inr (.inr ⟨mode_of_accept_abort ha, rfl⟩)) }
  | freqWrite sym f => exact writes_freqWriteRule sym f s
  | freqClear => exact nextMeets_next.2 { freqs := fun _ => .inr rfl }
  | build => exact writes_buildRule s
  | readNode idx => exact writes_readNodeRule idx s
  | readReg reg => exact writes_readRegRule reg s
  | writeCtrl v => exact nextMeets_next.2 { ctrl := fun _ => ⟨v, rfl⟩ }
  | ack m => exact nextMeets_next.2 (writes_acknowledge m s)

/-- Every command writes only what its rule names. -/
theorem writes_of_exec {i : Instr} {s t : State} (h : exec i s = .next t) : Writes i s t := by
  rcases exec_next h with ⟨_, ha, e⟩ | ⟨e, he, rfl⟩ | ⟨ht, rfl⟩ | rfl
  · exact writes_ownRule ha t e
  · exact writes_recordError he
  · exact writes_failLoad (e := .malTruncated) ht (.inr ht)
  · exact .refl i _

end Sys2Proof.Machine
end

section
/-! PROOF. Commands write only what their rules name (10_state.md R20 to R37, 20_memory.md R61, R62, 30_encoding.md R87,
43_control.md R175, 60_exceptions.md R202). -/

namespace Sys2Proof.Machine

/-- Settles O55: `Writes`, with the tables for ERR, TREE and MODE read off value by value. -/
theorem commandsWriteOnlyWhatTheirRulesName : Obligations.CommandsWriteOnlyWhatTheirRulesName := by
  intro i s t h truncates inRecord
  have w := writes_of_exec h
  refine ⟨fun he => (w.err he).imp_right (And.imp_right ?_), fun ht => ?_, fun hm => ?_, w.cursor, w.params, w.commands, w.tokens,
    w.sourceTail, w.sink, w.received, w.turns, w.freeTurns, w.outSym, w.root, w.nodes, w.sentinel, w.ctrl, w.loadSym, w.loadDepth,
    w.counters, w.endCause, w.done, w.freqs, w.queue, w.responses⟩
  · cases t.err <;> simp [Raises, truncates, inRecord, Truncates, InRecord]
  · have hv := w.tree ht
    revert hv
    cases t.tree <;> simp [SetsTree, truncates, inRecord, Truncates, InRecord]
  · have hv := w.mode hm
    revert hv
    cases t.mode <;> simp [SetsMode, truncates, inRecord, Truncates, InRecord]

end Sys2Proof.Machine
end

section
/-! PROOF. The tokens of a byte sequence (20_memory.md R64): eight for each byte, most significant bit first, and EOS after the
last. -/

namespace Sys2Proof.Machine

@[simp] theorem length_byteBits (b : BitVec 8) : (byteBits b).length = 8 := rfl

theorem getElem?_byteBits {j : Nat} (hj : j < 8) (b : BitVec 8) : (byteBits b)[j]? = some (b.getLsbD (7 - j)) := by
  simp [byteBits, hj]

theorem tokensOfBytes_cons (b : BitVec 8) (bytes : List (BitVec 8)) :
    tokensOfBytes (b :: bytes) = (byteBits b).map .bit ++ tokensOfBytes bytes := by
  simp [tokensOfBytes]

theorem length_tokensOfBytes (bytes : List (BitVec 8)) : (tokensOfBytes bytes).length = 8 * bytes.length + 1 := by
  induction bytes with
  | nil => rfl
  | cons b bytes ih =>
    simp only [tokensOfBytes_cons, List.length_append, List.length_map, length_byteBits, ih, List.length_cons]
    omega

/-- The one EOS, after the last bit (R64). -/
theorem getLast?_tokensOfBytes (bytes : List (BitVec 8)) : (tokensOfBytes bytes).getLast? = some .eos :=
  List.getLast?_concat

theorem getElem?_tokensOfBytes {bytes : List (BitVec 8)} {i j : Nat} {b : BitVec 8} (hi : bytes[i]? = some b) (hj : j < 8) :
    (tokensOfBytes bytes)[8 * i + j]? = some (.bit (b.getLsbD (7 - j))) := by
  induction bytes generalizing i with
  | nil => simp at hi
  | cons c bytes ih =>
    rw [tokensOfBytes_cons]
    cases i with
    | zero =>
      obtain rfl : c = b := by simpa using hi
      rw [Nat.mul_zero, Nat.zero_add, List.getElem?_append_left (by simpa using hj), List.getElem?_map, getElem?_byteBits hj]
      rfl
    | succ i =>
      have hplace : 8 * (i + 1) + j = ((byteBits c).map Token.bit).length + (8 * i + j) := by
        rw [List.length_map, length_byteBits]
        omega
      rw [hplace, List.getElem?_append_right (Nat.le_add_right _ _), Nat.add_sub_cancel_left]
      exact ih (by simpa using hi)

/-- Settles O58: length, last token and the token at each place, by induction on the bytes. -/
theorem tokensOfBytesAreMostSignificantFirst : Obligations.TokensOfBytesAreMostSignificantFirst := by
  intro bytes
  refine ⟨length_tokensOfBytes bytes, ?_, fun i j b => getElem?_tokensOfBytes⟩
  rw [← getLast?_tokensOfBytes bytes, List.getLast?_eq_getElem?, length_tokensOfBytes, Nat.add_sub_cancel]

end Sys2Proof.Machine
end

section
/-! PROOF. Both agents enabled (20_memory.md R70, 60_exceptions.md R216): the turn names the one that steps. -/

namespace Sys2Proof.Machine

/-- Whether the HOST has a step does not depend on whose turn it is. -/
@[simp] theorem hostEnabled_turns (s : State) (turns : List Turn) (n : Nat) :
    { s with turns := turns, freeTurns := n }.hostEnabled = s.hostEnabled := rfl

/-- Where both agents have a step, the one named takes it. -/
theorem agentStep_of_both {s : State} (hh : s.hostEnabled = true) (hw : s.walkerEnabled = true) (first : Bool) :
    agentStep first s = if first then hostStep s else walkerStep s := by
  simp only [agentStep, hh, hw]

/-- The same with the turn used up: it is no part of what enables an agent. -/
theorem agentStep_turns_of_both {s : State} (hh : s.hostEnabled = true) (hw : s.walkerEnabled = true) (first : Bool)
    (turns : List Turn) (n : Nat) :
    agentStep first { s with turns := turns, freeTurns := n } =
      if first then hostStep { s with turns := turns, freeTurns := n }
      else walkerStep { s with turns := turns, freeTurns := n } :=
  agentStep_of_both (by rw [hostEnabled_turns, hh]) (by rw [walkerEnabled_turns, hw]) first

theorem step_of_host_turn (s : State) (ts : List Turn) :
    step { s with turns := .host :: ts } = agentStep true { s with turns := ts } := rfl

theorem step_of_walker_turn (s : State) (ts : List Turn) :
    step { s with turns := .walker :: ts } = agentStep false { s with turns := ts } := rfl

theorem step_of_no_turn {s : State} (h : s.turns = []) :
    step s = agentStep (Config.freeTurn s.freeTurns) { s with freeTurns := s.freeTurns + 1 } := by
  simp only [step, takeTurn, h]

/-- Settles O7: the turn decides, and where none is named the free value does, one way or the other. -/
theorem eitherAgentMayStepFirst : Obligations.EitherAgentMayStepFirst := by
  intro s hh hw
  have hboth := agentStep_turns_of_both hh hw
  refine ⟨fun ts => ?_, fun ts => ?_, fun ht => ?_⟩
  · rw [step_of_host_turn]
    exact hboth true ts s.freeTurns
  · rw [step_of_walker_turn]
    exact hboth false ts s.freeTurns
  · rw [step_of_no_turn ht]
    have hfree := hboth (Config.freeTurn s.freeTurns) s.turns (s.freeTurns + 1)
    cases hc : Config.freeTurn s.freeTurns with
    | true => exact .inl (by simpa [hc] using hfree)
    | false => exact .inr (by simpa [hc] using hfree)

end Sys2Proof.Machine
end

section
/-! PROOF. PATH_BIT and PATH_END write the cursor's entry and the new one only (20_memory.md R61, 41_tree_load.md R122, R123). -/

namespace Sys2Proof.Machine

/-- `after` is the table `before` with the entry at place `c` rewritten, and at most one zero entry allocated. -/
structure KeepsOtherEntries (c : Nat) (before after : List Node) : Prop where
  allocated : ∀ x < before.length, x ≠ c → after[x]? = before[x]?
  free : ∀ x, before.length ≤ x → x ≠ c → after.getD x Node.zero = Node.zero
  length_ge : before.length ≤ after.length
  length_le : after.length ≤ before.length + 1

theorem KeepsOtherEntries.refl (c : Nat) (nodes : List Node) : KeepsOtherEntries c nodes nodes where
  allocated _ _ _ := rfl
  free _ hx _ := List.getD_eq_default _ _ hx
  length_ge := le_rfl
  length_le := Nat.le_succ _

/-- Alloc (R122): the new entry is the zero entry, which its place read before (R42). -/
theorem KeepsOtherEntries.alloc (c : Nat) (nodes : List Node) : KeepsOtherEntries c nodes (nodes ++ [Node.zero]) where
  allocated _ hx _ := List.getElem?_append_left hx
  free x hx _ := by
    rw [List.getD_append_right _ _ _ _ hx]
    cases x - nodes.length <;> rfl
  length_ge := by simp
  length_le := by simp

/-- NodeWrite at the cursor (R61). -/
theorem KeepsOtherEntries.set {c : Nat} {before after : List Node} (h : KeepsOtherEntries c before after) (n : Node) :
    KeepsOtherEntries c before (after.set c n) where
  allocated x hx hc := by rw [List.getElem?_set_ne hc.symm, h.allocated x hx hc]
  free x hx hc := by
    rw [List.getD_eq_getElem?_getD, List.getElem?_set_ne hc.symm, ← List.getD_eq_getElem?_getD, h.free x hx hc]
  length_ge := by simpa using h.length_ge
  length_le := by simpa using h.length_le

/-- From `s` to `t` only the entry at the CURSOR of `s` is written, and at most one is allocated. -/
def WritesCursorEntry (s t : State) : Prop := KeepsOtherEntries s.cursor.toNat s.nodes t.nodes

theorem writesCursorEntry_of_nodes_eq {s t : State} (h : t.nodes = s.nodes) : WritesCursorEntry s t := by
  rw [WritesCursorEntry, h]
  exact .refl _ _

theorem writesCursorEntry_createChild (s : State) (b : Bool) : WritesCursorEntry s (s.createChild b) :=
  (KeepsOtherEntries.alloc _ _).set _

theorem writesCursorEntry_closeRecord (s : State) : WritesCursorEntry s s.closeRecord :=
  (KeepsOtherEntries.refl _ _).set _

/-- The last line of PATH_BIT moves the cursor and writes no entry. -/
theorem nextMeets_descendTo {s u : State} (h : WritesCursorEntry s u) (i : Idx) :
    NextMeets (WritesCursorEntry s) (descendTo i u) := by
  rcases descendTo_cases i u with ⟨_, e⟩ | ⟨_, e⟩ <;> rw [e]
  · exact nextMeets_next.2 h
  · exact nextMeets_fault _ _

theorem writesCursorEntry_pathBitRule (b : Bool) (s : State) : NextMeets (WritesCursorEntry s) (pathBitRule b s) := by
  rcases pathBitRule_cases b s with ⟨_, e⟩ | ⟨i, _, _, e⟩ | ⟨_, _, _, e⟩ | ⟨_, _, _, e⟩ <;> rw [e]
  · exact nextMeets_next.2 (writesCursorEntry_of_nodes_eq rfl)
  · exact nextMeets_descendTo (writesCursorEntry_of_nodes_eq rfl) i
  · exact nextMeets_next.2 (writesCursorEntry_of_nodes_eq rfl)
  · exact nextMeets_descendTo (writesCursorEntry_createChild s b) s.nodeCount

theorem writesCursorEntry_pathEndRule (s : State) : NextMeets (WritesCursorEntry s) (pathEndRule s) := by
  rcases pathEndRule_cases s with ⟨_, e⟩ | ⟨_, _, e⟩ | ⟨_, _, e⟩ <;> rw [e, nextMeets_next]
  · exact writesCursorEntry_of_nodes_eq rfl
  · exact writesCursorEntry_closeRecord s
  · exact writesCursorEntry_of_nodes_eq rfl

/-- Settles O56: the two own rules write so, and whatever else these commands answer writes no entry. -/
theorem recordCommandsTouchOnlyTheCursorEntry : Obligations.RecordCommandsTouchOnlyTheCursorEntry := by
  intro s t i hi h
  have hentries : WritesCursorEntry s t := by
    rcases exec_next h with ⟨_, _, hown⟩ | ⟨_, _, rfl⟩ | ⟨_, rfl⟩ | rfl
    · rcases hi with ⟨b, rfl⟩ | rfl
      · exact writesCursorEntry_pathBitRule b s t hown
      · exact writesCursorEntry_pathEndRule s t hown
    · exact writesCursorEntry_of_nodes_eq rfl
    · exact writesCursorEntry_of_nodes_eq rfl
    · exact writesCursorEntry_of_nodes_eq rfl
  exact ⟨hentries.allocated, hentries.free, hentries.length_ge, hentries.length_le⟩

end Sys2Proof.Machine
end

section
/-! PROOF. The bit and symbol ports (10_state.md R52, R53, 20_memory.md R79): only WalkStep takes a token, the one offered next,
and only EmitStep gives the SINK a symbol, OUT_SYM at the end. -/

namespace Sys2Proof.Machine

theorem NextMeets.imp {P Q : State → Prop} {o : Out} (h : NextMeets P o) (hpq : ∀ t, P t → Q t) : NextMeets Q o :=
  fun t ht => hpq t (h t ht)

/-- What the SOURCE offers and what the SINK has received are the same in `s` and `t`. -/
structure SameStreams (s t : State) : Prop where
  tokens : t.tokens = s.tokens := by rfl
  sourceTail : t.sourceTail = s.sourceTail := by rfl
  received : t.received = s.received := by rfl

/-- From `s` to `t` the SOURCE loses at most its next token, in WALK, and the SINK receives at most OUT_SYM, in EMIT. -/
structure StreamsInOrder (s t : State) : Prop where
  source : (t.tokens = s.tokens ∧ t.sourceTail = s.sourceTail) ∨ (s.mode = .walk ∧ ∃ tok, Offers s tok t.tokens t.sourceTail)
  sink : t.received = s.received ∨ (s.mode = .emit ∧ t.mode = .walk ∧ t.received = s.received ++ [s.outSym])

theorem SameStreams.trans {s u t : State} (h : SameStreams s u) (k : SameStreams u t) : SameStreams s t :=
  ⟨k.tokens.trans h.tokens, k.sourceTail.trans h.sourceTail, k.received.trans h.received⟩

theorem SameStreams.inOrder {s t : State} (h : SameStreams s t) : StreamsInOrder s t :=
  ⟨.inl ⟨h.tokens, h.sourceTail⟩, .inl h.received⟩

/-- A walk that has taken the token offered next, and moves nothing on a port after that. -/
theorem streamsInOrder_of_taken {s t : State} {tok : Token} {tokens : List Token} {tail : SourceTail} (hm : s.mode = .walk)
    (ho : Offers s tok tokens tail) (h : SameStreams { s with tokens := tokens, sourceTail := tail } t) : StreamsInOrder s t where
  source := .inr ⟨hm, tok, by rw [h.tokens, h.sourceTail]; exact ho⟩
  sink := .inl h.received

theorem sameStreams_arrive (s : State) : NextMeets (SameStreams s) (arrive s) := by
  rcases arrive_cases s with ⟨_, e⟩ | ⟨_, _, e⟩ | ⟨_, _, e⟩ | ⟨_, _, _, _, e⟩ <;> rw [e]
  · exact nextMeets_next.2 {}
  · exact nextMeets_fault _ _
  · exact nextMeets_next.2 {}
  · exact nextMeets_next.2 {}

theorem sameStreams_walkBit (b : Bool) (s : State) : NextMeets (SameStreams s) (walkBit b s) := by
  rcases walkBit_cases b s with ⟨_, e⟩ | ⟨i, _, e⟩ <;> rw [e]
  · exact nextMeets_next.2 {}
  · exact (sameStreams_arrive _).imp fun _ h => SameStreams.trans {} h

theorem streamsInOrder_walkStep {s : State} (hm : s.mode = .walk) : NextMeets (StreamsInOrder s) (walkStep s) := by
  rcases walkStep_cases s with ⟨_, _, e⟩ | ⟨tokens, tail, ho, e⟩ | ⟨b, tokens, tail, ho, e⟩ <;> rw [e]
  · exact nextMeets_fault _ _
  · exact nextMeets_next.2 (streamsInOrder_of_taken hm ho {})
  · exact (sameStreams_walkBit b _).imp fun _ h => streamsInOrder_of_taken hm ho (SameStreams.trans {} h)

theorem streamsInOrder_emitStep {s : State} (hm : s.mode = .emit) : NextMeets (StreamsInOrder s) (emitStep s) := by
  rcases emitStep_cases s with ⟨_, e⟩ | ⟨_, _, e⟩ <;> rw [e]
  · exact nextMeets_fault _ _
  · exact nextMeets_next.2 ⟨.inl ⟨rfl, rfl⟩, .inr ⟨hm, rfl, rfl⟩⟩

/-- No command moves anything on the bit port or the symbol port (R56). -/
theorem sameStreams_executeWord {s : State} (hm : s.mode ≠ .build) (w : Word64) : NextMeets (SameStreams s) (executeWord w s) := by
  rcases executeWord_cases w s with ⟨i, _, e⟩ | ⟨_, _, e⟩ <;> rw [e]
  · intro t ht
    have hw := writes_of_exec ht
    exact ⟨hw.tokens, hw.sourceTail, hw.received⟩
  · rw [illegalWord_next hm]
    exact nextMeets_next.2 {}

theorem streamsInOrder_agentStep (first : Bool) (s : State) : NextMeets (StreamsInOrder s) (agentStep first s) := by
  rcases agentStep_transfers first s with ⟨w, rest, hm, _, e⟩ | ⟨hm, e⟩ | ⟨hm, e⟩ | e <;> rw [e]
  · exact (sameStreams_executeWord (s := { s with commands := rest }) hm w).imp fun _ h => (SameStreams.trans {} h).inOrder
  · exact streamsInOrder_walkStep hm
  · exact streamsInOrder_emitStep hm
  · exact nextMeets_fault _ _

/-- Whose turn it was is no part of the streams; a reset edge moves nothing on a port (R231). -/
theorem streamsInOrder_step (s : State) : NextMeets (StreamsInOrder s) (step s) := by
  rcases step_resets_or_transfers s with ⟨_, _, e⟩ | ⟨first, turns, n, e⟩ <;> rw [e]
  · exact nextMeets_next.2 (SameStreams.inOrder {})
  · exact (streamsInOrder_agentStep first _).imp fun _ h => ⟨h.source, h.sink⟩

/-- The bit and symbol ports while rst = 0 (R52, R53). -/
theorem streamPorts_of_not_rst {s : State} (h : s.rst = false) :
    (s.outputs.bitReady = true ↔ s.mode = .walk) ∧ (s.outputs.symValid = true ↔ s.mode = .emit) ∧
    (s.outputs.symValid = true → s.outputs.symData = some s.outSym) := by
  rw [outputs_of_not_rst h]
  refine ⟨beq_iff_eq, beq_iff_eq, fun hv => ?_⟩
  change s.mode == .emit at hv
  exact if_pos hv

theorem rst_of_no_reset {s : State} (h : ∀ ts, s.turns ≠ .reset :: ts) : s.rst = false := by
  rw [← Bool.not_eq_true, rst_iff]
  rintro ⟨ts, ht⟩
  exact h ts ht

/-- Settles O36: the levels of the ports, and the streams in order across every step. -/
theorem tokensAndSymbolsKeepTheirOrder : Obligations.TokensAndSymbolsKeepTheirOrder := by
  refine ⟨fun s h => streamPorts_of_not_rst (rst_of_no_reset h), fun s t h => ?_⟩
  have hstreams := streamsInOrder_step s t h
  exact ⟨hstreams.source, hstreams.sink⟩

end Sys2Proof.Machine
end

section
/-! PROOF. The command word and the command (30_encoding.md R81 to R84): the encoder and the decoder are inverse to each other. -/

namespace Sys2Proof.Machine

/-- A word with the given fields and RSV 0 is their command word (R81). -/
theorem commandWord_of_fields {w : Word64} {op : BitVec 4} {sym : Sym} {data : BitVec 32} (hop : (opField w).toNat = op.toNat)
    (hrsv : rsvField w = 0) (hsym : symField w = sym) (hdata : dataField w = data) : commandWord op sym data = w := by
  rw [← BitVec.eq_of_toNat_eq hop, ← hsym, ← hdata, commandWord_fields w hrsv]

/-- A row of R82 without operands, read back. -/
theorem commandWord_of_no_operand {w : Word64} {op : BitVec 4} (hop : (opField w).toNat = op.toNat)
    (hzero : (rsvField w == 0 && symField w == 0 && dataField w == 0) = true) : commandWord op 0 0 = w := by
  simp only [Bool.and_eq_true, beq_iff_eq] at hzero
  obtain ⟨⟨hrsv, hsym⟩, hdata⟩ := hzero
  exact commandWord_of_fields hop hrsv hsym hdata

/-- A row of R82 whose operand is SYM, read back. -/
theorem commandWord_of_sym {w : Word64} {op : BitVec 4} (hop : (opField w).toNat = op.toNat)
    (hzero : (rsvField w == 0 && dataField w == 0) = true) : commandWord op (symField w) 0 = w := by
  simp only [Bool.and_eq_true, beq_iff_eq] at hzero
  exact commandWord_of_fields hop hzero.1 rfl hzero.2

/-- A row of R82 whose operand is the low `k` bits of DATA, read back. -/
theorem commandWord_of_low_bits {w : Word64} {op : BitVec 4} {k : Nat} (hop : (opField w).toNat = op.toNat)
    (hzero : (rsvField w == 0 && symField w == 0 && (dataField w).extractLsb' k (32 - k) == 0) = true) :
    commandWord op 0 (((dataField w).extractLsb' 0 k).setWidth 32) = w := by
  simp only [Bool.and_eq_true, beq_iff_eq] at hzero
  obtain ⟨⟨hrsv, hsym⟩, hhigh⟩ := hzero
  exact commandWord_of_fields hop hrsv hsym (setWidth_lowBits _ hhigh).symm

/-- PATH_BIT's operand is the lowest bit of DATA (R82). -/
theorem ofBool_getLsbD_zero (d : BitVec 32) : BitVec.ofBool (d.getLsbD 0) = d.extractLsb' 0 1 := by
  ext i hi
  obtain rfl : i = 0 := by omega
  simp

/-- A word that reads as a command is that command's word: the row's test leaves no bit of it unread (R84 (b)). -/
theorem encode_of_decodeWord {w : Word64} {i : Instr} (h : decodeWord w = .ok i) : encode i = w := by
  unfold decodeWord at h
  split at h
  case h_16 => cases h
  all_goals
    obtain ⟨hzero, rfl⟩ := ifUnusedZero_ok h
    rename_i hop
  case h_3 | h_6 => exact commandWord_of_sym hop hzero
  case h_4 =>
    rw [encode, ofBool_getLsbD_zero]
    exact commandWord_of_low_bits hop hzero
  case h_9 => exact commandWord_of_fields hop (beq_iff_eq.1 hzero) rfl rfl
  case h_12 | h_13 | h_14 | h_15 => exact commandWord_of_low_bits hop hzero
  case h_1 | h_2 | h_5 | h_7 | h_8 | h_10 | h_11 => exact commandWord_of_no_operand hop hzero

theorem decodeWord_ok_iff {w : Word64} {i : Instr} : decodeWord w = .ok i ↔ encode i = w :=
  ⟨encode_of_decodeWord, fun h => h ▸ decodeWord_encode i⟩

theorem encode_injective : Function.Injective encode := fun i _ h =>
  Except.ok.inj ((decodeWord_encode i).symm.trans (decodeWord_ok_iff.2 h.symm))

/-- The legal words of a machine are the words of the commands it has (R83, R84). -/
theorem decode_ok_iff {p : Params} {w : Word64} {i : Instr} : decode p w = .ok i ↔ encode i = w ∧ i.wellFormed p = true := by
  refine ⟨fun h => (decode_ok h).imp_left encode_of_decodeWord, fun ⟨he, hw⟩ => ?_⟩
  simp only [decode, decodeWord_ok_iff.2 he, hw, if_true]

/-- Settles O1: every command is read back from its own word. -/
theorem decodeOfEncodeIsIdentity : Obligations.DecodeOfEncodeIsIdentity :=
  fun _ _ hw => decode_ok_iff.2 ⟨rfl, hw⟩

/-- Settles O2: the decoder answers with no command but the one whose word it was given. -/
theorem encodeOfDecodeIsIdentity : Obligations.EncodeOfDecodeIsIdentity :=
  fun _ _ _ => decode_ok_iff.1

end Sys2Proof.Machine
end

section
/-! PROOF. The opcode map (30_encoding.md R83, R84): a row selects exactly the words of the commands that have its opcode, so the
map and the decoder say the same. -/

namespace Sys2Proof.Machine

/-! ### A row selects the words of its commands -/

/-- Every command stands in its own row of R83. -/
theorem tableRow_statement (i : Instr) : Laws.TableRow.Statement i := by
  cases i with
  | nop => exact Laws.TableRow.nop
  | clear => exact Laws.TableRow.clear
  | pathBegin sym => exact Laws.TableRow.pathBegin sym
  | pathBit b => exact Laws.TableRow.pathBit b
  | pathEnd => exact Laws.TableRow.pathEnd
  | setSentinel sym => exact Laws.TableRow.setSentinel sym
  | decode => exact Laws.TableRow.decode
  | abort => exact Laws.TableRow.abort
  | freqWrite sym f => exact Laws.TableRow.freqWrite sym f
  | freqClear => exact Laws.TableRow.freqClear
  | build => exact Laws.TableRow.build
  | readNode idx => exact Laws.TableRow.readNode idx
  | readReg reg => exact Laws.TableRow.readReg reg
  | writeCtrl v => exact Laws.TableRow.writeCtrl v
  | ack m => exact Laws.TableRow.ack m

/-- The bits of a data word that a mask does not cover are its operand; those it covers are 0. -/
theorem setWidth_lowBits_of_and {k : Nat} {d m : BitVec 32} (hm : ∀ i < 32, k ≤ i → m.getLsbD i = true) (h : d &&& m = 0) :
    (d.extractLsb' 0 k).setWidth 32 = d := by
  refine setWidth_lowBits d (BitVec.eq_of_getLsbD_eq fun i hi => ?_)
  have hbit : (d &&& m).getLsbD (k + i) = false := by rw [h]; simp
  rw [BitVec.getLsbD_and, hm (k + i) (by omega) (by omega), Bool.and_true] at hbit
  simp [hbit]

/-- A row whose mask covers the whole word selects one word. -/
theorem eq_want_of_selects {r : OpcodeRow} {w : Word64} (hmask : r.mask = BitVec.allOnes 64) (h : r.selects w = true) :
    r.want = w := by
  rw [OpcodeRow.selects, beq_iff_eq, hmask, BitVec.and_allOnes] at h
  exact h.symm

/-- A row whose mask covers OP and RSV: what it says of the four fields of a word it selects. -/
theorem fields_of_selects {r : OpcodeRow} {w : Word64} (op : BitVec 4) (hwant : r.want = commandWord op 0 0)
    (hop : opField r.mask = BitVec.allOnes 4) (hrsv : rsvField r.mask = BitVec.allOnes 19) (h : r.selects w = true) :
    opField w = op ∧ rsvField w = 0 ∧ symField w &&& symField r.mask = 0 ∧ dataField w &&& dataField r.mask = 0 := by
  rw [OpcodeRow.selects, beq_iff_eq, hwant, word_eq_iff_fields] at h
  simpa only [opField_and, rsvField_and, symField_and, dataField_and, opField_commandWord, rsvField_commandWord,
    symField_commandWord, dataField_commandWord, hop, hrsv, BitVec.and_allOnes] using h

/-- A row whose mask leaves SYM free. -/
theorem commandWord_sym_of_selects {r : OpcodeRow} {w : Word64} (op : BitVec 4) (hwant : r.want = commandWord op 0 0)
    (hop : opField r.mask = BitVec.allOnes 4) (hrsv : rsvField r.mask = BitVec.allOnes 19)
    (hdata : dataField r.mask = BitVec.allOnes 32) (h : r.selects w = true) : commandWord op (symField w) 0 = w := by
  obtain ⟨ho, hr, -, hd⟩ := fields_of_selects op hwant hop hrsv h
  rw [hdata, BitVec.and_allOnes] at hd
  exact commandWord_of_fields (congrArg _ ho) hr rfl hd

/-- A row whose mask leaves the low `k` bits of DATA free. -/
theorem commandWord_low_of_selects {r : OpcodeRow} {w : Word64} (op : BitVec 4) (k : Nat) (hwant : r.want = commandWord op 0 0)
    (hop : opField r.mask = BitVec.allOnes 4) (hrsv : rsvField r.mask = BitVec.allOnes 19) (hsym : symField r.mask = BitVec.allOnes 9)
    (hdata : ∀ i < 32, k ≤ i → (dataField r.mask).getLsbD i = true) (h : r.selects w = true) :
    commandWord op 0 (((dataField w).extractLsb' 0 k).setWidth 32) = w := by
  obtain ⟨ho, hr, hs, hd⟩ := fields_of_selects op hwant hop hrsv h
  rw [hsym, BitVec.and_allOnes] at hs
  exact commandWord_of_fields (congrArg _ ho) hr hs (setWidth_lowBits_of_and hdata hd).symm

/-- Every word that a row of R83 selects is the word of a command with that row's opcode. -/
theorem exists_encode_of_selects {k : Nat} {r : OpcodeRow} {w : Word64} (hr : opcodeTable[k]? = some r) (h : r.selects w = true) :
    ∃ i : Instr, i.opcode = k ∧ encode i = w := by
  match k, hr with
  | 0, rfl => exact ⟨.nop, rfl, eq_want_of_selects rfl h⟩
  | 1, rfl => exact ⟨.clear, rfl, eq_want_of_selects rfl h⟩
  | 2, rfl => exact ⟨.pathBegin (symField w), rfl, commandWord_sym_of_selects 0x2 rfl rfl rfl rfl h⟩
  | 3, rfl =>
    refine ⟨.pathBit ((dataField w).getLsbD 0), rfl, ?_⟩
    rw [encode, ofBool_getLsbD_zero]
    exact commandWord_low_of_selects 0x3 1 rfl rfl rfl rfl (by decide) h
  | 4, rfl => exact ⟨.pathEnd, rfl, eq_want_of_selects rfl h⟩
  | 5, rfl => exact ⟨.setSentinel (symField w), rfl, commandWord_sym_of_selects 0x5 rfl rfl rfl rfl h⟩
  | 6, rfl => exact ⟨.decode, rfl, eq_want_of_selects rfl h⟩
  | 7, rfl => exact ⟨.abort, rfl, eq_want_of_selects rfl h⟩
  | 8, rfl =>
    obtain ⟨ho, hrsv, -, -⟩ := fields_of_selects 0x8 rfl rfl rfl h
    exact ⟨.freqWrite (symField w) (dataField w), rfl, commandWord_of_fields (congrArg _ ho) hrsv rfl rfl⟩
  | 9, rfl => exact ⟨.freqClear, rfl, eq_want_of_selects rfl h⟩
  | 10, rfl => exact ⟨.build, rfl, eq_want_of_selects rfl h⟩
  | 11, rfl =>
    exact ⟨.readNode ((dataField w).extractLsb' 0 10), rfl, commandWord_low_of_selects 0xB 10 rfl rfl rfl rfl (by decide) h⟩
  | 12, rfl =>
    exact ⟨.readReg ((dataField w).extractLsb' 0 4), rfl, commandWord_low_of_selects 0xC 4 rfl rfl rfl rfl (by decide) h⟩
  | 13, rfl =>
    exact ⟨.writeCtrl ((dataField w).extractLsb' 0 2), rfl, commandWord_low_of_selects 0xD 2 rfl rfl rfl rfl (by decide) h⟩
  | 14, rfl => exact ⟨.ack ((dataField w).extractLsb' 0 2), rfl, commandWord_low_of_selects 0xE 2 rfl rfl rfl rfl (by decide) h⟩

/-- A row of R83 selects exactly the words of the commands with its opcode. -/
theorem selects_iff {k : Nat} {r : OpcodeRow} {w : Word64} (hr : opcodeTable[k]? = some r) :
    r.selects w = true ↔ ∃ i : Instr, i.opcode = k ∧ encode i = w := by
  refine ⟨exists_encode_of_selects hr, ?_⟩
  rintro ⟨i, rfl, rfl⟩
  obtain ⟨r', hr', hsel, _⟩ := tableRow_statement i
  obtain rfl : r' = r := Option.some.inj (hr'.symm.trans hr)
  exact hsel

/-- A row is marked B exactly when its commands need the builder (R83). -/
theorem builder_eq_needsBuilder {r : OpcodeRow} {i : Instr} (hr : opcodeTable[i.opcode]? = some r) : r.builder = i.needsBuilder := by
  obtain ⟨r', hr', _, hb⟩ := tableRow_statement i
  obtain rfl : r' = r := Option.some.inj (hr'.symm.trans hr)
  exact hb

theorem wellFormed_iff {p : Params} {i : Instr} : i.wellFormed p = true ↔ (i.needsBuilder = true → p.hasBuilder = true) := by
  unfold Instr.wellFormed
  cases p.hasBuilder <;> cases i.needsBuilder <;> simp

/-- Settles O3: a legal word is one command's, which stands in one row; a row the machine has holds commands the machine has. -/
theorem legalWordMatchesExactlyItsRow : Obligations.LegalWordMatchesExactlyItsRow := by
  intro p w
  refine ⟨fun i hd k r hr => ?_, fun k r hr hsel hb => ?_⟩
  · obtain ⟨rfl, -⟩ := decode_ok_iff.1 hd
    rw [selects_iff hr]
    constructor
    · rintro ⟨j, rfl, hj⟩
      rw [encode_injective hj]
    · rintro rfl
      exact ⟨i, rfl, rfl⟩
  · obtain ⟨i, rfl, rfl⟩ := (selects_iff hr).1 hsel
    rw [builder_eq_needsBuilder hr] at hb
    exact ⟨i, decode_ok_iff.2 ⟨rfl, wellFormed_iff.2 hb⟩, rfl⟩

end Sys2Proof.Machine
end

section
/-! PROOF. Illegal words (30_encoding.md R84, 60_exceptions.md R203). -/

namespace Sys2Proof.Machine

/-- OP of a command's word is its opcode (R81). -/
theorem opField_encode (i : Instr) : opField (encode i) = BitVec.ofNat 4 i.opcode := by
  cases i <;> exact opField_commandWord _ _ _

/-- The opcodes of the builder commands (R83, R84 (c)). -/
theorem needsBuilder_iff_opField (i : Instr) :
    i.needsBuilder = true ↔ opField (encode i) = 0x8 ∨ opField (encode i) = 0x9 ∨ opField (encode i) = 0xA := by
  rw [opField_encode]
  cases i <;> simp [Instr.needsBuilder, Instr.opcode]

/-- OP = 0xF is no command's (R84 (a)). -/
theorem opField_encode_ne_reserved (i : Instr) : opField (encode i) ≠ 0xF := by
  rw [opField_encode]
  cases i <;> simp [Instr.opcode]

/-- A word that is no command's matches no row of R83. -/
theorem no_row_selects_iff (w : Word64) : (∀ r ∈ opcodeTable, r.selects w = false) ↔ ∀ i : Instr, encode i ≠ w := by
  constructor
  · rintro h i rfl
    obtain ⟨r, hr, hsel, -⟩ := tableRow_statement i
    simp [h r (List.mem_of_getElem? hr)] at hsel
  · intro h r hr
    rw [← Bool.not_eq_true]
    intro hsel
    obtain ⟨k, hk⟩ := List.getElem?_of_mem hr
    obtain ⟨i, -, hi⟩ := (selects_iff hk).1 hsel
    exact h i hi

/-- A word is illegal exactly when it is the word of no command that the machine has (R84). -/
theorem decode_error_iff {p : Params} {w : Word64} :
    (∃ e, decode p w = .error e) ↔ ∀ i : Instr, encode i = w → i.wellFormed p = false := by
  have hok : (∃ e, decode p w = .error e) ↔ ∀ i, decode p w ≠ .ok i := by cases decode p w <;> simp
  rw [hok]
  simp only [ne_eq, decode_ok_iff, not_and, Bool.not_eq_true]

/-- The three cases of R84. -/
theorem decode_error_iff_cases (p : Params) (w : Word64) :
    (∃ e, decode p w = .error e) ↔
      opField w = 0xF ∨ (∀ r ∈ opcodeTable, r.selects w = false) ∨
        (p.hasBuilder = false ∧ (opField w = 0x8 ∨ opField w = 0x9 ∨ opField w = 0xA)) := by
  rw [decode_error_iff, no_row_selects_iff]
  by_cases hw : ∃ i : Instr, encode i = w
  · obtain ⟨i, rfl⟩ := hw
    have hill : (∀ j, encode j = encode i → j.wellFormed p = false) ↔ i.wellFormed p = false :=
      ⟨fun h => h i rfl, fun h j hj => encode_injective hj ▸ h⟩
    have hsome : ¬ ∀ j : Instr, encode j ≠ encode i := fun h => h i rfl
    rw [hill, ← needsBuilder_iff_opField, or_iff_right (opField_encode_ne_reserved i), or_iff_right hsome]
    simp [Instr.wellFormed]
  · have hnone : ∀ i : Instr, encode i ≠ w := fun i hi => hw ⟨i, hi⟩
    exact iff_of_true (fun i hi => absurd hi (hnone i)) (.inr (.inl hnone))

/-- Settles O4: the three cases, and the one effect of an illegal word. -/
theorem illegalWordRecordsOnlyIllegalCmd : Obligations.IllegalWordRecordsOnlyIllegalCmd := by
  refine fun s w => ⟨decode_error_iff_cases s.params w, fun ⟨e, he⟩ hm => ?_⟩
  rcases executeWord_cases w s with ⟨i, hi, _⟩ | ⟨_, _, heq⟩
  · simp [he] at hi
  · rw [heq, illegalWord_next hm]
    rfl

end Sys2Proof.Machine
end

section
/-! PROOF. The expansion of FREQS (30_encoding.md R94): FREQ_CLEAR, then the writes of its nonzero entries in ascending order. -/

namespace Sys2Proof.Machine

theorem execAll_append {is js : List Instr} {s t : State} (h : execAll is s = .next t) : execAll (is ++ js) s = execAll js t := by
  induction is generalizing s with
  | nil => cases h; rfl
  | cons i is ih =>
    cases he : exec i s with
    | next u =>
      simp only [execAll, List.cons_append, he] at h ⊢
      exact ih h
    | fault r => simp [execAll, he] at h
    | refused r => simp [execAll, he] at h

theorem execAll_singleton (i : Instr) (s : State) : execAll [i] s = exec i s := by
  cases h : exec i s <;> simp [execAll, h]

/-- FREQ_CLEAR in MODE IDLE, with the builder (R101). -/
theorem exec_freqClear {s : State} (hm : s.mode = .idle) (hb : s.params.hasBuilder = true) :
    exec .freqClear s = .next { s with freqs := List.replicate s.freqs.length 0 } := by
  rw [exec_run (wellFormed_of_hasBuilder hb _) (by rw [hm]; rfl), ← List.map_const']
  rfl

/-- FREQ_WRITE of a real symbol in MODE IDLE, with the builder (R100). -/
theorem exec_freqWrite {s : State} {sym : Sym} (hm : s.mode = .idle) (hb : s.params.hasBuilder = true)
    (hsym : sym.toNat < s.params.nSym) (f : Freq) :
    exec (.freqWrite sym f) s = .next { s with freqs := s.freqs.set sym.toNat f } := by
  rw [exec_run (wellFormed_of_hasBuilder hb _) (by rw [hm]; rfl)]
  exact if_pos hsym

/-- The write of FREQS's operand `i`, if it is not 0 (R94). -/
def freqsWrite (fs : List Freq) (i : Nat) : Option Instr :=
  if fs.getD i 0 = 0 then none else some (.freqWrite (BitVec.ofNat 9 i) (fs.getD i 0))

theorem freqsWrite_of_zero {fs : List Freq} {i : Nat} (h : fs.getD i 0 = 0) : freqsWrite fs i = none := if_pos h

theorem freqsWrite_of_ne_zero {fs : List Freq} {i : Nat} (h : fs.getD i 0 ≠ 0) :
    freqsWrite fs i = some (.freqWrite (BitVec.ofNat 9 i) (fs.getD i 0)) := if_neg h

theorem freqsExpansion_eq (fs : List Freq) :
    freqsExpansion fs = [.freqClear] ++ (List.range fs.length).filterMap (freqsWrite fs) := rfl

/-- The table of `size` entries in which the first `n` operands of FREQS stand. -/
def freqsTable (fs : List Freq) (size n : Nat) : List Freq := fs.take n ++ List.replicate (size - n) 0

/-- The entry that the next operand goes to is still 0. -/
theorem freqsTable_eq_zero_at {fs : List Freq} {size n : Nat} (hn : n < size) :
    freqsTable fs size n = fs.take n ++ 0 :: List.replicate (size - (n + 1)) 0 := by
  rw [freqsTable, ← List.replicate_succ]
  congr 2
  omega

theorem freqsTable_succ {fs : List Freq} {n : Nat} (hn : n < fs.length) (size : Nat) :
    freqsTable fs size (n + 1) = fs.take n ++ fs.getD n 0 :: List.replicate (size - (n + 1)) 0 := by
  rw [freqsTable, List.take_succ_eq_append_getElem hn, List.getD_eq_getElem _ _ hn, List.append_assoc, List.singleton_append]

theorem freqsTable_length (fs : List Freq) (size : Nat) :
    freqsTable fs size fs.length = fs ++ List.replicate (size - fs.length) 0 := by
  rw [freqsTable, List.take_length]

theorem freqsTable_set {fs : List Freq} {size n : Nat} (hn : n < fs.length) (hsize : fs.length ≤ size) :
    (freqsTable fs size n).set n (fs.getD n 0) = freqsTable fs size (n + 1) := by
  have hlen : (fs.take n).length = n := List.length_take_of_le hn.le
  rw [freqsTable_eq_zero_at (hn.trans_le hsize), freqsTable_succ hn, List.set_append_right _ _ hlen.le, hlen, Nat.sub_self,
    List.set_cons_zero]

/-- Operand `n`, written or, as a 0, left out: its entry was 0 before. -/
theorem execAll_freqsWrite {s : State} {fs : List Freq} {n : Nat} (hm : s.mode = .idle) (hb : s.params.hasBuilder = true)
    (hfs : fs.length ≤ s.params.nSym) (hn : n < fs.length) (ht : s.freqs = freqsTable fs s.params.nSym n) :
    execAll ([n].filterMap (freqsWrite fs)) s = .next { s with freqs := freqsTable fs s.params.nSym (n + 1) } := by
  by_cases h0 : fs.getD n 0 = 0
  · have hsame : freqsTable fs s.params.nSym (n + 1) = s.freqs := by
      rw [ht, freqsTable_succ hn, h0, freqsTable_eq_zero_at (hn.trans_le hfs)]
    rw [List.filterMap_cons_none (freqsWrite_of_zero h0), hsame]
    rfl
  · have hsym : (BitVec.ofNat 9 n).toNat = n := by
      have hbound := nSym_lt s.params
      rw [BitVec.toNat_ofNat]
      omega
    rw [List.filterMap_cons_some (freqsWrite_of_ne_zero h0), List.filterMap_nil, execAll_singleton, exec_freqWrite hm hb (by omega), hsym, ht,
      freqsTable_set hn hfs]

/-- The writes of the first `n` operands, on the cleared table. -/
theorem execAll_freqsWrites {s : State} {fs : List Freq} {n : Nat} (hm : s.mode = .idle) (hb : s.params.hasBuilder = true)
    (hfs : fs.length ≤ s.params.nSym) (hn : n ≤ fs.length) (ht : s.freqs = freqsTable fs s.params.nSym 0) :
    execAll ((List.range n).filterMap (freqsWrite fs)) s = .next { s with freqs := freqsTable fs s.params.nSym n } := by
  induction n with
  | zero => rw [← ht]; rfl
  | succ n ih =>
    rw [List.range_succ, List.filterMap_append, execAll_append (ih (by omega))]
    exact execAll_freqsWrite hm hb hfs hn rfl

/-- Settles O59: FREQ_CLEAR leaves a table of zeros, and the writes run on that. -/
theorem freqsExpansionFillsTheTable : Obligations.FreqsExpansionFillsTheTable := by
  intro s fs hm hb hsize hfs
  have hclear : execAll [.freqClear] s = .next { s with freqs := freqsTable fs s.params.nSym 0 } := by
    rw [execAll_singleton, exec_freqClear hm hb, hsize]
    rfl
  rw [freqsExpansion_eq, execAll_append hclear, ← freqsTable_length]
  exact execAll_freqsWrites hm hb hfs le_rfl rfl

end Sys2Proof.Machine
end

section
/-! PROOF. The HOST's step (30_encoding.md R88, 10_state.md R51, R56): the word it transfers is decoded and executed. -/

namespace Sys2Proof.Machine

/-- The HOST steps when it is named, and when the WALKER has no step (R56, R70). -/
theorem agentStep_of_host {s : State} (hh : s.hostEnabled = true) {first : Bool} (h : first = true ∨ s.walkerEnabled = false) :
    agentStep first s = hostStep s := by
  rcases h with rfl | hw
  · cases hw : s.walkerEnabled <;> simp [agentStep, hh, hw]
  · simp only [agentStep, hh, hw]

/-- A turn of the HOST's on a word that decodes: the command runs on the state with the word and the turn taken (R88). -/
theorem agentStep_runs_decoded {s : State} {w : Word64} {rest : List Word64} {i : Instr} (hc : s.commands = w :: rest)
    (hm : s.mode ≠ .build) (hd : decode s.params w = .ok i) {first : Bool} (h : first = true ∨ s.walkerEnabled = false)
    (turns : List Turn) (n : Nat) :
    agentStep first { s with turns := turns, freeTurns := n } =
      exec i { s with commands := rest, turns := turns, freeTurns := n } := by
  have hh : s.hostEnabled = true := (hostEnabled_iff s).2 ⟨hm, by simp [hc]⟩
  rw [agentStep_of_host (by rw [hostEnabled_turns, hh]) (by rwa [walkerEnabled_turns]), hostStep_cons (by exact hc)]
  simp only [executeWord, hd]

/-- Settles O6: in each of the three cases the turn is the HOST's. -/
theorem stepRunsTheDecodedCommand : Obligations.StepRunsTheDecodedCommand := by
  intro s w rest i hc hm hd
  have hrun := @agentStep_runs_decoded s w rest i hc hm hd
  refine ⟨fun ts ht => ?_, fun ts ht hw => ?_, fun ht hw => ?_⟩
  · rw [step, takeTurn, ht]
    exact hrun (.inl rfl) ts s.freeTurns
  · rw [step, takeTurn, ht]
    exact hrun (.inr hw) ts s.freeTurns
  · rw [step_of_no_turn ht]
    exact hrun (.inr hw) s.turns (s.freeTurns + 1)

end Sys2Proof.Machine
end

section
/-! PROOF. The examples that the spec writes out: the words of 30_encoding.md R98 and lines of a listing (R90 to R97). Closed facts,
evaluated. -/

namespace Sys2Proof.Machine

/-- Settles O5: the model's decoder is run on each word of R98. -/
theorem specExampleWordsDecodeAsListed : Obligations.SpecExampleWordsDecodeAsListed :=
  ⟨by decide, by decide, by decide⟩

/-- Settles O60: the model's assembler is run on each line. -/
theorem listingLinesAssembleAsShown : Obligations.ListingLinesAssembleAsShown :=
  ⟨by decide, by decide⟩

end Sys2Proof.Machine
end

section
/-! PROOF. FREQ_WRITE and FREQ_CLEAR (40_builder.md R100, R101): the frequency table they leave. -/

namespace Sys2Proof.Machine

/-- FREQ_WRITE of no real symbol in MODE IDLE, with the builder (R100, 60_exceptions.md R206). -/
theorem exec_freqWrite_badIndex {s : State} {sym : Sym} (hm : s.mode = .idle) (hb : s.params.hasBuilder = true)
    (hsym : s.params.nSym ≤ sym.toNat) (f : Freq) : exec (.freqWrite sym f) s = .next (s.recordError .badIndex) := by
  rw [exec_run (wellFormed_of_hasBuilder hb _) (by rw [hm]; rfl)]
  exact if_neg hsym.not_gt

/-- Settles O39: the table is the old one with one entry set. -/
theorem freqWriteWritesOneEntry : Obligations.FreqWriteWritesOneEntry := by
  intro s sym f hm hb hsize
  refine ⟨fun hsym => ⟨s.freqs.set sym.toNat f, exec_freqWrite hm hb hsym f, ?_, ?_, fun i hi => ?_⟩,
    fun hsym => exec_freqWrite_badIndex hm hb hsym f⟩
  · rw [List.length_set, hsize]
  · exact List.getElem?_set_self (hsize ▸ hsym)
  · exact List.getElem?_set_ne hi.symm

/-- Settles O40: the table is replaced by as many zeros. -/
theorem freqClearZeroesEveryEntry : Obligations.FreqClearZeroesEveryEntry := fun _ hm hb =>
  ⟨_, exec_freqClear hm hb, List.length_replicate, fun _ hf => List.eq_of_mem_replicate hf⟩

end Sys2Proof.Machine
end

section
/-! PROOF SUPPORT. What a BUILD whose total fits leaves (40_builder.md R102 to R108), in MODE IDLE with the builder, and the list of
its leaves. -/

namespace Sys2Proof.Machine

/-- The real symbols with a nonzero frequency, in ascending order (R103). -/
def State.usedSymbols (s : State) : List Nat := (List.range s.params.nSym).filter fun i => s.freqRead i ≠ 0

theorem lt_of_mem_usedSymbols {s : State} {i : Nat} (h : i ∈ s.usedSymbols) : i < s.params.nSym :=
  List.mem_range.1 (List.mem_filter.1 h).1

/-- A BUILD that fits completes, with the root alone in the queue of its tables (R108). -/
theorem exec_build {s : State} (hm : s.mode = .idle) (hb : s.params.hasBuilder = true) (hf : s.freqTotal ≤ 0xFFFFFFFF) :
    ∃ root, s.buildTables.queue = [root] ∧ exec .build s = .next (s.buildDone s.buildTables.nodes root []) := by
  rw [exec_run (wellFormed_of_hasBuilder hb _) (by rw [hm]; rfl)]
  exact buildRule_next s hf

theorem eq_buildDone_of_exec_build {s t : State} (hm : s.mode = .idle) (hb : s.params.hasBuilder = true)
    (hf : s.freqTotal ≤ 0xFFFFFFFF) (h : exec .build s = .next t) :
    ∃ root, s.buildTables.queue = [root] ∧ t = s.buildDone s.buildTables.nodes root [] := by
  obtain ⟨root, hroot, hnext⟩ := exec_build hm hb hf
  rw [hnext] at h
  cases h
  exact ⟨root, hroot, rfl⟩

/-- BUILD's leaves, in terms of the symbols that have one (R103). -/
theorem buildLeaves_eq (s : State) :
    s.buildLeaves = s.usedSymbols.map (fun i => Node.leaf (BitVec.ofNat 9 i) (s.freqRead i)) ++
      [Node.leaf s.params.builderSentinel 1] := by
  rw [State.buildLeaves, State.usedSymbols, ← List.filterMap_eq_map, List.filterMap_filter]
  congr 2
  funext i
  by_cases h : s.freqRead i = 0 <;> simp [h]

theorem buildLeaves_length_eq (s : State) : s.buildLeaves.length = s.usedSymbols.length + 1 := by
  simp [buildLeaves_eq]

/-- The loop ends with 2K - 1 entries for K leaves (R107). -/
theorem buildTables_length {s : State} (hf : s.freqTotal ≤ 0xFFFFFFFF) :
    s.buildTables.nodes.length + 1 = 2 * s.buildLeaves.length := by
  obtain ⟨hI, root, hroot⟩ := buildTables_spec s hf
  simpa [hroot] using hI.count

theorem isLeaf_of_mem_buildLeaves {s : State} {n : Node} (hn : n ∈ s.buildLeaves) : n.isLeaf = true :=
  (buildLeaves_isLeaf s n hn).1

/-- An entry with a child is a merge (R107). -/
theorem MergeInv.merges_of_internal {leaves : List Node} {b : Builder} (h : MergeInv leaves b)
    (hleaf : ∀ n ∈ leaves, n.isLeaf = true) {j : Nat} {n : Node} (hn : b.nodes[j]? = some n) (hi : n.isLeaf = false) :
    leaves.length ≤ j ∧ ∃ a c, Merges b.nodes j a c ∧ n = mergeNode b.nodes a c := by
  obtain ⟨hj, rfl⟩ := List.getElem?_eq_some_iff.1 hn
  have hk : leaves.length ≤ j := by
    by_contra hk
    rw [h.getElem_leaf hj (by omega), hleaf _ (List.getElem_mem _)] at hi
    cases hi
  obtain ⟨a, c, hac⟩ := h.merges j hk hj
  exact ⟨hk, a, c, hac, Option.some.inj (hn.symm.trans hac.entry)⟩

end Sys2Proof.Machine
end

section
/-! PROOF. The tables that a BUILD leaves (40_builder.md R103 to R108, R110 (a)): each statement reads one part of the merge loop's
invariant. -/

namespace Sys2Proof.Machine

/-- Settles O42: the count is the loop's, and the entry that is no child is the last. -/
theorem buildCompletesWithTheRootLast : Obligations.BuildCompletesWithTheRootLast := by
  intro s hm hb hf
  obtain ⟨root, hroot, hnext⟩ := exec_build hm hb hf
  obtain ⟨htree, hbounds⟩ := builtTree_buildDone hf hroot
  refine ⟨s.buildTables.nodes, root, hnext, htree.root_last, ?_, hbounds.count_le⟩
  rw [buildTables_length hf, buildLeaves_length_eq]
  rfl

/-- Settles O43: the loop keeps the leaves first and adds nothing but merges. -/
theorem buildAllocatesTheLeavesFirst : Obligations.BuildAllocatesTheLeavesFirst := by
  intro s t hm hb hf h
  obtain ⟨root, -, rfl⟩ := eq_buildDone_of_exec_build hm hb hf h
  obtain ⟨hI, -⟩ := buildTables_spec s hf
  change s.buildTables.nodes.take (s.usedSymbols.length + 1) = _ ∧
    ∀ n ∈ s.buildTables.nodes.drop (s.usedSymbols.length + 1), _
  rw [← buildLeaves_length_eq]
  refine ⟨hI.leaves_first.trans (buildLeaves_eq s), fun n hn => ?_⟩
  obtain ⟨k, hk, rfl⟩ := List.getElem_of_mem hn
  rw [List.length_drop] at hk
  obtain ⟨a, c, hac⟩ := hI.merges (s.buildLeaves.length + k) (by omega) (by omega)
  rw [List.getElem_drop, (List.getElem_eq_iff _).2 hac.entry]
  exact ⟨rfl, Option.some_ne_none a, Option.some_ne_none c⟩

/-- Settles O44: an internal entry is a merge, and a merge is the greedy choice. -/
theorem buildMergesTheTwoLeastKeys : Obligations.BuildMergesTheTwoLeastKeys := by
  intro s t hm hb hf h queued before j n hn hi
  obtain ⟨root, -, rfl⟩ := eq_buildDone_of_exec_build hm hb hf h
  obtain ⟨hI, -⟩ := buildTables_spec s hf
  obtain ⟨-, a, c, hac, rfl⟩ := hI.merges_of_internal (fun _ => isLeaf_of_mem_buildLeaves) hn hi
  have hbefore : ∀ x y, keyBefore s.buildTables.nodes x y = true → before x y := fun x y hxy => by
    rw [keyBefore_iff, ← BitVec.toNat_eq] at hxy
    exact hxy
  exact ⟨a, c, rfl, rfl, hac.left, hac.right, hbefore _ _ hac.ordered, fun x hx hxa hxc => hbefore _ _ (hac.least x hx hxa hxc),
    mergeNode_freq hac⟩

/-- Settles O45: the loop keeps the sum over the queue, and the root ends alone in it. -/
theorem builtRootCarriesTheTotal : Obligations.BuiltRootCarriesTheTotal := by
  intro s t hm hb hf h
  obtain ⟨root, hroot, rfl⟩ := eq_buildDone_of_exec_build hm hb hf h
  obtain ⟨hI, -⟩ := buildTables_spec s hf
  calc (nodeAt s.buildTables.nodes root).freq.toNat
      = freqSum s.buildTables.nodes s.buildTables.queue := by simp [hroot, freqSum]
    _ = s.freqTotal := hI.total.trans (buildLeaves_total s)

end Sys2Proof.Machine
end

section
/-! PROOF. No leaf's path begins another's (40_builder.md R110 (b), 41_tree_load.md R130): two leaves' paths part at a node where one
goes left and the other right. -/

namespace Sys2Proof.Machine

/-- The walk from a node's child on side `b`, if it has one (R130). -/
def pathsBelow (nodes : List Node) (fuel : Nat) (i : Idx) (path : List Bool) (b : Bool) : List (Sym × List Bool) :=
  ((nodeAt nodes i).child b).elim [] fun j => pathsFrom nodes fuel j (path ++ [b])

theorem pathsFrom_of_isLeaf {nodes : List Node} {i : Idx} (h : (nodeAt nodes i).isLeaf = true) (fuel : Nat) (path : List Bool) :
    pathsFrom nodes (fuel + 1) i path = [((nodeAt nodes i).symValue, path)] := by
  rw [pathsFrom, if_pos h]

theorem pathsFrom_of_internal {nodes : List Node} {i : Idx} (h : (nodeAt nodes i).isLeaf = false) (fuel : Nat)
    (path : List Bool) :
    pathsFrom nodes (fuel + 1) i path = pathsBelow nodes fuel i path false ++ pathsBelow nodes fuel i path true := by
  rw [pathsFrom, if_neg (by simp [h]), pathsBelow, pathsBelow, Node.child, Node.child]
  cases (nodeAt nodes i).left <;> cases (nodeAt nodes i).right <;> rfl

theorem prefix_of_mem_pathsFrom {nodes : List Node} {fuel : Nat} {i : Idx} {path : List Bool} {x : Sym × List Bool}
    (h : x ∈ pathsFrom nodes fuel i path) : path <+: x.2 := by
  obtain ⟨q, -, hq, -⟩ := mem_pathsFrom.1 h
  exact ⟨q, hq.symm⟩

theorem prefix_of_mem_pathsBelow {nodes : List Node} {fuel : Nat} {i : Idx} {path : List Bool} {b : Bool} {x : Sym × List Bool}
    (h : x ∈ pathsBelow nodes fuel i path b) : path ++ [b] <+: x.2 := by
  unfold pathsBelow at h
  cases hc : (nodeAt nodes i).child b with
  | none => simp [hc] at h
  | some j => exact prefix_of_mem_pathsFrom (by simpa [hc] using h)

/-- Neither of two paths begins the other. -/
def Diverge (p q : List Bool) : Prop := ¬ p <+: q ∧ ¬ q <+: p

/-- Paths that differ at one place diverge. -/
theorem diverge_of_prefix {path p q : List Bool} (hp : path ++ [false] <+: p) (hq : path ++ [true] <+: q) : Diverge p q := by
  have hne : ∀ {r : List Bool}, path ++ [false] <+: r → path ++ [true] <+: r → False := fun h h' => by
    simpa using (List.prefix_of_prefix_length_le h h' (by simp)).eq_of_length (by simp)
  exact ⟨fun h => hne (hp.trans h) hq, fun h => hne hp (hq.trans h)⟩

theorem pairwise_pathsFrom (nodes : List Node) (fuel : Nat) (i : Idx) (path : List Bool) :
    (pathsFrom nodes fuel i path).Pairwise fun x y => Diverge x.2 y.2 := by
  induction fuel generalizing i path with
  | zero => exact List.Pairwise.nil
  | succ fuel ih =>
    cases hl : (nodeAt nodes i).isLeaf with
    | true =>
      rw [pathsFrom_of_isLeaf hl]
      exact List.pairwise_singleton _ _
    | false =>
      have below : ∀ b, (pathsBelow nodes fuel i path b).Pairwise fun x y => Diverge x.2 y.2 := fun b => by
        unfold pathsBelow
        cases (nodeAt nodes i).child b with
        | none => exact List.Pairwise.nil
        | some j => exact ih j _
      rw [pathsFrom_of_internal hl]
      exact List.pairwise_append.2 ⟨below false, below true, fun x hx y hy =>
        diverge_of_prefix (prefix_of_mem_pathsBelow hx) (prefix_of_mem_pathsBelow hy)⟩

/-- Settles O46, by induction on the walk's fuel. -/
theorem leafPathsArePrefixFree : Obligations.LeafPathsArePrefixFree := fun s =>
  pairwise_pathsFrom s.nodes s.nodes.length s.root []

end Sys2Proof.Machine
end

section
/-! PROOF. The pairs of a built tree are its leaves (40_builder.md R110 (c)): each of BUILD's leaves is reached by one path, and
nothing else is a leaf. -/

namespace Sys2Proof.Machine

/-- The first entries of the tables are the leaves that BUILD started from, and no later entry is a leaf (R103). -/
theorem MergeInv.getElem?_leaf_iff {leaves : List Node} {b : Builder} (h : MergeInv leaves b)
    (hleaf : ∀ n ∈ leaves, n.isLeaf = true) {j : Nat} {n : Node} :
    leaves[j]? = some n ↔ b.nodes[j]? = some n ∧ n.isLeaf = true := by
  have first {j : Nat} (hj : j < leaves.length) : b.nodes[j]? = leaves[j]? := by
    rw [← List.getElem?_take_of_lt hj, h.leaves_first]
  constructor
  · intro hn
    obtain ⟨hj, -⟩ := List.getElem?_eq_some_iff.1 hn
    exact ⟨(first hj).trans hn, hleaf n (List.mem_of_getElem? hn)⟩
  · rintro ⟨hn, hl⟩
    obtain ⟨hj, -⟩ := List.getElem?_eq_some_iff.1 hn
    by_cases hk : j < leaves.length
    · exact (first hk).symm.trans hn
    · obtain ⟨a, c, hac⟩ := h.merges j (by omega) hj
      obtain rfl := Option.some.inj (hn.symm.trans hac.entry)
      cases hl

/-- The pairs of a built tree: the leaves of BUILD, each with a path that leads to it. -/
theorem mem_paths_buildDone {s : State} (hf : s.freqTotal ≤ 0xFFFFFFFF) {root : Idx} (hroot : s.buildTables.queue = [root])
    {x : Sym × List Bool} :
    x ∈ (s.buildDone s.buildTables.nodes root []).paths ↔
      ∃ (l : Idx) (n : Node),
        locate s.buildTables.nodes root x.2 = some l ∧ s.buildLeaves[l.toNat]? = some n ∧ x.1 = n.symValue := by
  obtain ⟨sym, p⟩ := x
  obtain ⟨hI, -⟩ := buildTables_spec s hf
  obtain ⟨htree, hbounds⟩ := builtTree_buildDone hf hroot
  have hlt : root.toNat < s.buildTables.nodes.length := hbounds.root_lt
  have hentry {l : Idx} {n : Node} := @MergeInv.getElem?_leaf_iff _ _ hI (fun _ => isLeaf_of_mem_buildLeaves) l.toNat n
  rw [State.paths, State.buildDone_nodes, State.buildDone_root, mem_pathsFrom]
  constructor
  · rintro ⟨p, l, rfl, -, hloc, hleaf, rfl⟩
    have hl : l.toNat < s.buildTables.nodes.length := locate_lt hbounds.child_lt hlt hloc
    exact ⟨l, nodeAt s.buildTables.nodes l, hloc, hentry.2 ⟨by simp [nodeAt, hl], hleaf⟩, rfl⟩
  · rintro ⟨l, n, hloc, hl, hsym⟩
    obtain ⟨hn, hleaf⟩ := hentry.1 hl
    have hdown : l.toNat + p.length ≤ root.toNat := locate_below htree.children_below hloc
    obtain rfl := nodeAt_of_getElem? hn
    exact ⟨p, l, rfl, by omega, hloc, hleaf, hsym⟩

/-- The symbols of BUILD's leaves, in order (R103). -/
theorem buildLeaves_symbols (s : State) :
    s.buildLeaves.map Node.symValue = (s.usedSymbols ++ [s.params.nSym]).map (BitVec.ofNat 9) := by
  simp [buildLeaves_eq, Function.comp_def, Node.leaf, Node.symValue, Params.builderSentinel]

/-- No two of BUILD's leaves have one symbol. -/
theorem buildLeaves_symbols_nodup (s : State) : (s.buildLeaves.map Node.symValue).Nodup := by
  have hn := nSym_lt s.params
  have hnd : (s.usedSymbols ++ [s.params.nSym]).Nodup :=
    List.nodup_append.2 ⟨List.nodup_range.filter _, List.nodup_singleton _, fun i hi j hj => by
      rw [List.mem_singleton.1 hj]
      exact (lt_of_mem_usedSymbols hi).ne⟩
  have hle : ∀ i ∈ s.usedSymbols ++ [s.params.nSym], i < 512 := fun i hi => by
    rcases List.mem_append.1 hi with h | h
    · exact (lt_of_mem_usedSymbols h).trans hn
    · rwa [List.mem_singleton.1 h]
  rw [buildLeaves_symbols]
  refine hnd.map_on fun i hi j hj e => ?_
  simpa [BitVec.toNat_eq, Nat.mod_eq_of_lt (hle i hi), Nat.mod_eq_of_lt (hle j hj)] using e

/-- Two leaves of BUILD with one symbol stand at one index. -/
theorem index_eq_of_symValue_eq {s : State} {l m : Idx} {n k : Node} (hl : s.buildLeaves[l.toNat]? = some n)
    (hm : s.buildLeaves[m.toNat]? = some k) (h : n.symValue = k.symValue) : l = m := by
  obtain ⟨hlt, -⟩ := List.getElem?_eq_some_iff.1 hl
  exact BitVec.eq_of_toNat_eq
    ((List.getElem?_inj (by rwa [List.length_map]) (buildLeaves_symbols_nodup s)).1 (by simp [hl, hm, h]))

/-- A path leads to each of BUILD's leaves. -/
theorem exists_path_of_mem_buildLeaves {s : State} (hf : s.freqTotal ≤ 0xFFFFFFFF) {root : Idx}
    (hroot : s.buildTables.queue = [root]) {n : Node} (hn : n ∈ s.buildLeaves) :
    ∃ (l : Idx) (p : List Bool), locate s.buildTables.nodes root p = some l ∧ s.buildLeaves[l.toNat]? = some n := by
  obtain ⟨htree, -⟩ := builtTree_buildDone hf hroot
  obtain ⟨j, hj, rfl⟩ := List.getElem_of_mem hn
  have hlen := buildLeaves_length s
  have hsyms := nSym_lt s.params
  have hcount := buildTables_length hf
  have hidx : (BitVec.ofNat 10 j : Idx).toNat = j := ofNat_toNat_idx (by omega)
  have hreach := htree.reached (BitVec.ofNat 10 j) (by rw [hidx, State.buildDone_nodes]; omega)
  obtain ⟨p, hp⟩ := reaches_iff_locate.1 hreach
  exact ⟨BitVec.ofNat 10 j, p, hp, by rw [hidx, List.getElem?_eq_getElem hj]⟩

/-- Settles O47: both lists have the same symbols, and no symbol twice. -/
theorem builtTreeHasOneLeafPerSymbol : Obligations.BuiltTreeHasOneLeafPerSymbol := by
  intro s t hm hb hf h
  obtain ⟨root, hroot, rfl⟩ := eq_buildDone_of_exec_build hm hb hf h
  obtain ⟨hI, -⟩ := buildTables_spec s hf
  obtain ⟨htree, -⟩ := builtTree_buildDone hf hroot
  have hpairs {x} := @mem_paths_buildDone s hf root hroot x
  have hnodup : ((s.buildDone s.buildTables.nodes root []).paths.map Prod.fst).Nodup := by
    refine List.pairwise_map.2 ((leafPathsArePrefixFree _).imp_of_mem fun {x y} hx hy hdiv hsym => ?_)
    obtain ⟨l, n, hlocx, hl, hxn⟩ := hpairs.1 hx
    obtain ⟨m, k, hlocy, hk, hyk⟩ := hpairs.1 hy
    obtain rfl : l = m := index_eq_of_symValue_eq hl hk (by rw [← hxn, ← hyk, hsym])
    exact hdiv.1 (htree.one_parent.locate_unique hlocx hlocy ▸ List.prefix_rfl)
  change List.Perm _ ((s.usedSymbols ++ [s.params.nSym]).map (BitVec.ofNat 9))
  rw [← buildLeaves_symbols]
  refine (List.perm_ext_iff_of_nodup hnodup (buildLeaves_symbols_nodup s)).2 fun sym => ?_
  constructor
  · intro hsym
    obtain ⟨x, hx, rfl⟩ := List.mem_map.1 hsym
    obtain ⟨l, n, -, hl, hxn⟩ := hpairs.1 hx
    exact List.mem_map.2 ⟨n, List.mem_of_getElem? hl, hxn.symm⟩
  · intro hsym
    obtain ⟨n, hn, rfl⟩ := List.mem_map.1 hsym
    obtain ⟨l, p, hloc, hl⟩ := exists_path_of_mem_buildLeaves hf hroot hn
    exact List.mem_map.2 ⟨(n.symValue, p), hpairs.2 ⟨l, n, hloc, hl, rfl⟩, rfl⟩

end Sys2Proof.Machine
end

section
/-! PROOF. In a built tree a lower frequency never gets a strictly shorter path (40_builder.md R110 (d)). The merges come in the
order of their keys: the frequencies of the internal entries never fall, so an entry with a lesser key is taken no later, and its
parent's key is not the greater. Up the two paths this goes on to the root. -/

namespace Sys2Proof.Machine

/-! ### One merge -/

theorem Merges.getD_eq {nodes : List Node} {j : Nat} {a c : Idx} (h : Merges nodes j a c) :
    nodes.getD j Node.zero = mergeNode nodes a c := by
  rw [List.getD_eq_getElem?_getD, h.entry, Option.getD_some]

theorem Merges.mem_children_iff {nodes : List Node} {j : Nat} {a c x : Idx} (h : Merges nodes j a c) :
    x ∈ (nodes.getD j Node.zero).children ↔ x = a ∨ x = c := by
  rw [h.getD_eq, mergeNode_children, List.mem_pair]

theorem Merges.freq_eq {nodes : List Node} {j : Nat} {a c : Idx} (h : Merges nodes j a c) :
    (nodes.getD j Node.zero).freq.toNat = (nodeAt nodes a).freq.toNat + (nodeAt nodes c).freq.toNat := by
  rw [h.getD_eq, mergeNode_freq h]

theorem Merges.queued {nodes : List Node} {j : Nat} {a c x : Idx} (h : Merges nodes j a c) (hx : x = a ∨ x = c) :
    Queued nodes j x := by
  rcases hx with rfl | rfl
  · exact h.left
  · exact h.right

/-- What a merge took has no greater frequency than what it made. -/
theorem Merges.freq_le {nodes : List Node} {j : Nat} {a c x : Idx} (h : Merges nodes j a c) (hx : x = a ∨ x = c) :
    (nodeAt nodes x).freq.toNat ≤ (nodes.getD j Node.zero).freq.toNat := by
  rw [h.freq_eq]
  rcases hx with rfl | rfl
  · exact Nat.le_add_right _ _
  · exact Nat.le_add_left _ _

/-- Both that a merge took come before what it left in the queue. -/
theorem Merges.before_of_queued {nodes : List Node} {j : Nat} {a c x y : Idx} (h : Merges nodes j a c) (hx : x = a ∨ x = c)
    (hy : Queued nodes j y) (hfree : y ∉ (nodes.getD j Node.zero).children) : keyBefore nodes x y = true := by
  rw [h.mem_children_iff, not_or] at hfree
  have hcy := h.least y hy hfree.1 hfree.2
  rcases hx with rfl | rfl
  · exact keyBefore_trans h.ordered hcy
  · exact hcy

theorem freq_le_of_keyBefore {nodes : List Node} {x y : Idx} (h : keyBefore nodes x y = true) :
    (nodeAt nodes x).freq.toNat ≤ (nodeAt nodes y).freq.toNat := by
  rcases keyBefore_iff.1 h with h | h <;> omega

/-- What waits after a merge has at least the frequency of the greater of the two that it took. -/
theorem Merges.freq_le_of_queued_succ {nodes : List Node} {j : Nat} {a c x : Idx} (h : Merges nodes j a c)
    (hx : Queued nodes (j + 1) x) : (nodeAt nodes c).freq.toNat ≤ (nodeAt nodes x).freq.toNat := by
  obtain ⟨hlt, hfree⟩ := hx
  rcases Nat.lt_succ_iff_lt_or_eq.1 hlt with hlt | rfl
  · exact freq_le_of_keyBefore
      (h.before_of_queued (.inr rfl) ⟨hlt, fun m hm => hfree m (hm.trans j.lt_succ_self)⟩ (hfree j j.lt_succ_self))
  · exact h.freq_le (.inr rfl)

/-- The next merge's sum is no less. -/
theorem Merges.freq_le_succ {nodes : List Node} {j : Nat} {a c a' c' : Idx} (h : Merges nodes j a c)
    (h' : Merges nodes (j + 1) a' c') : (nodes.getD j Node.zero).freq.toNat ≤ (nodes.getD (j + 1) Node.zero).freq.toNat := by
  have hac := freq_le_of_keyBefore h.ordered
  have ha' := h.freq_le_of_queued_succ h'.left
  have hc' := h.freq_le_of_queued_succ h'.right
  rw [h.freq_eq, h'.freq_eq]
  omega

/-! ### The order of the merges -/

/-- The frequencies of the internal entries never fall. -/
theorem MergeInv.freq_mono {leaves : List Node} {b : Builder} (h : MergeInv leaves b) {i j : Nat} (hi : leaves.length ≤ i)
    (hij : i ≤ j) (hj : j < b.nodes.length) :
    (b.nodes.getD i Node.zero).freq.toNat ≤ (b.nodes.getD j Node.zero).freq.toNat := by
  induction j, hij using Nat.le_induction with
  | base => exact le_rfl
  | succ j hij ih =>
    obtain ⟨a, c, hac⟩ := h.merges j (by omega) (by omega)
    obtain ⟨a', c', hac'⟩ := h.merges (j + 1) (by omega) hj
    exact (ih (by omega)).trans (hac.freq_le_succ hac')

/-- An entry with a child is a merge that took it (R107). -/
theorem MergeInv.merges_of_child {leaves : List Node} {b : Builder} (h : MergeInv leaves b)
    (hleaf : ∀ n ∈ leaves, n.isLeaf = true) {i x : Idx} (hx : x ∈ (nodeAt b.nodes i).children) :
    leaves.length ≤ i.toNat ∧ ∃ a c, Merges b.nodes i.toNat a c ∧ (x = a ∨ x = c) := by
  have hinternal : (nodeAt b.nodes i).isLeaf = false := by
    by_contra hl
    rw [children_of_isLeaf (by simpa using hl)] at hx
    cases hx
  obtain ⟨hk, a, c, hac, -⟩ := h.merges_of_internal hleaf (j := i.toNat) (by simp [nodeAt, lt_of_child hx]) hinternal
  exact ⟨hk, a, c, hac, hac.mem_children_iff.1 hx⟩

/-- A child's key is less than that of every internal entry from its parent on. -/
theorem MergeInv.child_before {leaves : List Node} {b : Builder} (h : MergeInv leaves b)
    (hleaf : ∀ n ∈ leaves, n.isLeaf = true) {i x y : Idx} (hx : x ∈ (nodeAt b.nodes i).children) (hiy : i.toNat ≤ y.toNat)
    (hy : y.toNat < b.nodes.length) : keyBefore b.nodes x y = true := by
  obtain ⟨hk, a, c, hac, hxac⟩ := h.merges_of_child hleaf hx
  have hlt := (hac.queued hxac).1
  have hfreq : (nodeAt b.nodes x).freq.toNat ≤ (nodeAt b.nodes y).freq.toNat := (hac.freq_le hxac).trans (h.freq_mono hk hiy hy)
  rw [keyBefore_iff]
  omega

/-- What an earlier merge took has the lesser key. -/
theorem MergeInv.before_of_earlier_parent {leaves : List Node} {b : Builder} (h : MergeInv leaves b)
    (hleaf : ∀ n ∈ leaves, n.isLeaf = true) {i j x y : Idx} (hx : x ∈ (nodeAt b.nodes i).children)
    (hy : y ∈ (nodeAt b.nodes j).children) (hij : i.toNat < j.toNat) : keyBefore b.nodes x y = true := by
  obtain ⟨-, a, c, hac, hxac⟩ := h.merges_of_child hleaf hx
  obtain ⟨-, a', c', hac', hyac'⟩ := h.merges_of_child hleaf hy
  obtain ⟨hyj, hfree⟩ := hac'.queued hyac'
  by_cases hyi : y.toNat < i.toNat
  · exact hac.before_of_queued hxac ⟨hyi, fun m hm => hfree m (hm.trans hij)⟩ (hfree i.toNat hij)
  · exact h.child_before hleaf hx (Nat.le_of_not_lt hyi) (hyj.trans (lt_of_child hy))

/-! ### Up the two paths -/

theorem locate_concat {nodes : List Node} {i l : Idx} {p : List Bool} {b : Bool} (h : locate nodes i (p ++ [b]) = some l) :
    ∃ j, locate nodes i p = some j ∧ l ∈ (nodeAt nodes j).children := by
  obtain ⟨j, hj, hstep⟩ := locate_append.1 h
  obtain ⟨k, hk, hl⟩ := locate_cons.1 hstep
  obtain rfl := Option.some.inj hl
  exact ⟨j, hj, mem_children_of_child hk⟩

/-- In a finished table, of two entries the one whose key is not the greater has a path at least as long. -/
theorem MergeInv.length_le_of_not_before {leaves : List Node} {b : Builder} (h : MergeInv leaves b)
    (hleaf : ∀ n ∈ leaves, n.isLeaf = true) {root : Idx} (hlast : root.toNat = b.nodes.length - 1) {p q : List Bool} {x y : Idx}
    (hp : locate b.nodes root p = some x) (hq : locate b.nodes root q = some y) (hxy : ¬ keyBefore b.nodes y x = true) :
    q.length ≤ p.length := by
  induction q using List.reverseRecOn generalizing p x y with
  | nil => exact Nat.zero_le _
  | append_singleton q d ih =>
    obtain ⟨j, hqj, hy⟩ := locate_concat hq
    have hj := lt_of_child hy
    rcases p.eq_nil_or_concat' with rfl | ⟨p, e, rfl⟩
    · obtain rfl := Option.some.inj hp
      exact absurd (h.child_before hleaf hy (by omega) (by omega)) hxy
    · obtain ⟨i, hpi, hx⟩ := locate_concat hp
      have hij : i.toNat ≤ j.toNat := by
        by_contra hji
        exact hxy (h.before_of_earlier_parent hleaf hy hx (by omega))
      have hfreq : (nodeAt b.nodes i).freq.toNat ≤ (nodeAt b.nodes j).freq.toNat :=
        h.freq_mono (h.merges_of_child hleaf hx).1 hij hj
      have hup := ih hpi hqj (by rw [keyBefore_iff]; omega)
      simpa using hup

/-- The frequency that R110 (d) gives a symbol: 1 for the sentinel's, and the table's for a real one. -/
def State.weight (s : State) (x : Sym) : Nat := if x.toNat = s.params.nSym then 1 else (s.freqRead x.toNat).toNat

/-- A leaf of BUILD has its symbol's frequency (R103). -/
theorem weight_of_mem_buildLeaves {s : State} {n : Node} (hn : n ∈ s.buildLeaves) : s.weight n.symValue = n.freq.toNat := by
  rw [buildLeaves_eq, List.mem_append, List.mem_map, List.mem_singleton] at hn
  rcases hn with ⟨i, hi, rfl⟩ | rfl
  · have hlt := lt_of_mem_usedSymbols hi
    have hsym : (Node.leaf (BitVec.ofNat 9 i) (s.freqRead i)).symValue.toNat = i :=
      Nat.mod_eq_of_lt (hlt.trans (nSym_lt s.params))
    rw [State.weight, hsym, if_neg hlt.ne]
    rfl
  · exact if_pos (builderSentinel_toNat s.params)

/-- Settles O48: a lower frequency is a lesser key, and the paths go up by the keys. -/
theorem lowerFrequencyNeverGetsAShorterPath : Obligations.LowerFrequencyNeverGetsAShorterPath := by
  intro s t hm hb hf h weight x hx y hy hxy
  obtain ⟨root, hroot, rfl⟩ := eq_buildDone_of_exec_build hm hb hf h
  obtain ⟨hI, -⟩ := buildTables_spec s hf
  obtain ⟨htree, -⟩ := builtTree_buildDone hf hroot
  have hleaf : ∀ n ∈ s.buildLeaves, n.isLeaf = true := fun _ => isLeaf_of_mem_buildLeaves
  obtain ⟨l, n, hlocx, hl, hxn⟩ := (mem_paths_buildDone hf hroot).1 hx
  obtain ⟨m, k, hlocy, hk, hyk⟩ := (mem_paths_buildDone hf hroot).1 hy
  refine hI.length_le_of_not_before hleaf htree.root_last hlocx hlocy fun hbefore => ?_
  have hle := freq_le_of_keyBefore hbefore
  rw [nodeAt_of_getElem? ((hI.getElem?_leaf_iff hleaf).1 hl).1, nodeAt_of_getElem? ((hI.getElem?_leaf_iff hleaf).1 hk).1,
    ← weight_of_mem_buildLeaves (List.mem_of_getElem? hl), ← weight_of_mem_buildLeaves (List.mem_of_getElem? hk), ← hxn,
    ← hyk] at hle
  exact hle.not_gt hxy

end Sys2Proof.Machine
end

section
/-! PROOF. BUILD of the all-zero table (40_builder.md R109) and of a table with one nonzero entry (R111): one leaf, and two leaves
with one merge. -/

namespace Sys2Proof.Machine

/-- A BUILD that fits, with ROOT by its index: the last entry (R108). -/
theorem exec_build_last {s : State} (hm : s.mode = .idle) (hb : s.params.hasBuilder = true) (hf : s.freqTotal ≤ 0xFFFFFFFF) :
    exec .build s =
      .next (s.buildDone s.buildTables.nodes (BitVec.ofNat 10 (s.buildTables.nodes.length - 1)) []) := by
  obtain ⟨root, hroot, hnext⟩ := exec_build hm hb hf
  have hlast : root.toNat = s.buildTables.nodes.length - 1 := (builtTree_buildDone hf hroot).1.root_last
  rw [hnext, ← hlast, BitVec.ofNat_toNat, BitVec.setWidth_eq]

theorem buildTables_of_one_leaf {s : State} (hf : s.freqTotal ≤ 0xFFFFFFFF) {n : Node} (hl : s.buildLeaves = [n]) :
    s.buildTables.nodes = [n] := by
  have hfirst := (buildTables_spec s hf).1.leaves_first
  have hlen := buildTables_length hf
  rw [hl, List.length_singleton] at hfirst hlen
  rwa [List.take_of_length_le (by omega)] at hfirst

/-- Two leaves make one merge, the first on the left unless the second has the lesser frequency (R106, R107). -/
theorem buildTables_of_two_leaves {s : State} (hf : s.freqTotal ≤ 0xFFFFFFFF) {m n : Node} (hl : s.buildLeaves = [m, n]) :
    s.buildTables.nodes =
      [m, n, if m.freq.toNat ≤ n.freq.toNat then mergeNode [m, n] 0 1 else mergeNode [m, n] 1 0] := by
  obtain ⟨hI, -⟩ := buildTables_spec s hf
  have hlen := buildTables_length hf
  have hfirst := hI.leaves_first
  have hmerge := hI.merges 2
  rw [hl] at hlen hfirst hmerge
  obtain ⟨m', n', k, hnodes⟩ := List.length_eq_three.1 (show s.buildTables.nodes.length = 3 by simpa using hlen)
  rw [hnodes] at hfirst hmerge ⊢
  cases hfirst
  obtain ⟨a, c, hac⟩ := hmerge (by simp) (by simp)
  have hk : k = mergeNode [m, n, k] a c := by simpa using hac.entry
  have two : ∀ x : Idx, x.toNat < 2 → x = 0 ∨ x = 1 := by decide
  rcases two a hac.left.1 with rfl | rfl <;> rcases two c hac.right.1 with rfl | rfl
  case inl.inl => simpa [keyBefore_irrefl] using hac.ordered
  case inr.inr => simpa [keyBefore_irrefl] using hac.ordered
  case inl.inr =>
    have hkey : m.freq.toNat ≤ n.freq.toNat := freq_le_of_keyBefore hac.ordered
    rw [if_pos hkey, hk]
    rfl
  case inr.inl =>
    have hkey : n.freq.toNat < m.freq.toNat ∨ n.freq.toNat = m.freq.toNat ∧ (1 : Idx).toNat < (0 : Idx).toNat :=
      keyBefore_iff.1 hac.ordered
    rw [if_neg (hkey.resolve_right (by simp)).not_ge, hk]
    rfl

/-- DECODE of a tree whose root is a leaf ends at once (42_decode.md R142). -/
theorem exec_decode_rootLeaf {s : State} (hm : s.mode = .idle) (ht : s.tree.decodable = true)
    (hroot : (s.nodeRead s.root).isLeaf = true) : exec .decode s = .next (s.startDecode.finishDecode .rootLeaf) := by
  rw [exec_run (wellFormed_of_needsBuilder rfl _) (by rw [hm]; rfl)]
  exact (if_pos ht).trans (if_pos hroot)

/-- Settles O49: no real symbol has a leaf, so the sentinel's is the table and the root. -/
theorem buildOfTheZeroTableIsRootOnly : Obligations.BuildOfTheZeroTableIsRootOnly := by
  intro s hm hb hzero t
  have hused : s.usedSymbols = [] := List.filter_eq_nil_iff.2 fun i hi => by simpa using hzero i (List.mem_range.1 hi)
  have hleaves : s.buildLeaves = [Node.leaf s.params.builderSentinel 1] := by rw [buildLeaves_eq, hused]; rfl
  have hf : s.freqTotal ≤ 0xFFFFFFFF := by
    rw [← buildLeaves_total, hleaves]
    simp [Node.leaf]
  refine ⟨?_, ?_, by decide⟩
  · rw [exec_build_last hm hb hf, buildTables_of_one_leaf hf hleaves]
    rfl
  · have hmode : t.mode = .idle := hm
    rw [exec_decode_rootLeaf hmode rfl rfl, State.finishDecode, ← hmode]
    rfl

/-- Settles O50: the two leaves merge in the order of their keys, so that a frequency of 1 goes left and a greater one right. -/
theorem buildOfOneSymbolHasTwoLeaves : Obligations.BuildOfOneSymbolHasTwoLeaves := by
  intro s x hm hb hx hzero hpos hle sym eof t
  have hfilter : ∀ i ∈ List.range s.params.nSym, decide (s.freqRead i ≠ 0) = (i == x) := fun i hi => by
    rw [Bool.eq_iff_iff, decide_eq_true_iff, beq_iff_eq]
    constructor
    · exact fun hne => by_contra fun hix => hne (hzero i (List.mem_range.1 hi) hix)
    · rintro rfl h0
      exact absurd hpos (by simp [h0])
  have hused : s.usedSymbols = [x] := by
    rw [State.usedSymbols, List.filter_congr hfilter, List.filter_beq,
      List.count_eq_one_of_mem List.nodup_range (List.mem_range.2 hx), List.replicate_one]
  have hleaves : s.buildLeaves = [Node.leaf sym (s.freqRead x), Node.leaf eof 1] := by rw [buildLeaves_eq, hused]; rfl
  have hf : s.freqTotal ≤ 0xFFFFFFFF := by
    rw [← buildLeaves_total, hleaves]
    change (s.freqRead x).toNat + (1 + 0) ≤ _
    omega
  have hone : (Node.leaf sym (s.freqRead x)).freq.toNat ≤ (Node.leaf eof 1).freq.toNat ↔ s.freqRead x = 1 :=
    ⟨fun h => BitVec.eq_of_toNat_eq (h.antisymm hpos), fun h => by rw [h]; exact le_rfl⟩
  have hright : mergeNode [Node.leaf sym (s.freqRead x), Node.leaf eof 1] 1 0 = ⟨none, some 1, some 0, s.freqRead x + 1⟩ := by
    rw [BitVec.add_comm]
    rfl
  constructor
  · rw [exec_build_last hm hb hf, buildTables_of_two_leaves hf hleaves, hright, if_congr hone rfl rfl]
    rfl
  · change pathsFrom t.nodes 3 2 [] = _
    by_cases h1 : s.freqRead x = 1
    · simp only [t, if_pos h1]
      rfl
    · simp only [t, if_neg h1]
      rfl

end Sys2Proof.Machine
end

section
/-! PROOF SUPPORT. The tree-load commands in the modes in which they run (30_encoding.md R87), and the branches of PATH_BIT's and
PATH_END's own rules, one equation each (41_tree_load.md R122, R123). -/

namespace Sys2Proof.Machine

theorem exec_clear {s : State} (hm : s.mode = .idle ∨ s.mode = .load) : exec .clear s = .next s.cleared :=
  exec_run (wellFormed_of_needsBuilder rfl _) (by rcases hm with hm | hm <;> rw [hm] <;> rfl)

theorem exec_pathBegin {s : State} (hm : s.mode = .idle) (sym : Sym) : exec (.pathBegin sym) s = pathBeginRule sym s :=
  exec_run (wellFormed_of_needsBuilder rfl _) (by rw [hm]; rfl)

theorem exec_pathBit {s : State} (hm : s.mode = .load) (b : Bool) : exec (.pathBit b) s = pathBitRule b s :=
  exec_run (wellFormed_of_needsBuilder rfl _) (by rw [hm]; rfl)

theorem exec_pathEnd {s : State} (hm : s.mode = .load) : exec .pathEnd s = pathEndRule s :=
  exec_run (wellFormed_of_needsBuilder rfl _) (by rw [hm]; rfl)

theorem lab_eq_true_iff {n : Node} : n.lab = true ↔ n.sym ≠ none := by
  simp [Node.lab, Option.isSome_iff_ne_none]

theorem lab_eq_false_iff {n : Node} : n.lab = false ↔ n.sym = none := by
  simp [Node.lab]

theorem pathBeginRule_of_loadable {s : State} (ht : s.tree.loadable = true) (sym : Sym) :
    pathBeginRule sym s = .next { s with loadSym := sym, loadDepth := 0, cursor := s.root, mode := .load } :=
  if_pos ht

theorem pathBeginRule_of_not_loadable {s : State} (ht : s.tree.loadable = false) (sym : Sym) :
    pathBeginRule sym s = .next (s.recordError .treeState) :=
  if_neg (by simp [ht])

theorem pathBitRule_of_labeled {s : State} (hl : (s.nodeRead s.cursor).sym ≠ none) (b : Bool) :
    pathBitRule b s = .next (s.failLoad .malThroughLeaf) :=
  if_pos (lab_eq_true_iff.2 hl)

theorem pathBitRule_of_child {s : State} {b : Bool} {i : Idx} (hl : (s.nodeRead s.cursor).sym = none)
    (hc : (s.nodeRead s.cursor).child b = some i) : pathBitRule b s = descendTo i s := by
  simp [pathBitRule, lab_eq_false_iff.2 hl, hc]

theorem pathBitRule_of_full {s : State} {b : Bool} (hl : (s.nodeRead s.cursor).sym = none)
    (hc : (s.nodeRead s.cursor).child b = none) (hfull : s.nodes.length = s.params.nodeCap) :
    pathBitRule b s = .next (s.failLoad .nodeOverflow) := by
  simp [pathBitRule, lab_eq_false_iff.2 hl, hc, hfull]

theorem pathBitRule_of_free {s : State} {b : Bool} (hl : (s.nodeRead s.cursor).sym = none)
    (hc : (s.nodeRead s.cursor).child b = none) (hfree : s.nodes.length ≠ s.params.nodeCap) :
    pathBitRule b s = descendTo s.nodeCount (s.createChild b) := by
  simp [pathBitRule, lab_eq_false_iff.2 hl, hc, hfree]

theorem pathEndRule_of_labeled {s : State} (hl : (s.nodeRead s.cursor).sym ≠ none) :
    pathEndRule s = .next (s.failLoad .malRelabel) :=
  if_pos (lab_eq_true_iff.2 hl)

theorem pathEndRule_of_leaf {s : State} (hl : (s.nodeRead s.cursor).sym = none)
    (hleaf : (s.nodeRead s.cursor).isLeaf = true) : pathEndRule s = .next s.closeRecord := by
  simp [pathEndRule, lab_eq_false_iff.2 hl, hleaf]

theorem pathEndRule_of_internal {s : State} (hl : (s.nodeRead s.cursor).sym = none)
    (hleaf : (s.nodeRead s.cursor).isLeaf = false) : pathEndRule s = .next (s.failLoad .malLabelInternal) := by
  simp [pathEndRule, lab_eq_false_iff.2 hl, hleaf]

end Sys2Proof.Machine
end

section
/-! PROOF. The tree-load commands, one by one (41_tree_load.md R120 to R125). -/

namespace Sys2Proof.Machine

/-- Settles O23: CLEAR runs in both modes. -/
theorem clearEmptiesTheTree : Obligations.ClearEmptiesTheTree := fun _ hm => exec_clear hm

/-- Settles O12: each of the seven stands in R87's column LOAD as TRUNC. -/
theorem otherCommandsTruncateAnOpenRecord : Obligations.OtherCommandsTruncateAnOpenRecord := by
  intro s i hm hw hi
  have ha : accept s.mode i = .trunc := by
    rw [hm]
    rcases hi with ⟨_, rfl⟩ | ⟨_, rfl⟩ | rfl | rfl | ⟨_, _, rfl⟩ | rfl | rfl <;> rfl
  exact exec_trunc hw ha

/-- Settles O24: TREE decides whether a record may be opened. -/
theorem pathBeginOpensARecord : Obligations.PathBeginOpensARecord := by
  intro s sym hm
  rw [exec_pathBegin hm]
  constructor
  · intro ht
    exact pathBeginRule_of_loadable (by rcases ht with ht | ht <;> rw [ht] <;> rfl) sym
  · intro ht
    exact pathBeginRule_of_not_loadable (by rcases ht with ht | ht <;> rw [ht] <;> rfl) sym

/-- Settles O25: the child is there, so PATH_BIT only moves. -/
theorem pathBitDescendsAnExistingChild : Obligations.PathBitDescendsAnExistingChild := by
  intro s b i hm hl hc hd
  rw [exec_pathBit hm, pathBitRule_of_child hl hc, descendTo_next hd]

/-- Settles O26: the child is made in the table, and PATH_BIT moves to it. -/
theorem pathBitCreatesAnAbsentChild : Obligations.PathBitCreatesAnAbsentChild := by
  intro s b n hm hn hl hc hfree hd
  obtain ⟨hcur, -⟩ := List.getElem?_eq_some_iff.1 hn
  have hread : s.nodeRead s.cursor = n := nodeRead_of_getElem? hn
  have hlink : n.withChild b s.nodeCount =
      { n with left := if b then n.left else some s.nodeCount, right := if b then some s.nodeCount else n.right } := by
    cases b <;> rfl
  have htable := createChild_nodes hcur b
  rw [hread, hlink] at htable
  rw [exec_pathBit hm, pathBitRule_of_free (hread ▸ hl) (hread ▸ hc) hfree.ne, descendTo_next (s := s.createChild b) hd]
  change Host.Outcome.next { s with nodes := (s.createChild b).nodes, cursor := s.nodeCount, loadDepth := s.loadDepth + 1 } = _
  rw [htable]
  rfl

/-- Settles O27: a label on the way is checked first, a full table when a child is missing. -/
theorem pathBitRefusesAMalformedPath : Obligations.PathBitRefusesAMalformedPath := by
  intro s b hm
  rw [exec_pathBit hm]
  exact ⟨fun hl => pathBitRule_of_labeled hl b, fun hl hc hfull => pathBitRule_of_full hl hc hfull⟩

/-- Settles O28: the label is checked first, then the children. -/
theorem pathEndLabelsTheCursorNode : Obligations.PathEndLabelsTheCursorNode := by
  intro s n hm hn
  obtain rfl : s.nodeRead s.cursor = n := nodeRead_of_getElem? hn
  rw [exec_pathEnd hm]
  refine ⟨fun hl hleft hright => pathEndRule_of_leaf hl (isLeaf_iff.2 ⟨hleft, hright⟩), pathEndRule_of_labeled, fun hl hchild => ?_⟩
  refine pathEndRule_of_internal hl (Bool.eq_false_iff.2 fun hleaf => ?_)
  obtain ⟨hleft, hright⟩ := isLeaf_iff.1 hleaf
  exact hchild.elim (· hleft) (· hright)

end Sys2Proof.Machine
end

section
/-! PROOF SUPPORT. The record commands and the paths of a table (41_tree_load.md R122, R123, R130): a PATH_BIT that makes a child adds
one path and no label, and a PATH_END adds one label and no path. -/

namespace Sys2Proof.Machine

theorem locate_concat_iff {nodes : List Node} {i l : Idx} {p : List Bool} {b : Bool} :
    locate nodes i (p ++ [b]) = some l ↔ ∃ j, locate nodes i p = some j ∧ (nodeAt nodes j).child b = some l := by
  simp [locate_append, locate_cons]

theorem child_withChild (n : Node) (b d : Bool) (x : Idx) :
    (n.withChild b x).child d = if d = b then some x else n.child d := by
  cases b <;> cases d <;> rfl

theorem withChild_sym (n : Node) (b : Bool) (x : Idx) : (n.withChild b x).sym = n.sym := by
  cases b <;> rfl

/-- A new entry reads as the free entry it was (R42). -/
theorem nodeAt_alloc (nodes : List Node) (i : Idx) : nodeAt (nodes ++ [Node.zero]) i = nodeAt nodes i := by
  by_cases hi : i.toNat < nodes.length
  · exact nodeAt_append_left hi
  · have hfree : nodes.length ≤ i.toNat := Nat.le_of_not_lt hi
    rw [nodeAt_free hfree, nodeAt, List.getD_append_right _ _ _ _ hfree]
    cases i.toNat - nodes.length <;> rfl

theorem nodeAt_createChild {s : State} (hcur : s.cursor.toNat < s.nodes.length) (b : Bool) (i : Idx) :
    nodeAt (s.createChild b).nodes i =
      if i = s.cursor then (s.nodeRead s.cursor).withChild b s.nodeCount else s.nodeRead i := by
  change nodeAt ((s.nodes ++ [Node.zero]).set s.cursor.toNat _) i = _
  split
  · subst i
    exact nodeAt_set_self (by rw [List.length_append]; omega)
  · rw [nodeAt_set_ne ‹_›, nodeAt_alloc]
    rfl

theorem sym_createChild {s : State} (hcur : s.cursor.toNat < s.nodes.length) (b : Bool) (i : Idx) :
    (nodeAt (s.createChild b).nodes i).sym = (nodeAt s.nodes i).sym := by
  rw [nodeAt_createChild hcur]
  split
  · subst i
    exact withChild_sym ..
  · rfl

theorem child_createChild {s : State} {b : Bool} (hcur : s.cursor.toNat < s.nodes.length)
    (hc : (s.nodeRead s.cursor).child b = none) {i l : Idx} {d : Bool} :
    (nodeAt (s.createChild b).nodes i).child d = some l ↔
      (s.nodeRead i).child d = some l ∨ (i = s.cursor ∧ d = b ∧ l = s.nodeCount) := by
  rw [nodeAt_createChild hcur]
  by_cases hi : i = s.cursor
  · subst i
    rw [if_pos rfl, child_withChild]
    by_cases hd : d = b
    · subst d
      simp [hc, eq_comm]
    · simp [hd]
  · simp [hi]

/-- The one path that a new child adds is the path to the cursor and the bit (R122). -/
theorem locate_createChild {s : State} {b : Bool} {q : List Bool} (hb : Bounds s) (hone : OneParent s.nodes s.root)
    (hq : locate s.nodes s.root q = some s.cursor) (hc : (s.nodeRead s.cursor).child b = none) {p : List Bool} {l : Idx} :
    locate (s.createChild b).nodes s.root p = some l ↔
      locate s.nodes s.root p = some l ∨ (p = q ++ [b] ∧ l = s.nodeCount) := by
  have hcur := hb.cursor_lt
  have hcount : s.nodeCount.toNat = s.nodes.length :=
    ofNat_toNat_idx (hb.count_le.trans_lt (nodeCap_lt s.params))
  induction p using List.reverseRecOn generalizing l with
  | nil => simp
  | append_singleton p d ih =>
    simp only [locate_concat_iff, ih, child_createChild hcur hc]
    constructor
    · rintro ⟨j, hj | ⟨-, rfl⟩, hl⟩
      · rcases hl with hl | ⟨rfl, rfl, rfl⟩
        · exact .inl ⟨j, hj, hl⟩
        · exact .inr ⟨by rw [hone.locate_unique hj hq], rfl⟩
      · rcases hl with hl | ⟨hnew, -, -⟩
        · have := lt_of_child (mem_children_of_child hl)
          omega
        · rw [← hnew] at hcur
          omega
    · rintro (⟨j, hj, hl⟩ | ⟨hpq, rfl⟩)
      · exact ⟨j, .inl hj, .inl hl⟩
      · obtain ⟨rfl, hd⟩ := List.append_inj' hpq rfl
        exact ⟨s.cursor, .inl hq, .inr ⟨rfl, List.singleton_inj.1 hd, rfl⟩⟩

theorem nodeAt_closeRecord {s : State} (hcur : s.cursor.toNat < s.nodes.length) (i : Idx) :
    nodeAt s.closeRecord.nodes i =
      if i = s.cursor then { s.nodeRead s.cursor with sym := some s.loadSym } else s.nodeRead i := by
  change nodeAt (s.nodes.set s.cursor.toNat _) i = _
  split
  · subst i
    exact nodeAt_set_self hcur
  · exact nodeAt_set_ne ‹_›

theorem sym_closeRecord {s : State} (hcur : s.cursor.toNat < s.nodes.length) (i : Idx) :
    (nodeAt s.closeRecord.nodes i).sym = if i = s.cursor then some s.loadSym else (nodeAt s.nodes i).sym := by
  rw [nodeAt_closeRecord hcur]
  split <;> rfl

theorem child_closeRecord {s : State} (hcur : s.cursor.toNat < s.nodes.length) (i : Idx) (d : Bool) :
    (nodeAt s.closeRecord.nodes i).child d = (nodeAt s.nodes i).child d := by
  rw [nodeAt_closeRecord hcur]
  split
  · subst i
    rfl
  · rfl

/-- A label changes no path (R123). -/
theorem locate_closeRecord {s : State} (hcur : s.cursor.toNat < s.nodes.length) (i : Idx) (p : List Bool) :
    locate s.closeRecord.nodes i p = locate s.nodes i p := by
  induction p generalizing i with
  | nil => rfl
  | cons d p ih => simp only [locate, child_closeRecord hcur, ih]

end Sys2Proof.Machine
end

section
/-! PROOF SUPPORT. Two tables with the same paths and the same labels along them have the same pairs (41_tree_load.md R130), and a
table whose paths are all paths of another, and not all of them, has fewer entries. -/

namespace Sys2Proof.Machine

/-- What stands at the end of a path from entry `i`: nothing, or an entry with its label, if it has one. -/
def labelAlong (nodes : List Node) (i : Idx) (p : List Bool) : Option (Option Sym) :=
  (locate nodes i p).map fun l => (nodeAt nodes l).sym

theorem labelAlong_nil (nodes : List Node) (i : Idx) : labelAlong nodes i [] = some (nodeAt nodes i).sym := rfl

theorem labelAlong_cons (nodes : List Node) (i : Idx) (b : Bool) (p : List Bool) :
    labelAlong nodes i (b :: p) = ((nodeAt nodes i).child b).bind fun j => labelAlong nodes j p := by
  rw [labelAlong, locate]
  cases (nodeAt nodes i).child b <;> rfl

theorem isLeaf_iff_child {n : Node} : n.isLeaf = true ↔ ∀ b, n.child b = none := by
  rw [isLeaf_iff]
  exact ⟨fun ⟨hl, hr⟩ b => by cases b <;> assumption, fun h => ⟨h false, h true⟩⟩

/-- The walks over two tables that have the same labels along the same paths, each with fuel enough for its longest path. -/
theorem pathsFrom_congr {A B : List Node} {f g : Nat} {i j : Idx} (path : List Bool)
    (hlabel : ∀ p, labelAlong A i p = labelAlong B j p) (hf : ∀ p l, locate A i p = some l → p.length < f)
    (hg : ∀ p l, locate B j p = some l → p.length < g) : pathsFrom A f i path = pathsFrom B g j path := by
  induction f generalizing g i j path with
  | zero => exact absurd (hf [] i rfl) (Nat.not_lt_zero _)
  | succ f ih =>
    cases g with
    | zero => exact absurd (hg [] j rfl) (Nat.not_lt_zero _)
    | succ g =>
      have hsym : (nodeAt A i).sym = (nodeAt B j).sym := Option.some.inj (hlabel [])
      have hchild b : ((nodeAt A i).child b).isSome = ((nodeAt B j).child b).isSome := by
        simpa [labelAlong_cons, labelAlong_nil, Option.isSome_bind] using congrArg Option.isSome (hlabel [b])
      have hbelow b : pathsBelow A f i path b = pathsBelow B g j path b := by
        unfold pathsBelow
        cases hA : (nodeAt A i).child b with
        | none =>
          have hB : (nodeAt B j).child b = none := by simpa [hA] using hchild b
          rw [hB]
          rfl
        | some k =>
          obtain ⟨k', hB⟩ := Option.isSome_iff_exists.1 ((hchild b).symm.trans (by rw [hA]; rfl))
          rw [hB]
          refine ih _ (fun p => ?_) (fun p l hl => ?_) fun p l hl => ?_
          · have hp := hlabel (b :: p)
            simpa [labelAlong_cons, hA, hB] using hp
          · simpa using hf (b :: p) l (locate_cons.2 ⟨k, hA, hl⟩)
          · simpa using hg (b :: p) l (locate_cons.2 ⟨k', hB, hl⟩)
      have hleaf : (nodeAt A i).isLeaf = (nodeAt B j).isLeaf := by
        rw [Bool.eq_iff_iff, isLeaf_iff_child, isLeaf_iff_child]
        exact forall_congr' fun b => by rw [← Option.not_isSome_iff_eq_none, hchild b, Option.not_isSome_iff_eq_none]
      cases hl : (nodeAt A i).isLeaf with
      | true => rw [pathsFrom_of_isLeaf hl, pathsFrom_of_isLeaf (hleaf ▸ hl), Node.symValue, Node.symValue, hsym]
      | false => rw [pathsFrom_of_internal hl, pathsFrom_of_internal (hleaf ▸ hl), hbelow false, hbelow true]

/-- Every path of table `A` from `a` is a path of table `B` from `b`. -/
def Embeds (A : List Node) (a : Idx) (B : List Node) (b : Idx) : Prop :=
  ∀ p l, locate A a p = some l → ∃ m, locate B b p = some m

/-- With one parent each, a table has an entry for each of its paths (R45 (c)). -/
theorem card_paths_le {B : List Node} {b : Idx} (hone : OneParent B b) (hlt : ∀ q l, locate B b q = some l → l.toNat < B.length)
    (paths : Finset (List Bool)) (hpaths : ∀ q ∈ paths, ∃ l, locate B b q = some l) : paths.card ≤ B.length := by
  have hcard := Finset.card_le_card_of_injOn (s := paths) (t := Finset.range B.length)
    (fun q => ((locate B b q).getD 0).toNat) (fun q hq => ?_) (fun q hq r hr e => ?_)
  · rwa [Finset.card_range] at hcard
  · obtain ⟨l, hl⟩ := hpaths q hq
    simpa [hl] using hlt q l hl
  · obtain ⟨l, hl⟩ := hpaths q hq
    obtain ⟨k, hk⟩ := hpaths r hr
    have hlk : l = k := BitVec.eq_of_toNat_eq (by simpa [hl, hk] using e)
    exact hone.locate_unique hl (hlk ▸ hk)

/-- A table whose entries are all reached has fewer entries than one that has all of its paths and one more. -/
theorem length_lt_of_embeds {A B : List Node} {a b m : Idx} {p : List Bool} (hAB : Embeds A a B b) (hA : A.length ≤ 1024)
    (hreached : ∀ i : Idx, i.toNat < A.length → Reaches A a i) (hone : OneParent B b)
    (hlt : ∀ q l, locate B b q = some l → l.toNat < B.length) (hpA : locate A a p = none) (hpB : locate B b p = some m) :
    A.length < B.length := by
  have hpath (i : Fin A.length) : ∃ q, locate A a q = some (BitVec.ofNat 10 i) :=
    reaches_iff_locate.1 (hreached _ (by rw [ofNat_toNat_idx (by omega)]; exact i.isLt))
  choose path hpath using hpath
  have hinj : Function.Injective path := fun i j e => by
    have hij : (BitVec.ofNat 10 i : Idx) = BitVec.ofNat 10 j := Option.some.inj ((hpath i).symm.trans (e ▸ hpath j))
    have hval := congrArg BitVec.toNat hij
    rw [ofNat_toNat_idx (by omega), ofNat_toNat_idx (by omega)] at hval
    exact Fin.ext hval
  have hnew : p ∉ Finset.univ.image path := fun hp => by
    obtain ⟨i, -, rfl⟩ := Finset.mem_image.1 hp
    simp [hpath i] at hpA
  have hcard := card_paths_le hone hlt (insert p (Finset.univ.image path)) fun q hq => by
    rcases Finset.mem_insert.1 hq with rfl | hq
    · exact ⟨m, hpB⟩
    · obtain ⟨i, -, rfl⟩ := Finset.mem_image.1 hq
      exact hAB _ _ (hpath i)
  rw [Finset.card_insert_of_notMem hnew, Finset.card_image_of_injective _ hinj, Finset.card_fin] at hcard
  exact hcard

end Sys2Proof.Machine
end

section
/-! PROOF SUPPORT. The invariant through a load that starts in any IDLE state (10_state.md R45, 41_tree_load.md R120 to R123): a load
neither reads nor writes the frequency table and the queue, so the invariant is asked of the state with those two in order. -/

namespace Sys2Proof.Machine

/-- The state with a frequency table of the right size and an empty queue (R43, R44). -/
def State.withBuilderReset (s : State) : State :=
  { s with freqs := if s.params.hasBuilder then List.replicate s.params.nSym 0 else [], queue := [] }

/-- The invariant but for the frequency table and the queue. -/
abbrev LoadInv (s : State) : Prop := Inv s.withBuilderReset

/-- CLEAR, from any state: what it leaves of the block's state is the reset state's, or no part of the invariant. -/
theorem loadInv_cleared (s : State) : LoadInv s.cleared := by
  have hreset : Inv (State.resetWith s.params) := inv_resetBlock (State.resetWith s.params)
  have hidle := hreset.idleRegisters (by simp) (by simp) s.sentinel s.outSym .none false
  exact (hidle.registers .none s.ctrl 0 0 0 s.responses).environment s.commands s.tokens s.sourceTail s.sink s.responses
    s.received s.turns s.freeTurns

theorem LoadInv.bounds {s : State} (h : LoadInv s) : Bounds s := { Inv.bounds h with }

theorem LoadInv.pathBegin {s : State} (h : LoadInv s) (hm : s.mode = .idle) (ht : s.tree.loadable = true) (sym : Sym) :
    LoadInv { s with loadSym := sym, loadDepth := 0, cursor := s.root, mode := .load } :=
  Inv.pathBegin h hm ht sym

theorem LoadInv.pathBitDescend {s : State} (h : LoadInv s) (hm : s.mode = .load) {b : Bool} {i : Idx}
    (hc : (s.nodeRead s.cursor).child b = some i) :
    s.loadDepth.toNat + 1 < s.params.nodeCap ∧ LoadInv { s with cursor := i, loadDepth := s.loadDepth + 1 } :=
  Inv.pathBitDescend h hm hc

theorem LoadInv.pathBitCreate {s : State} (h : LoadInv s) (hm : s.mode = .load) {b : Bool}
    (hl : (s.nodeRead s.cursor).sym = none) (hc : (s.nodeRead s.cursor).child b = none)
    (hfree : s.nodes.length ≠ s.params.nodeCap) :
    s.loadDepth.toNat + 1 < s.params.nodeCap ∧
      LoadInv { s.createChild b with cursor := s.nodeCount, loadDepth := s.loadDepth + 1 } :=
  Inv.pathBitCreate h hm (lab_eq_false_iff.2 hl) hc hfree

theorem LoadInv.closeRecord {s : State} (h : LoadInv s) (hm : s.mode = .load) (hleaf : (s.nodeRead s.cursor).isLeaf = true) :
    LoadInv s.closeRecord :=
  Inv.closeRecord h hm hleaf

theorem LoadInv.openRecord {s : State} (h : LoadInv s) (hm : s.mode = .load) : OpenRecord s :=
  { Inv.open_record h hm with }

theorem LoadInv.loadedTree {s : State} (h : LoadInv s) (hm : s.mode = .idle) (ht : s.tree = .loaded) : LoadedTree s :=
  { Inv.loaded_tree h (fun e => by cases hm.symm.trans e) ht with }

end Sys2Proof.Machine
end

section
/-! PROOF. Loading the pairs of a built tree (41_tree_load.md R132). While the records are loaded, one after the other, every path of
the table is a path of the built tree, and the labels are exactly those of the records so far: so no record meets a label or a
node too many, and after the last one the two trees have the same labels along the same paths. -/

namespace Sys2Proof.Machine

/-! ### The tree that is loaded -/

theorem locate_lt_of_inv {s : State} (h : Inv s) {p : List Bool} {l : Idx} (hp : locate s.nodes s.root p = some l) :
    l.toNat < s.nodes.length :=
  locate_lt h.bounds.child_lt h.bounds.root_lt hp

/-- In a built tree the labels stand at the leaves (R45 (c)). -/
theorem isLeaf_iff_label {s : State} (h : Inv s) (ht : s.tree = .built) {p : List Bool} {l : Idx}
    (hp : locate s.nodes s.root p = some l) : (nodeAt s.nodes l).isLeaf = true ↔ ∃ sym, (nodeAt s.nodes l).sym = some sym := by
  rw [← (h.built_tree ht).labeled _ (nodeAt_mem (locate_lt_of_inv h hp))]
  exact Option.isSome_iff_exists

/-- The pairs of a built tree are its labels (R130). -/
theorem mem_paths_iff_label {s : State} (h : Inv s) (ht : s.tree = .built) {sym : Sym} {p : List Bool} :
    (sym, p) ∈ s.paths ↔ ∃ l, locate s.nodes s.root p = some l ∧ (nodeAt s.nodes l).sym = some sym := by
  rw [State.paths, mem_pathsFrom]
  constructor
  · rintro ⟨p, l, rfl, -, hp, hleaf, rfl⟩
    obtain ⟨sym, hsym⟩ := (isLeaf_iff_label h ht hp).1 hleaf
    exact ⟨l, hp, by rw [Node.symValue, hsym]; rfl⟩
  · rintro ⟨l, hp, hsym⟩
    have hroot := h.bounds.root_lt
    have hdown := locate_below (h.built_tree ht).children_below hp
    exact ⟨p, l, rfl, by omega, hp, (isLeaf_iff_label h ht hp).2 ⟨sym, hsym⟩, by rw [Node.symValue, hsym]; rfl⟩

/-- Under every entry of a table whose children stand below their parents a path leads to a leaf. -/
theorem exists_leaf_below {nodes : List Node} (hn : ChildrenBelow nodes) (i : Idx) :
    ∃ p l, locate nodes i p = some l ∧ (nodeAt nodes l).isLeaf = true := by
  induction hk : i.toNat using Nat.strong_induction_on generalizing i with
  | _ k ih =>
    cases hl : (nodeAt nodes i).isLeaf with
    | true => exact ⟨[], i, rfl, hl⟩
    | false =>
      obtain ⟨b, hb⟩ : ∃ b, (nodeAt nodes i).child b ≠ none := by
        by_contra hnone
        push Not at hnone
        rw [isLeaf_iff_child.2 hnone] at hl
        cases hl
      obtain ⟨c, hc⟩ := Option.ne_none_iff_exists'.1 hb
      have hmem := mem_children_of_child hc
      obtain ⟨p, l, hp, hleaf⟩ := ih c.toNat (hk ▸ hn _ (lt_of_child hmem) c hmem) c rfl
      exact ⟨b :: p, l, locate_cons.2 ⟨c, hc, hp⟩, hleaf⟩

/-- Every path of a built tree goes on to one of its pairs. -/
theorem exists_mem_paths_of_locate {s : State} (h : Inv s) (ht : s.tree = .built) {p : List Bool} {l : Idx}
    (hp : locate s.nodes s.root p = some l) : ∃ sym q, (sym, p ++ q) ∈ s.paths := by
  obtain ⟨q, m, hq, hleaf⟩ := exists_leaf_below (h.built_tree ht).children_below l
  have hpq : locate s.nodes s.root (p ++ q) = some m := locate_append.2 ⟨l, hp, hq⟩
  obtain ⟨sym, hsym⟩ := (isLeaf_iff_label h ht hpq).1 hleaf
  exact ⟨sym, q, (mem_paths_iff_label h ht).2 ⟨m, hpq, hsym⟩⟩

/-- The path of a pair does not go on (R110 (b)). -/
theorem locate_concat_of_mem_paths {s : State} (h : Inv s) (ht : s.tree = .built) {sym : Sym} {p : List Bool} {b : Bool}
    (hp : (sym, p) ∈ s.paths) : locate s.nodes s.root (p ++ [b]) = none := by
  obtain ⟨l, hl, hsym⟩ := (mem_paths_iff_label h ht).1 hp
  have hleaf := (isLeaf_iff_label h ht hl).2 ⟨sym, hsym⟩
  refine Option.eq_none_iff_forall_ne_some.2 fun m hm => ?_
  obtain ⟨j, hj, hc⟩ := locate_append.1 hm
  obtain rfl := Option.some.inj (hl.symm.trans hj)
  cases (locate_of_isLeaf hleaf hc).1

/-! ### The load so far -/

/-- The state `t` of a load of `s.paths`, when the records `done` have been loaded. -/
structure LoadSoFar (s : State) (done : List (Sym × List Bool)) (t : State) : Prop where
  inv : LoadInv t
  params : t.params = s.params
  err : t.err = .none
  embeds : Embeds t.nodes t.root s.nodes s.root
  subset : ∀ r ∈ done, r ∈ s.paths
  labels : ∀ sym p, (sym, p) ∈ done ↔ ∃ l, locate t.nodes t.root p = some l ∧ (nodeAt t.nodes l).sym = some sym

/-- Between two records. -/
structure BetweenRecords (s : State) (done : List (Sym × List Bool)) (t : State) : Prop extends LoadSoFar s done t where
  idle : t.mode = .idle
  tree : t.tree = .loaded ∨ (t.tree = .empty ∧ done = [])

/-- Inside the record of `sym`, after the bits `q` of its path. -/
structure InsideRecord (s : State) (done : List (Sym × List Bool)) (sym : Sym) (q : List Bool) (t : State) : Prop
    extends LoadSoFar s done t where
  load : t.mode = .load
  loadSym : t.loadSym = sym
  cursor : locate t.nodes t.root q = some t.cursor

theorem betweenRecords_cleared {s : State} (u : State) (hp : u.params = s.params) : BetweenRecords s [] u.cleared where
  inv := loadInv_cleared u
  params := hp
  err := rfl
  embeds p l h := by
    change locate [Node.zero] 0 p = some l at h
    obtain ⟨rfl, -⟩ := locate_of_isLeaf (by decide) h
    exact ⟨s.root, rfl⟩
  subset := by simp
  labels sym p := by simp [show Node.zero.sym = none from rfl]
  idle := rfl
  tree := .inr ⟨rfl, rfl⟩

section
variable {s t : State} {done : List (Sym × List Bool)} {sym : Sym} {q : List Bool}

/-- PATH_BEGIN opens the next record at the root. -/
theorem BetweenRecords.pathBegin (h : BetweenRecords s done t) (sym : Sym) :
    ∃ t', exec (.pathBegin sym) t = .next t' ∧ InsideRecord s done sym [] t' := by
  have ht : t.tree.loadable = true := by rcases h.tree with ht | ⟨ht, -⟩ <;> rw [ht] <;> rfl
  refine ⟨_, (exec_pathBegin h.idle sym).trans (pathBeginRule_of_loadable ht sym), ?_⟩
  exact { inv := h.inv.pathBegin h.idle ht sym, params := h.params, err := h.err, embeds := h.embeds, subset := h.subset,
          labels := h.labels, load := rfl, loadSym := rfl, cursor := rfl }

theorem InsideRecord.oneParent (h : InsideRecord s done sym q t) : OneParent t.nodes t.root :=
  (h.inv.openRecord h.load).one_parent

/-- The cursor's node has no label unless its path is that of a record loaded before. -/
theorem InsideRecord.unlabeled (h : InsideRecord s done sym q t) (hq : ∀ x, (x, q) ∉ done) :
    (t.nodeRead t.cursor).sym = none :=
  Option.eq_none_iff_forall_ne_some.2 fun x hx => hq x ((h.labels x q).2 ⟨t.cursor, h.cursor, hx⟩)

/-- The table is not full while a path of the built tree is missing in it (R211). -/
theorem InsideRecord.not_full (hs : Inv s) (ht : s.tree = .built) (h : InsideRecord s done sym q t) {p : List Bool} {m : Idx}
    (hp : locate t.nodes t.root p = none) (hm : locate s.nodes s.root p = some m) : t.nodes.length ≠ t.params.nodeCap := by
  have hrecord := h.inv.openRecord h.load
  have hcount : t.nodes.length ≤ 1024 := (h.inv.bounds.count_le.trans_lt (nodeCap_lt t.params)).le
  have hlt := length_lt_of_embeds h.embeds hcount (reached_of_above hrecord.one_parent hrecord.children_above hcount)
    (hs.built_tree ht).one_parent (fun _ _ => locate_lt_of_inv hs) hp hm
  have hcap := hs.bounds.count_le
  rw [h.params]
  omega

/-- PATH_BIT through the table, at a child that exists. -/
theorem InsideRecord.descend (h : InsideRecord s done sym q t) {b : Bool} {i : Idx} (hl : (t.nodeRead t.cursor).sym = none)
    (hc : (t.nodeRead t.cursor).child b = some i) :
    ∃ t', pathBitRule b t = .next t' ∧ InsideRecord s done sym (q ++ [b]) t' := by
  obtain ⟨hd, hinv⟩ := h.inv.pathBitDescend h.load hc
  refine ⟨_, (pathBitRule_of_child hl hc).trans (descendTo_next hd), ?_⟩
  exact { h with inv := hinv, cursor := locate_concat_iff.2 ⟨t.cursor, h.cursor, hc⟩ }

/-- PATH_BIT into a new entry, along a path of the built tree: the table gets that path and no label. -/
theorem InsideRecord.create (h : InsideRecord s done sym q t) {b : Bool} {m : Idx} (hl : (t.nodeRead t.cursor).sym = none)
    (hc : (t.nodeRead t.cursor).child b = none) (hfree : t.nodes.length ≠ t.params.nodeCap)
    (hm : locate s.nodes s.root (q ++ [b]) = some m) :
    ∃ t', pathBitRule b t = .next t' ∧ InsideRecord s done sym (q ++ [b]) t' := by
  obtain ⟨hd, hinv⟩ := h.inv.pathBitCreate h.load hl hc hfree
  have hlocate {p l} := @locate_createChild t b q h.inv.bounds h.oneParent h.cursor hc p l
  have hnew : nodeAt t.nodes t.nodeCount = Node.zero :=
    nodeAt_free (ofNat_toNat_idx (h.inv.bounds.count_le.trans_lt (nodeCap_lt t.params))).ge
  refine ⟨_, (pathBitRule_of_free hl hc hfree).trans (descendTo_next (s := t.createChild b) hd), ?_⟩
  refine { inv := hinv, params := h.params, err := h.err, subset := h.subset, load := h.load, loadSym := h.loadSym,
           cursor := hlocate.2 (.inr ⟨rfl, rfl⟩), embeds := fun p l hp => ?_, labels := fun x p => ?_ }
  · rcases hlocate.1 hp with hp | ⟨rfl, -⟩
    · exact h.embeds p l hp
    · exact ⟨m, hm⟩
  · change _ ↔ ∃ l, locate (t.createChild b).nodes t.root p = some l ∧ (nodeAt (t.createChild b).nodes l).sym = some x
    simp only [hlocate, sym_createChild h.inv.bounds.cursor_lt, h.labels]
    constructor
    · rintro ⟨l, hp, hx⟩
      exact ⟨l, .inl hp, hx⟩
    · rintro ⟨l, hp | ⟨-, rfl⟩, hx⟩
      · exact ⟨l, hp, hx⟩
      · rw [hnew] at hx
        cases hx

/-- PATH_BIT follows the next bit of a path of the built tree. -/
theorem InsideRecord.pathBit (hs : Inv s) (ht : s.tree = .built) (h : InsideRecord s done sym q t) {b : Bool} {m : Idx}
    (hm : locate s.nodes s.root (q ++ [b]) = some m) :
    ∃ t', exec (.pathBit b) t = .next t' ∧ InsideRecord s done sym (q ++ [b]) t' := by
  have hl : (t.nodeRead t.cursor).sym = none := h.unlabeled fun x hx => by
    simp [locate_concat_of_mem_paths hs ht (h.subset _ hx)] at hm
  rw [exec_pathBit h.load]
  cases hc : (t.nodeRead t.cursor).child b with
  | some i => exact h.descend hl hc
  | none =>
    have habsent : locate t.nodes t.root (q ++ [b]) = none := by
      refine Option.eq_none_iff_forall_ne_some.2 fun l hloc => ?_
      obtain ⟨j, hj, hjc⟩ := locate_concat_iff.1 hloc
      obtain rfl := Option.some.inj (h.cursor.symm.trans hj)
      cases hc.symm.trans hjc
    exact h.create hl hc (h.not_full hs ht habsent hm) hm

/-- PATH_END labels the node at the end of a pair's path. -/
theorem InsideRecord.pathEnd (hs : Inv s) (ht : s.tree = .built) (h : InsideRecord s done sym q t) (hq : (sym, q) ∈ s.paths)
    (hnew : ∀ x, (x, q) ∉ done) : ∃ t', exec .pathEnd t = .next t' ∧ BetweenRecords s (done ++ [(sym, q)]) t' := by
  have hl := h.unlabeled hnew
  have hcur := h.inv.bounds.cursor_lt
  have hleaf : (t.nodeRead t.cursor).isLeaf = true := isLeaf_iff_child.2 fun b => by
    refine Option.eq_none_iff_forall_ne_some.2 fun i hi => ?_
    obtain ⟨m, hm⟩ := h.embeds (q ++ [b]) i (locate_concat_iff.2 ⟨t.cursor, h.cursor, hi⟩)
    simp [locate_concat_of_mem_paths hs ht hq] at hm
  refine ⟨_, (exec_pathEnd h.load).trans (pathEndRule_of_leaf hl hleaf), ?_⟩
  refine { inv := h.inv.closeRecord h.load hleaf, params := h.params, err := h.err, idle := rfl, tree := .inl rfl,
           embeds := fun p l hp => ?_, subset := fun r hr => ?_, labels := fun x p => ?_ }
  · exact h.embeds p l (by rwa [locate_closeRecord hcur] at hp)
  · rcases List.mem_append.1 hr with hr | hr
    · exact h.subset r hr
    · rwa [List.mem_singleton.1 hr]
  · change _ ↔ ∃ l, locate t.closeRecord.nodes t.root p = some l ∧ (nodeAt t.closeRecord.nodes l).sym = some x
    simp only [locate_closeRecord hcur, sym_closeRecord hcur, List.mem_append, List.mem_singleton, h.labels, h.loadSym]
    constructor
    · rintro (⟨l, hp, hx⟩ | hpair)
      · have hne : l ≠ t.cursor := fun e => by cases hl.symm.trans (e ▸ hx)
        exact ⟨l, hp, by rwa [if_neg hne]⟩
      · cases hpair
        exact ⟨t.cursor, h.cursor, if_pos rfl⟩
    · rintro ⟨l, hp, hx⟩
      by_cases he : l = t.cursor
      · subst l
        rw [if_pos rfl] at hx
        rw [h.oneParent.locate_unique hp h.cursor, Option.some.inj hx]
        exact .inr rfl
      · exact .inl ⟨l, hp, by rwa [if_neg he] at hx⟩

/-- The bits of a path of the built tree, one after the other. -/
theorem InsideRecord.pathBits (hs : Inv s) (ht : s.tree = .built) (h : InsideRecord s done sym q t) {bits : List Bool} {m : Idx}
    (hm : locate s.nodes s.root (q ++ bits) = some m) :
    ∃ t', execAll (bits.map Instr.pathBit) t = .next t' ∧ InsideRecord s done sym (q ++ bits) t' := by
  induction bits generalizing q t with
  | nil => exact ⟨t, rfl, by rwa [List.append_nil]⟩
  | cons b bits ih =>
    rw [List.append_cons] at hm ⊢
    obtain ⟨k, hk, -⟩ := locate_append.1 hm
    obtain ⟨t₁, hstep, h₁⟩ := h.pathBit hs ht hk
    obtain ⟨t₂, hrest, h₂⟩ := ih h₁ hm
    exact ⟨t₂, by rw [List.map_cons, execAll, hstep]; exact hrest, h₂⟩

/-- One record, of a pair whose path no record before it had. -/
theorem BetweenRecords.record (hs : Inv s) (ht : s.tree = .built) (h : BetweenRecords s done t) (hq : (sym, q) ∈ s.paths)
    (hnew : ∀ x, (x, q) ∉ done) :
    ∃ t', execAll (pathExpansion sym q) t = .next t' ∧ BetweenRecords s (done ++ [(sym, q)]) t' := by
  obtain ⟨m, hm, -⟩ := (mem_paths_iff_label hs ht).1 hq
  obtain ⟨t₁, hbegin, h₁⟩ := h.pathBegin sym
  obtain ⟨t₂, hbits, h₂⟩ := h₁.pathBits hs ht (bits := q) hm
  obtain ⟨t₃, hend, h₃⟩ := h₂.pathEnd hs ht hq hnew
  have hopen : execAll (.pathBegin sym :: q.map Instr.pathBit) t = .next t₂ := by rw [execAll, hbegin]; exact hbits
  exact ⟨t₃, by rw [pathExpansion, execAll_append hopen, execAll_singleton, hend], h₃⟩

/-- The records that are left, in the order of the list (R130). -/
theorem BetweenRecords.records (hs : Inv s) (ht : s.tree = .built) (h : BetweenRecords s done t) {rest : List (Sym × List Bool)}
    (hrest : done ++ rest = s.paths) :
    ∃ t', execAll (rest.flatMap fun r => pathExpansion r.1 r.2) t = .next t' ∧ BetweenRecords s s.paths t' := by
  induction rest generalizing done t with
  | nil => exact ⟨t, rfl, by rwa [← hrest, List.append_nil]⟩
  | cons r rest ih =>
    have hfree := leafPathsArePrefixFree s
    rw [← hrest, List.pairwise_append] at hfree
    obtain ⟨-, -, hfree⟩ := hfree
    have hnew x : (x, r.2) ∉ done := fun hx => (hfree _ hx r (List.mem_cons_self ..)).1 List.prefix_rfl
    obtain ⟨t₁, hrecord, h₁⟩ := h.record hs ht (sym := r.1) (q := r.2) (by rw [← hrest]; simp) hnew
    obtain ⟨t₂, hlater, h₂⟩ := ih h₁ (by rw [← hrest]; simp)
    exact ⟨t₂, by rw [List.flatMap_cons, execAll_append hrecord, hlater], h₂⟩

/-! ### The tree that has been loaded -/

/-- After the last record the two trees have the same labels along the same paths. -/
theorem BetweenRecords.labelAlong_eq (hs : Inv s) (ht : s.tree = .built) (h : BetweenRecords s s.paths t) (p : List Bool) :
    labelAlong t.nodes t.root p = labelAlong s.nodes s.root p := by
  cases hp : locate s.nodes s.root p with
  | none =>
    have hnone : locate t.nodes t.root p = none := Option.eq_none_iff_forall_ne_some.2 fun l hl => by
      obtain ⟨m, hm⟩ := h.embeds p l hl
      cases hp.symm.trans hm
    rw [labelAlong, labelAlong, hp, hnone]
    rfl
  | some m =>
    obtain ⟨sym, q, hpq⟩ := exists_mem_paths_of_locate hs ht hp
    obtain ⟨k, hk, -⟩ := (h.labels sym (p ++ q)).1 hpq
    obtain ⟨l, hl, -⟩ := locate_append.1 hk
    have hsym x : (nodeAt t.nodes l).sym = some x ↔ (nodeAt s.nodes m).sym = some x := by
      simpa [hl, hp] using (h.labels x p).symm.trans (mem_paths_iff_label hs ht)
    rw [labelAlong, labelAlong, hp, hl, Option.map_some, Option.map_some, Option.ext hsym]

theorem BetweenRecords.loaded (hs : Inv s) (ht : s.tree = .built) (h : BetweenRecords s s.paths t) : t.tree = .loaded := by
  obtain ⟨sym, q, hq⟩ := exists_mem_paths_of_locate hs ht (p := []) rfl
  refine h.tree.resolve_right fun ⟨_, hnil⟩ => ?_
  simp [hnil] at hq

theorem BetweenRecords.paths_eq (hs : Inv s) (ht : s.tree = .built) (h : BetweenRecords s s.paths t) : t.paths = s.paths := by
  have hloaded := h.inv.loadedTree h.idle (h.loaded hs ht)
  refine pathsFrom_congr [] (h.labelAlong_eq hs ht) (fun p l hl => ?_) fun p l hl => ?_
  · have hup := locate_above hloaded.children_above hl
    have hlt := locate_lt h.inv.bounds.child_lt h.inv.bounds.root_lt hl
    omega
  · have hdown := locate_below (hs.built_tree ht).children_below hl
    have hlt := hs.bounds.root_lt
    omega

end

/-- Settles O51: CLEAR starts the load, each pair is one record, and the tree that stands after the last has the pairs. -/
theorem loadingTheSerializedTreeRestoresIt : Obligations.LoadingTheSerializedTreeRestoresIt := by
  intro s u hs ht hm hp
  obtain ⟨t, hrun, h⟩ := (betweenRecords_cleared u hp).records hs ht (rest := s.paths) rfl
  have hloaded := h.loaded hs ht
  have htree := h.inv.loadedTree h.idle hloaded
  exact ⟨t, by rw [loadTreeExpansion, execAll, exec_clear (.inl hm)]; exact hrun, hloaded, h.idle, h.err, h.paths_eq hs ht,
    htree.root_zero, htree.freq_zero⟩

end Sys2Proof.Machine
end

section
/-! PROOF SUPPORT. The decode commands in the modes in which they run (42_decode.md R140 to R143), and the branches of DECODE's own
rule and of the WALKER's steps, one equation each (R141, R142, R145, R147). -/

namespace Sys2Proof.Machine

theorem isLeaf_eq_false_iff {n : Node} : n.isLeaf = false ↔ n.left ≠ none ∨ n.right ≠ none := by
  rw [← Bool.not_eq_true, isLeaf_iff, not_and_or]

/-- An entry with a child is internal. -/
theorem not_isLeaf_of_child {n : Node} {b : Bool} {i : Idx} (h : n.child b = some i) : n.isLeaf = false :=
  Bool.eq_false_iff.2 fun hleaf => by simpa [h] using isLeaf_iff_child.1 hleaf b

/-! ### The commands -/

theorem exec_setSentinel {s : State} (hm : s.mode = .idle) (sym : Sym) :
    exec (.setSentinel sym) s = .next { s with sentinel := sym } :=
  exec_run (wellFormed_of_needsBuilder rfl _) (by rw [hm]; rfl)

theorem exec_decode {s : State} (hm : s.mode = .idle) : exec .decode s = decodeRule s :=
  exec_run (wellFormed_of_needsBuilder rfl _) (by rw [hm]; rfl)

theorem exec_abort {s : State} (hm : s.mode = .walk ∨ s.mode = .emit) : exec .abort s = .next (s.finishDecode .aborted) :=
  exec_run (wellFormed_of_needsBuilder rfl _) (by rcases hm with hm | hm <;> rw [hm] <;> rfl)

theorem exec_abort_idle {s : State} (hm : s.mode = .idle) : exec .abort s = .next s := by
  simp [exec_eq_execute, execute, wellFormed_of_needsBuilder (i := .abort) rfl, hm, accept, acceptRow]

theorem decodable_of_loaded_or_built {t : TreeState} (h : t = .loaded ∨ t = .built) : t.decodable = true := by
  rcases h with rfl | rfl <;> rfl

theorem decodeRule_of_internal {s : State} (ht : s.tree.decodable = true) (hroot : (s.nodeRead s.root).isLeaf = false) :
    decodeRule s = .next { s.startDecode with mode := .walk } := by
  simp [decodeRule, ht, hroot]

theorem exec_decode_internal {s : State} (hm : s.mode = .idle) (ht : s.tree.decodable = true)
    (hroot : (s.nodeRead s.root).isLeaf = false) : exec .decode s = .next { s.startDecode with mode := .walk } := by
  rw [exec_decode hm, decodeRule_of_internal ht hroot]

theorem decodeRule_of_not_decodable {s : State} (ht : s.tree.decodable = false) :
    decodeRule s = .next (s.recordError .treeState) :=
  if_neg (by simp [ht])

/-! ### The WALKER -/

theorem walkerStep_of_walk {s : State} (hm : s.mode = .walk) : walkerStep s = walkStep s := by
  simp only [walkerStep, hm]

theorem walkerStep_of_emit {s : State} (hm : s.mode = .emit) : walkerStep s = emitStep s := by
  simp only [walkerStep, hm]

theorem walkBit_of_no_child {s : State} {b : Bool} (h : (s.nodeRead s.cursor).child b = none) :
    walkBit b s = .next ((s.recordError .deadEnd).finishDecode .deadEnd) := by
  simp only [walkBit, h]

theorem walkBit_of_child {s : State} {b : Bool} {i : Idx} (h : (s.nodeRead s.cursor).child b = some i) :
    walkBit b s = arrive { s with cursor := i } := by
  simp only [walkBit, h]

theorem arrive_of_internal {s : State} (h : (s.nodeRead s.cursor).isLeaf = false) : arrive s = .next s :=
  if_neg (by simp [h])

theorem arrive_of_unlabeled {s : State} (h : (s.nodeRead s.cursor).isLeaf = true) (hsym : (s.nodeRead s.cursor).sym = none) :
    arrive s = .fault .unreachableState := by
  simp only [arrive, h, hsym, if_true]

theorem arrive_of_sentinel {s : State} (h : (s.nodeRead s.cursor).isLeaf = true)
    (hsym : (s.nodeRead s.cursor).sym = some s.sentinel) : arrive s = .next (s.finishDecode .sentinel) := by
  simp only [arrive, h, hsym, if_true]

theorem arrive_of_symbol {s : State} {sym : Sym} (h : (s.nodeRead s.cursor).isLeaf = true)
    (hsym : (s.nodeRead s.cursor).sym = some sym) (hne : sym ≠ s.sentinel) :
    arrive s = .next { s with outSym := sym, mode := .emit } := by
  simp only [arrive, h, hsym, if_true, if_neg hne]

theorem emitStep_of_take {s : State} {k : Sink} (h : s.sink.take = some k) :
    emitStep s = .next { s with
      sink := k, received := s.received ++ [s.outSym], emitCount := s.emitCount + 1, cursor := s.root, mode := .walk } := by
  simp only [emitStep, h]

theorem emitStep_of_no_take {s : State} (h : s.sink.take = none) : emitStep s = .fault .stuckNoSink := by
  simp only [emitStep, h]

end Sys2Proof.Machine
end

section
/-! PROOF. The decode commands (42_decode.md R140 to R143), and WalkStep and EmitStep, whole (R145 to R147, R152, R153). -/

namespace Sys2Proof.Machine

/-- Settles O29: SET_SENTINEL runs in IDLE. -/
theorem setSentinelWritesSentinel : Obligations.SetSentinelWritesSentinel := fun _ sym hm => exec_setSentinel hm sym

/-- Settles O32: ABORT's own rule is FinishDecode, and IDLE's column of R87 gives it no effect. -/
theorem abortEndsTheDecode : Obligations.AbortEndsTheDecode := fun _ => ⟨exec_abort, exec_abort_idle⟩

/-- Settles O30: TREE decides whether DECODE starts anything. -/
theorem decodeStartsTheWalk : Obligations.DecodeStartsTheWalk := by
  intro s hm
  constructor
  · intro ht hroot
    exact exec_decode_internal hm (decodable_of_loaded_or_built ht) hroot
  · intro ht
    rw [exec_decode hm]
    exact decodeRule_of_not_decodable (by rcases ht with ht | ht <;> rw [ht] <;> rfl)

/-- Settles O31: a root without children is a leaf, so FinishDecode follows in the same step. -/
theorem rootOnlyDecodeEndsAtOnce : Obligations.RootOnlyDecodeEndsAtOnce := fun _ hm ht hleft hright =>
  exec_decode_rootLeaf hm (decodable_of_loaded_or_built ht) (isLeaf_iff.2 ⟨hleft, hright⟩)

/-- Settles O33: the token decides first, then the child that its bit names, then the leaf tests at that child. -/
theorem walkStepFollowsOneToken : Obligations.WalkStepFollowsOneToken := by
  intro s tokens tail hm
  rw [walkerStep_of_walk hm]
  refine ⟨walkStep_of_offers, fun b ho => ⟨fun hc => (walkStep_of_offers ho).trans (walkBit_of_no_child hc), fun i hc => ?_⟩⟩
  intro n t
  have harrive : walkStep s = arrive t := (walkStep_of_offers ho).trans (walkBit_of_child hc)
  rw [harrive]
  refine ⟨fun hchild => arrive_of_internal (isLeaf_eq_false_iff.2 hchild), fun hleft hright => ?_, fun hleft hright => ?_,
    fun sym hleft hright => ?_⟩
  · exact arrive_of_unlabeled (s := t) (isLeaf_iff.2 ⟨hleft, hright⟩)
  · exact arrive_of_sentinel (s := t) (isLeaf_iff.2 ⟨hleft, hright⟩)
  · exact arrive_of_symbol (s := t) (isLeaf_iff.2 ⟨hleft, hright⟩)

/-- Settles O34: the SINK decides whether EmitStep gives a state; outside WALK and EMIT there is no such step. -/
theorem emitStepHandsOverTheSymbol : Obligations.EmitStepHandsOverTheSymbol := by
  intro s
  refine ⟨fun hm hk => ?_, fun n hm hk => ?_, fun hm hk => ?_, fun hw he => ?_⟩
  · rw [walkerStep_of_emit hm, emitStep_of_take (k := .acceptsAll) (by rw [hk]; rfl), ← hk]
  · exact (walkerStep_of_emit hm).trans (emitStep_of_take (by rw [hk]; rfl))
  · exact (walkerStep_of_emit hm).trans (emitStep_of_no_take (Sink.take_eq_none.2 hk))
  · rcases walkerStep_cases s with ⟨hm, -⟩ | ⟨hm, -⟩ | ⟨-, -, e⟩
    · exact absurd hm hw
    · exact absurd hm he
    · exact ⟨_, e⟩

end Sys2Proof.Machine
end

section
/-! PROOF. No step of a running decode writes the tree (42_decode.md R154, 20_memory.md R73): in WALK and EMIT the commands that write
it are BUSY (30_encoding.md R87), and the WALKER has none of it among the registers it writes. -/

namespace Sys2Proof.Machine

/-- The tables, ROOT, TREE and SENTINEL are the same in `s` and `t`. -/
structure SameTree (s t : State) : Prop where
  nodes : t.nodes = s.nodes := by rfl
  freqs : t.freqs = s.freqs := by rfl
  root : t.root = s.root := by rfl
  tree : t.tree = s.tree := by rfl
  sentinel : t.sentinel = s.sentinel := by rfl

theorem SameTree.trans {s u t : State} (h : SameTree s u) (k : SameTree u t) : SameTree s t where
  nodes := k.nodes.trans h.nodes
  freqs := k.freqs.trans h.freqs
  root := k.root.trans h.root
  tree := k.tree.trans h.tree
  sentinel := k.sentinel.trans h.sentinel

/-- The commands whose own rule runs during a decode (R87). -/
theorem runs_during_decode {m : Mode} {i : Instr} (hm : m = .walk ∨ m = .emit) (ha : accept m i = .exec) :
    i = .nop ∨ i = .abort ∨ (∃ idx, i = .readNode idx) ∨ (∃ reg, i = .readReg reg) ∨ (∃ v, i = .writeCtrl v) ∨ ∃ k, i = .ack k := by
  rcases hm with rfl | rfl <;> cases i <;> simp_all [accept, acceptRow]

theorem sameTree_ownRule {s : State} (hm : s.mode = .walk ∨ s.mode = .emit) {i : Instr} (ha : accept s.mode i = .exec) :
    NextMeets (SameTree s) (ownRule i s) := by
  rcases runs_during_decode hm ha with rfl | rfl | ⟨idx, rfl⟩ | ⟨reg, rfl⟩ | ⟨v, rfl⟩ | ⟨k, rfl⟩
  · exact nextMeets_next.2 {}
  · exact nextMeets_next.2 {}
  · change NextMeets _ (readNodeRule idx s)
    rcases readNodeRule_cases idx s with ⟨_, e⟩ | ⟨_, _, e⟩ | ⟨_, _, e⟩ <;> rw [e] <;> exact nextMeets_next.2 {}
  · change NextMeets _ (readRegRule reg s)
    rcases readRegRule_cases reg s with ⟨_, _, e⟩ | ⟨_, e⟩ <;> rw [e] <;> exact nextMeets_next.2 {}
  · exact nextMeets_next.2 {}
  · exact nextMeets_next.2 {}

theorem sameTree_exec {s : State} (hm : s.mode = .walk ∨ s.mode = .emit) (i : Instr) : NextMeets (SameTree s) (exec i s) := by
  intro t h
  rcases exec_next h with ⟨_, ha, e⟩ | ⟨_, _, rfl⟩ | ⟨⟨hload, _⟩, _⟩ | rfl
  · exact sameTree_ownRule hm ha t e
  · exact {}
  · rw [hload] at hm
    simp at hm
  · exact {}

theorem sameTree_executeWord {s : State} (hm : s.mode = .walk ∨ s.mode = .emit) (w : Word64) :
    NextMeets (SameTree s) (executeWord w s) := by
  rcases executeWord_cases w s with ⟨i, _, e⟩ | ⟨_, _, e⟩ <;> rw [e]
  · exact sameTree_exec hm i
  · rw [illegalWord_next (by rcases hm with hm | hm <;> rw [hm] <;> decide)]
    exact nextMeets_next.2 {}

theorem sameTree_arrive (s : State) : NextMeets (SameTree s) (arrive s) := by
  rcases arrive_cases s with ⟨_, e⟩ | ⟨_, _, e⟩ | ⟨_, _, e⟩ | ⟨_, _, _, _, e⟩ <;> rw [e]
  · exact nextMeets_next.2 {}
  · exact nextMeets_fault _ _
  · exact nextMeets_next.2 {}
  · exact nextMeets_next.2 {}

theorem sameTree_walkStep (s : State) : NextMeets (SameTree s) (walkStep s) := by
  rcases walkStep_cases s with ⟨_, _, e⟩ | ⟨_, _, _, e⟩ | ⟨b, tokens, tail, _, e⟩ <;> rw [e]
  · exact nextMeets_fault _ _
  · exact nextMeets_next.2 {}
  · rcases walkBit_cases b { s with tokens := tokens, sourceTail := tail, bitCount := s.bitCount + 1 } with ⟨_, e⟩ | ⟨i, _, e⟩ <;>
      rw [e]
    · exact nextMeets_next.2 {}
    · exact (sameTree_arrive _).imp fun _ h => SameTree.trans {} h

theorem sameTree_emitStep (s : State) : NextMeets (SameTree s) (emitStep s) := by
  rcases emitStep_cases s with ⟨_, e⟩ | ⟨_, _, e⟩ <;> rw [e]
  · exact nextMeets_fault _ _
  · exact nextMeets_next.2 {}

theorem sameTree_agentStep {s : State} (hm : s.mode = .walk ∨ s.mode = .emit) (first : Bool) :
    NextMeets (SameTree s) (agentStep first s) := by
  rcases agentStep_transfers first s with ⟨w, rest, _, _, e⟩ | ⟨_, e⟩ | ⟨_, e⟩ | e <;> rw [e]
  · exact (sameTree_executeWord (s := { s with commands := rest }) hm w).imp fun _ h => SameTree.trans {} h
  · exact sameTree_walkStep s
  · exact sameTree_emitStep s
  · exact nextMeets_fault _ _

/-- Settles O35: the step is a transfer, since no reset comes next; NODE_COUNT is the node table's length. -/
theorem noStepOfADecodeWritesTheTree : Obligations.NoStepOfADecodeWritesTheTree := by
  intro s t hm hstep hreset
  have hsame : SameTree s t := by
    rcases step_resets_or_transfers s with ⟨rest, h, _⟩ | ⟨first, turns, n, e⟩
    · exact absurd h (hreset rest)
    · exact SameTree.trans {} (sameTree_agentStep (s := { s with turns := turns, freeTurns := n }) hm first t (e ▸ hstep))
  exact ⟨hsame.nodes, hsame.freqs, hsame.root, by rw [State.nodeCount, hsame.nodes]; rfl, hsame.tree, hsame.sentinel⟩

end Sys2Proof.Machine
end

section
/-! PROOF SUPPORT. Runs in which the HOST has no command left, the SINK accepts every symbol and no reset is named: every step is the
WALKER's (10_state.md R56), and it changes the turns besides what WalkStep and EmitStep change (42_decode.md R145, R147). -/

namespace Sys2Proof.Machine

/-- No reset is named for a turn. -/
abbrev NoReset (turns : List Turn) : Prop := ∀ x ∈ turns, x ≠ .reset

/-- Nothing but the SOURCE can keep the WALKER from stepping, and no other agent steps. -/
structure WalkerAlone (s : State) : Prop where
  no_command : s.commands = []
  accepts : s.sink = .acceptsAll
  no_reset : NoReset s.turns

theorem rst_of_noReset {s : State} (h : NoReset s.turns) : s.rst = false :=
  rst_of_no_reset fun ts ht => h .reset (by simp [ht]) rfl

/-- The HOST alone can step: its word is executed, whoever is named for the turn (R56, R88). -/
theorem step_of_host_alone {s : State} {w : Word64} {rest : List Word64} {i : Instr} (hc : s.commands = w :: rest)
    (hm : s.mode ≠ .build) (hd : decode s.params w = .ok i) (hw : s.walkerEnabled = false) (ht : NoReset s.turns) :
    ∃ turns n, NoReset turns ∧ step s = exec i { s with commands := rest, turns := turns, freeTurns := n } := by
  have hrun (first : Bool) := agentStep_runs_decoded (first := first) hc hm hd (.inr hw)
  rcases step_cases s with ⟨ts, h, -⟩ | ⟨ts, first, h, e⟩ | ⟨h, e⟩
  · exact absurd rfl (ht .reset (by simp [h]))
  · exact ⟨ts, s.freeTurns, fun x hx => ht x (by rcases h with h | h <;> simp [h, hx]), e.trans (hrun first ts s.freeTurns)⟩
  · exact ⟨s.turns, s.freeTurns + 1, ht, e.trans (hrun _ s.turns _)⟩

/-- Where the run has ended, the step says so (R240). -/
theorem step_of_ended {s : State} (hc : s.commands = []) (ht : NoReset s.turns) (hm : s.mode = .idle) :
    step s = .fault .runEnded := by
  obtain ⟨turns, n, -, e⟩ := step_of_no_commands hc (rst_of_noReset ht)
  simpa [State.walkerEnabled, State.noStep, hm] using e

theorem WalkerAlone.step_walk {s : State} (h : WalkerAlone s) (hm : s.mode = .walk) {tok : Token} {rest : List Token}
    (htok : s.tokens = tok :: rest) :
    ∃ turns n, NoReset turns ∧ step s = walkStep { s with turns := turns, freeTurns := n } := by
  have hw : s.walkerEnabled = true := (walkerEnabled_iff s).2 (.inl ⟨hm, by simp [htok]⟩)
  obtain ⟨turns, n, ht, e⟩ := step_of_walker_alone h.no_command h.no_reset hw
  exact ⟨turns, n, ht, e.trans (walkerStep_of_walk hm)⟩

theorem WalkerAlone.step_bit {s : State} (h : WalkerAlone s) (hm : s.mode = .walk) {b : Bool} {rest : List Token}
    (htok : s.tokens = .bit b :: rest) :
    ∃ turns n, NoReset turns ∧
      step s = walkBit b { s with tokens := rest, bitCount := s.bitCount + 1, turns := turns, freeTurns := n } := by
  obtain ⟨turns, n, ht, e⟩ := h.step_walk hm htok
  exact ⟨turns, n, ht, e.trans (walkStep_of_offers (s := { s with turns := turns, freeTurns := n }) (.inl ⟨htok, rfl⟩))⟩

theorem WalkerAlone.step_child {s : State} (h : WalkerAlone s) (hm : s.mode = .walk) {b : Bool} {rest : List Token}
    (htok : s.tokens = .bit b :: rest) {i : Idx} (hi : (s.nodeRead s.cursor).child b = some i) :
    ∃ turns n, NoReset turns ∧
      step s = arrive { s with tokens := rest, bitCount := s.bitCount + 1, cursor := i, turns := turns, freeTurns := n } := by
  obtain ⟨turns, n, ht, e⟩ := h.step_bit hm htok
  exact ⟨turns, n, ht, e.trans (walkBit_of_child hi)⟩

theorem WalkerAlone.step_eos {s : State} (h : WalkerAlone s) (hm : s.mode = .walk) {rest : List Token}
    (htok : s.tokens = .eos :: rest) :
    ∃ turns n, NoReset turns ∧
      step s = .next ({ s with tokens := rest, turns := turns, freeTurns := n }.finishDecode .streamEnd) := by
  obtain ⟨turns, n, ht, e⟩ := h.step_walk hm htok
  exact ⟨turns, n, ht, e.trans (walkStep_of_offers (s := { s with turns := turns, freeTurns := n }) (.inl ⟨htok, rfl⟩))⟩

theorem WalkerAlone.step_emit {s : State} (h : WalkerAlone s) (hm : s.mode = .emit) :
    ∃ turns n, NoReset turns ∧ step s = .next { s with
      received := s.received ++ [s.outSym], emitCount := s.emitCount + 1, cursor := s.root, mode := .walk,
      turns := turns, freeTurns := n } := by
  have hk := h.accepts
  have hw : s.walkerEnabled = true := (walkerEnabled_iff s).2 (.inr ⟨hm, by simp [hk]⟩)
  obtain ⟨turns, n, ht, e⟩ := step_of_walker_alone h.no_command h.no_reset hw
  refine ⟨turns, n, ht, ?_⟩
  rw [e, walkerStep_of_emit (by exact hm), emitStep_of_take (k := s.sink) (by simp [hk, Sink.take])]

end Sys2Proof.Machine
end

section
/-! PROOF. A decode of encoded symbols (42_decode.md R150): the WALKER goes down the path of each symbol, emits at its leaf and starts
again at the root, until the path of SENTINEL ends the decode. -/

namespace Sys2Proof.Machine

/-- The path `p` leads from ROOT, over at least one bit, to a leaf with the label `sym`. -/
def PathTo (s : State) (sym : Sym) (p : List Bool) : Prop :=
  p ≠ [] ∧ ∃ l, locate s.nodes s.root p = some l ∧ (s.nodeRead l).isLeaf = true ∧ (s.nodeRead l).sym = some sym

/-- path(s) leads to a leaf with the label s, in a tree that can be decoded and has an internal root (R131, R45 (c)). -/
theorem Inv.pathTo {s : State} (h : Inv s) (hm : s.mode ≠ .load) (ht : s.tree.decodable = true)
    (hroot : (s.nodeRead s.root).isLeaf = false) {sym : Sym} {p : List Bool} (hp : s.pathOf sym = some p) : PathTo s sym p := by
  obtain ⟨⟨x, q⟩, hfind, rfl⟩ := Option.map_eq_some_iff.1 hp
  obtain rfl : x = sym := by simpa using List.find?_some hfind
  obtain ⟨q, l, rfl, -, hl, hleaf, hsym⟩ := mem_pathsFrom.1 (List.mem_of_find?_eq_some hfind)
  refine ⟨fun hnil => ?_, l, hl, hleaf, ?_⟩
  · obtain rfl : q = [] := hnil
    obtain rfl : s.root = l := Option.some.inj hl
    exact absurd hleaf (by simpa [State.nodeRead] using hroot)
  · have hlab : (nodeAt s.nodes l).lab = true := (h.labeled hm ht _ (nodeAt_mem (locate_lt_of_inv h hl))).trans hleaf
    obtain ⟨y, hy⟩ := Option.isSome_iff_exists.1 hlab
    rw [hsym, Node.symValue, State.nodeRead, hy]
    rfl

theorem count_add_length_cons {α : Type} (c : BitVec 32) (x : α) (l : List α) :
    c + 1 + BitVec.ofNat 32 l.length = c + BitVec.ofNat 32 (x :: l).length := by
  rw [List.length_cons, Nat.add_comm, BitVec.ofNat_add, BitVec.add_assoc]
  rfl

theorem core_run_one (s : State) : Host.Core.run Sys2Proof.core 1 s = step s := by
  cases h : step s with
  | next t => exact core_run_of_step h 0
  | fault r => simp [Host.Core.run, Sys2Proof.core, h]
  | refused r => simp [Host.Core.run, Sys2Proof.core, h]

/-- One step per bit goes down a path, and the last makes the leaf tests at its end (R145). -/
theorem run_path {s : State} {b : Bool} {p : List Bool} {rest : List Token} {l : Idx} (h : WalkerAlone s) (hm : s.mode = .walk)
    (htok : s.tokens = (b :: p).map Token.bit ++ rest) (hl : locate s.nodes s.cursor (b :: p) = some l) :
    ∃ turns n, NoReset turns ∧ Host.Core.run Sys2Proof.core (b :: p).length s = arrive { s with
      tokens := rest, bitCount := s.bitCount + BitVec.ofNat 32 (b :: p).length, cursor := l, turns := turns, freeTurns := n } := by
  induction p generalizing s b with
  | nil =>
    obtain ⟨i, hi, hil⟩ := locate_cons.1 hl
    obtain rfl : i = l := Option.some.inj hil
    obtain ⟨turns, n, ht, e⟩ := h.step_child hm htok hi
    exact ⟨turns, n, ht, (core_run_one s).trans e⟩
  | cons c p ih =>
    obtain ⟨i, hi, hil⟩ := locate_cons.1 hl
    obtain ⟨turns, n, ht, e⟩ := h.step_child hm htok hi
    obtain ⟨j, hj, -⟩ := locate_cons.1 hil
    have hstep := e.trans (arrive_of_internal (not_isLeaf_of_child hj))
    obtain ⟨turns', n', ht', e'⟩ := ih (s := { s with
        tokens := (c :: p).map Token.bit ++ rest, bitCount := s.bitCount + 1, cursor := i, turns := turns, freeTurns := n })
      ⟨h.no_command, h.accepts, ht⟩ hm rfl hil
    refine ⟨turns', n', ht', (core_run_of_step hstep _).trans (e'.trans ?_)⟩
    rw [count_add_length_cons]

/-- A decode from the root, with the WALKER alone. -/
structure AtRoot (s : State) : Prop extends WalkerAlone s where
  walk : s.mode = .walk
  at_root : s.cursor = s.root

/-- The path of a symbol that is not SENTINEL, and its EmitStep: the symbol is received and the walk is at the root again. -/
theorem AtRoot.run_symbol {s : State} (h : AtRoot s) {sym : Sym} {p : List Bool} {rest : List Token} (hp : PathTo s sym p)
    (hne : sym ≠ s.sentinel) (htok : s.tokens = p.map Token.bit ++ rest) :
    ∃ turns n, NoReset turns ∧ Host.Core.run Sys2Proof.core (p.length + 1) s = .next { s with
      tokens := rest, bitCount := s.bitCount + BitVec.ofNat 32 p.length, outSym := sym, received := s.received ++ [sym],
      emitCount := s.emitCount + 1, cursor := s.root, mode := .walk, turns := turns, freeTurns := n } := by
  obtain ⟨hnil, l, hl, hleaf, hsym⟩ := hp
  obtain ⟨b, p, rfl⟩ := List.exists_cons_of_ne_nil hnil
  obtain ⟨turns, n, ht, e⟩ := run_path h.toWalkerAlone h.walk htok (h.at_root ▸ hl)
  have hsymbol := e.trans (arrive_of_symbol hleaf hsym hne)
  obtain ⟨turns', n', ht', e'⟩ := WalkerAlone.step_emit (s := { s with
    tokens := rest, bitCount := s.bitCount + BitVec.ofNat 32 (b :: p).length, cursor := l, turns := turns, freeTurns := n,
    outSym := sym, mode := .emit }) ⟨h.no_command, h.accepts, ht⟩ rfl
  exact ⟨turns', n', ht', (core_run_add hsymbol 1).trans ((core_run_one _).trans e')⟩

/-- The path of SENTINEL ends the decode (R153). -/
theorem AtRoot.run_sentinel {s : State} (h : AtRoot s) {p : List Bool} {rest : List Token} (hp : PathTo s s.sentinel p)
    (htok : s.tokens = p.map Token.bit ++ rest) :
    ∃ turns n cursor, NoReset turns ∧ Host.Core.run Sys2Proof.core p.length s = .next ({ s with
      tokens := rest, bitCount := s.bitCount + BitVec.ofNat 32 p.length, cursor := cursor, turns := turns,
      freeTurns := n }.finishDecode .sentinel) := by
  obtain ⟨hnil, l, hl, hleaf, hsym⟩ := hp
  obtain ⟨b, p, rfl⟩ := List.exists_cons_of_ne_nil hnil
  obtain ⟨turns, n, ht, e⟩ := run_path h.toWalkerAlone h.walk htok (h.at_root ▸ hl)
  exact ⟨turns, n, l, ht, e.trans (arrive_of_sentinel hleaf hsym)⟩

theorem encodeSymbols_cons {s : State} {sym : Sym} {syms : List Sym} {bits : List Bool}
    (h : s.encodeSymbols (sym :: syms) = some bits) :
    ∃ p more, s.pathOf sym = some p ∧ s.encodeSymbols syms = some more ∧ bits = p ++ more := by
  unfold State.encodeSymbols at h
  split at h
  · exact ⟨_, _, ‹_›, ‹_›, (Option.some.inj h).symm⟩
  · cases h
  · cases h

/-- The encoding depends on the paths and on SENTINEL alone (R131). -/
theorem encodeSymbols_congr {s t : State} {syms : List Sym} {bits : List Bool} (hbits : s.encodeSymbols syms = some bits)
    (hpath : t.pathOf = s.pathOf) (hsentinel : t.sentinel = s.sentinel) : t.encodeSymbols syms = some bits := by
  rw [← hbits]
  clear hbits
  induction syms with
  | nil => rw [State.encodeSymbols, State.encodeSymbols, hpath, hsentinel]
  | cons sym syms ih => rw [State.encodeSymbols, State.encodeSymbols, hpath, ih]

/-- From the root, the encoding of a symbol sequence is decoded symbol by symbol (R150). -/
theorem AtRoot.run_encoded {s : State} (h : AtRoot s) {syms : List Sym} {bits : List Bool} {rest : List Token}
    (hpaths : ∀ sym p, s.pathOf sym = some p → PathTo s sym p) (hne : ∀ x ∈ syms, x ≠ s.sentinel)
    (hbits : s.encodeSymbols syms = some bits) (htok : s.tokens = bits.map Token.bit ++ rest) :
    ∃ turns n cursor outSym, NoReset turns ∧ Host.Core.run Sys2Proof.core (bits.length + syms.length) s = .next ({ s with
      tokens := rest, bitCount := s.bitCount + BitVec.ofNat 32 bits.length, received := s.received ++ syms,
      emitCount := s.emitCount + BitVec.ofNat 32 syms.length, cursor := cursor, outSym := outSym, turns := turns,
      freeTurns := n }.finishDecode .sentinel) := by
  induction syms generalizing s bits with
  | nil =>
    obtain ⟨turns, n, cursor, ht, e⟩ := h.run_sentinel (hpaths _ _ hbits) htok
    exact ⟨turns, n, cursor, s.outSym, ht, by simpa using e⟩
  | cons sym syms ih =>
    obtain ⟨p, more, hp, hmore, rfl⟩ := encodeSymbols_cons hbits
    obtain ⟨turns, n, ht, e⟩ := h.run_symbol (rest := more.map Token.bit ++ rest) (hpaths _ _ hp) (hne sym (by simp))
      (by simp [htok])
    obtain ⟨turns', n', cursor, outSym, ht', e'⟩ := ih (s := { s with
        tokens := more.map Token.bit ++ rest, bitCount := s.bitCount + BitVec.ofNat 32 p.length, outSym := sym,
        received := s.received ++ [sym], emitCount := s.emitCount + 1, cursor := s.root, mode := .walk, turns := turns,
        freeTurns := n })
      ⟨⟨h.no_command, h.accepts, ht⟩, rfl, rfl⟩ hpaths (fun x hx => hne x (by simp [hx]))
      (encodeSymbols_congr hmore rfl rfl) rfl
    refine ⟨turns', n', cursor, outSym, ht', ?_⟩
    have hlength : (p ++ more).length + (sym :: syms).length = p.length + 1 + (more.length + syms.length) := by
      simp only [List.length_append, List.length_cons]
      omega
    have hbitCount : s.bitCount + BitVec.ofNat 32 (p ++ more).length =
        s.bitCount + BitVec.ofNat 32 p.length + BitVec.ofNat 32 more.length := by
      rw [List.length_append, BitVec.ofNat_add, BitVec.add_assoc]
    rw [hlength, hbitCount, ← count_add_length_cons, List.append_cons]
    exact (core_run_add e _).trans e'

/-- Settles O37: the HOST's DECODE starts the walk, and the encoded symbols are decoded from the root. -/
theorem decodeReproducesTheEncodedSymbols : Obligations.DecodeReproducesTheEncodedSymbols := by
  intro s syms bits rest hinv hm ht hroot hne hbits htok hsink hcmd hturns
  obtain ⟨turns, n, hturns, e⟩ := step_of_host_alone hcmd (by rw [hm]; decide)
    (decode_ok_iff.2 ⟨rfl, wellFormed_of_needsBuilder rfl _⟩) (by simp [State.walkerEnabled, hm]) hturns
  have hdecodable := decodable_of_loaded_or_built ht
  have hstart := e.trans (exec_decode_internal hm hdecodable hroot)
  have hpaths (sym : Sym) (p : List Bool) (hp : s.pathOf sym = some p) : PathTo s sym p :=
    hinv.pathTo (by rw [hm]; decide) hdecodable hroot hp
  obtain ⟨turns', n', cursor, outSym, hturns', e'⟩ := AtRoot.run_encoded (s := { s with
      commands := [], turns := turns, freeTurns := n, emitCount := 0, bitCount := 0, endCause := .none, done := false,
      cursor := s.root, mode := .walk })
    ⟨⟨rfl, hsink, hturns⟩, rfl, rfl⟩ hpaths hne (encodeSymbols_congr hbits rfl rfl) htok
  have hlength : 1 + bits.length + syms.length = bits.length + syms.length + 1 := by omega
  have hrun := (core_run_of_step hstart _).trans e'
  rw [← hlength] at hrun
  exact ⟨_, hrun, rfl, rfl, rfl, rfl, BitVec.zero_add _, BitVec.zero_add _, rfl, rfl, rfl, rfl, step_of_ended rfl hturns' rfl⟩

end Sys2Proof.Machine
end

section
/-! PROOF. A decode ends at the latest at the first EOS (42_decode.md R155, R152): every WalkStep takes one token of those before it, an
EmitStep comes after a WalkStep, and no step from the invariant faults. -/

namespace Sys2Proof.Machine

/-- The decode has ended (R148). -/
structure DecodeEnded (s : State) : Prop where
  idle : s.mode = .idle
  done : s.done = true
  cause : s.endCause ≠ .none

theorem decodeEnded_finishDecode (s : State) {cause : EndCause} (h : cause ≠ .none) : DecodeEnded (s.finishDecode cause) :=
  ⟨rfl, rfl, h⟩

/-- A step of the WALKER's, which is alone, gives a state that still meets the invariant and has the tokens `tokens` left. -/
structure WalkerStepped (s : State) (tokens : List Token) (t : State) : Prop extends WalkerAlone t where
  inv : Inv t
  tokens : t.tokens = tokens
  sourceTail : t.sourceTail = s.sourceTail

theorem WalkerAlone.stepped {s t : State} (h : WalkerAlone s) (hinv : Inv s) (e : step s = .next t) {tokens : List Token}
    (hcommands : t.commands = s.commands) (hsink : t.sink = s.sink) (hturns : NoReset t.turns) (htokens : t.tokens = tokens)
    (htail : t.sourceTail = s.sourceTail) : WalkerStepped s tokens t where
  no_command := hcommands.trans h.no_command
  accepts := hsink.trans h.accepts
  no_reset := hturns
  inv := everyStepKeepsTheInvariant s t hinv e
  tokens := htokens
  sourceTail := htail

/-- A WalkStep on a bit ends the decode, goes on in WALK or emits (R145): the fault at an unlabeled leaf cannot happen (R146). -/
theorem WalkerAlone.stepped_bit {s : State} (h : WalkerAlone s) (hinv : Inv s) (hm : s.mode = .walk) {b : Bool} {rest : List Token}
    (htok : s.tokens = .bit b :: rest) :
    ∃ t, step s = .next t ∧ WalkerStepped s rest t ∧ (t.mode = .walk ∨ t.mode = .emit ∨ DecodeEnded t) := by
  obtain ⟨turns, n, ht, e⟩ := h.step_bit hm htok
  rcases walkBit_cases b { s with tokens := rest, bitCount := s.bitCount + 1, turns := turns, freeTurns := n } with
    ⟨_, e1⟩ | ⟨i, _, e1⟩
  · rw [e1] at e
    exact ⟨_, e, h.stepped hinv e rfl rfl ht rfl rfl, .inr (.inr (decodeEnded_finishDecode _ (by decide)))⟩
  · rw [e1] at e
    have hsafe := noStepReachesAnUnreachableState s hinv
    rcases arrive_cases { s with tokens := rest, bitCount := s.bitCount + 1, turns := turns, freeTurns := n, cursor := i } with
      ⟨_, e2⟩ | ⟨_, _, e2⟩ | ⟨_, _, e2⟩ | ⟨sym, _, _, _, e2⟩ <;> rw [e2] at e
    · exact ⟨_, e, h.stepped hinv e rfl rfl ht rfl rfl, .inl hm⟩
    · rw [e] at hsafe
      exact hsafe.elim
    · exact ⟨_, e, h.stepped hinv e rfl rfl ht rfl rfl, .inr (.inr (decodeEnded_finishDecode _ (by decide)))⟩
    · exact ⟨_, e, h.stepped hinv e rfl rfl ht rfl rfl, .inr (.inl rfl)⟩

/-- Within `n` steps from `s` the decode has ended, with the tokens `rest` at the end of those that are left. -/
def EndsWithin (n : Nat) (rest : List Token) (s : State) : Prop :=
  ∃ k t, k ≤ n ∧ Host.Core.run Sys2Proof.core k s = .next t ∧ DecodeEnded t ∧ rest <:+ t.tokens ∧ t.sourceTail = s.sourceTail

theorem endsWithin_of_ended {s : State} (h : DecodeEnded s) {rest : List Token} (hrest : rest <:+ s.tokens) (n : Nat) :
    EndsWithin n rest s :=
  ⟨0, s, n.zero_le, rfl, h, hrest, rfl⟩

theorem EndsWithin.mono {m n : Nat} {rest : List Token} {s : State} (h : EndsWithin m rest s) (hmn : m ≤ n) :
    EndsWithin n rest s := by
  obtain ⟨k, t, hk, h⟩ := h
  exact ⟨k, t, hk.trans hmn, h⟩

theorem EndsWithin.step {n : Nat} {rest : List Token} {s t : State} (h : EndsWithin n rest t) (e : step s = .next t)
    (htail : t.sourceTail = s.sourceTail) : EndsWithin (n + 1) rest s := by
  obtain ⟨k, u, hk, hrun, hended, hrest, hu⟩ := h
  exact ⟨k + 1, u, Nat.succ_le_succ hk, (core_run_of_step e k).trans hrun, hended, hrest, hu.trans htail⟩

/-- EmitStep returns to WALK with the tokens as they are (R147). -/
theorem WalkerAlone.endsWithin_emit {s : State} (h : WalkerAlone s) (hinv : Inv s) (hm : s.mode = .emit) {n : Nat}
    {rest : List Token} (hwalk : ∀ t, WalkerStepped s s.tokens t → t.mode = .walk → EndsWithin n rest t) : EndsWithin (n + 1) rest s := by
  obtain ⟨turns, m, ht, e⟩ := h.step_emit hm
  exact (hwalk _ (h.stepped hinv e rfl rfl ht rfl rfl) rfl).step e rfl

/-- From WALK, two steps for each bit before the EOS and one for the EOS are enough. -/
theorem WalkerAlone.endsWithin_walk {s : State} (h : WalkerAlone s) (hinv : Inv s) (hm : s.mode = .walk) {bits : List Bool}
    {rest : List Token} (htok : s.tokens = bits.map Token.bit ++ .eos :: rest) : EndsWithin (2 * bits.length + 1) rest s := by
  induction bits generalizing s with
  | nil =>
    obtain ⟨turns, n, -, e⟩ := h.step_eos hm htok
    exact (endsWithin_of_ended (decodeEnded_finishDecode _ (by decide)) (List.suffix_refl rest) 0).step e rfl
  | cons b bits ih =>
    obtain ⟨t, e, ht, hmode⟩ := h.stepped_bit hinv hm htok
    suffices hafter : EndsWithin (2 * bits.length + 2) rest t from hafter.step e ht.sourceTail
    rcases hmode with hwalk | hemit | hended
    · exact (ih ht.toWalkerAlone ht.inv hwalk ht.tokens).mono (by omega)
    · exact ht.toWalkerAlone.endsWithin_emit ht.inv hemit fun u hu hwalk =>
        ih hu.toWalkerAlone hu.inv hwalk (hu.tokens.trans ht.tokens)
    · exact endsWithin_of_ended hended (by rw [ht.tokens]; exact ⟨bits.map Token.bit ++ [.eos], by simp⟩) _

/-- Settles O38: from EMIT one step more, to WALK. -/
theorem decodeEndsByTheFirstEos : Obligations.DecodeEndsByTheFirstEos := by
  intro s bits rest hinv hm htok hsink hcmd hturns
  have halone : WalkerAlone s := ⟨hcmd, hsink, hturns⟩
  have hends : EndsWithin (2 * bits.length + 2) rest s := by
    rcases hm with hm | hm
    · exact (halone.endsWithin_walk hinv hm htok).mono (by omega)
    · exact halone.endsWithin_emit hinv hm fun t ht hwalk =>
        ht.toWalkerAlone.endsWithin_walk ht.inv hwalk (ht.tokens.trans htok)
  obtain ⟨k, t, hk, hrun, hended, hrest, htail⟩ := hends
  exact ⟨k, t, hk, hrun, hended.idle, hended.done, hended.cause, hrest, htail⟩

end Sys2Proof.Machine
end

section
/-! PROOF. The control commands (43_control.md R170 to R174): what each answers in every mode that takes a command, with
READ_NODE's image (30_encoding.md R86), the registers by their numbers (10_state.md R39) and the level of irq (R54). -/

namespace Sys2Proof.Machine

/-! ### What the commands read -/

/-- The numbers 12 to 15 name no register (R39). -/
theorem readRegister_eq_none (s : State) {reg : BitVec 4} (h : 12 ≤ reg.toNat) : s.readRegister reg = none := by
  have hlt := reg.isLt
  obtain hr | hr | hr | hr : reg.toNat = 12 ∨ reg.toNat = 13 ∨ reg.toNat = 14 ∨ reg.toNat = 15 := by omega
  all_goals simp only [State.readRegister, hr]

/-- irq is the level of the enabled causes (R54). -/
theorem irq_eq_true_iff {s : State} :
    s.irq = true ↔ (s.ctrl[0] = true ∧ s.err ≠ .none) ∨ (s.ctrl[1] = true ∧ s.done = true) := by
  simp [State.irq, State.ieErr, State.ieDone]

/-! ### The commands -/

section
variable {s : State} (hm : s.mode ≠ .build)
include hm

theorem exec_nop : exec .nop s = .next s := exec_always rfl rfl hm

theorem exec_writeCtrl (v : BitVec 2) : exec (.writeCtrl v) s = .next { s with ctrl := v } := exec_always rfl rfl hm

theorem exec_ack (m : BitVec 2) : exec (.ack m) s = .next (s.acknowledge m) := exec_always rfl rfl hm

theorem exec_readNode (idx : Idx) : exec (.readNode idx) s = readNodeRule idx s := exec_always rfl rfl hm

theorem exec_readNode_badIndex {idx : Idx} (h : s.params.nodeCap ≤ idx.toNat) :
    exec (.readNode idx) s = .next ((s.recordError .badIndex).respond 0) := by
  rw [exec_readNode hm]
  exact if_pos h

theorem exec_readNode_free {idx : Idx} (hcap : idx.toNat < s.params.nodeCap) (hfree : s.nodes.length ≤ idx.toNat) :
    exec (.readNode idx) s = .next (s.respond 0) := by
  rw [exec_readNode hm, readNodeRule, if_neg hcap.not_ge, if_pos hfree]

theorem exec_readNode_allocated {idx : Idx} {n : Node} (hcap : idx.toNat < s.params.nodeCap)
    (hn : s.nodes[idx.toNat]? = some n) : exec (.readNode idx) s = .next (s.respond n.image) := by
  have halloc : idx.toNat < s.nodes.length := (List.getElem?_eq_some_iff.1 hn).1
  rw [exec_readNode hm, readNodeRule, if_neg hcap.not_ge, if_neg halloc.not_ge, nodeRead_of_getElem? hn]

theorem exec_readReg (reg : BitVec 4) : exec (.readReg reg) s = readRegRule reg s := exec_always rfl rfl hm

theorem exec_readReg_register {reg : BitVec 4} {v : Word64} (h : s.readRegister reg = some v) :
    exec (.readReg reg) s = .next (s.respond v) := by
  rw [exec_readReg hm, readRegRule, h]

theorem exec_readReg_badIndex {reg : BitVec 4} (h : s.readRegister reg = none) :
    exec (.readReg reg) s = .next ((s.recordError .badIndex).respond 0) := by
  rw [exec_readReg hm, readRegRule, h]

end

/-! ### The obligations -/

/-- Settles O17: READ_NODE's three branches, and in the third the fields of the entry's image. -/
theorem readNodeRespondsTheImage : Obligations.ReadNodeRespondsTheImage := fun _ _ hm =>
  ⟨exec_readNode_badIndex hm, exec_readNode_free hm,
    fun n hcap hn => ⟨n.image, exec_readNode_allocated hm hcap hn, image_fields n⟩⟩

/-- Settles O18: each number from 0 to 11 names its register by definition, the others name none. -/
theorem readRegRespondsTheRegister : Obligations.ReadRegRespondsTheRegister := by
  intro s hm
  have hreg {reg : BitVec 4} {v : Word64} : s.readRegister reg = some v → exec (.readReg reg) s = .next (s.respond v) :=
    exec_readReg_register hm
  exact ⟨hreg rfl, hreg rfl, hreg rfl, hreg rfl, hreg rfl, hreg rfl, hreg rfl, hreg rfl, hreg rfl, hreg rfl, hreg rfl, hreg rfl,
    fun _ h => exec_readReg_badIndex hm (readRegister_eq_none s h)⟩

/-- Settles O16: NOP runs in every mode that takes a command, and its own rule keeps the state. -/
theorem nopChangesNothing : Obligations.NopChangesNothing := fun _ => exec_nop

/-- Settles O21: irq is computed from the state that WRITE_CTRL leaves. -/
theorem writeCtrlSetsTheEnables : Obligations.WriteCtrlSetsTheEnables := fun _ v hm => ⟨exec_writeCtrl hm v, irq_eq_true_iff⟩

/-- Settles O22: each of the four masks decides both fields that ACK may write. -/
theorem ackClearsTheMaskedBits : Obligations.AckClearsTheMaskedBits := fun _ hm =>
  ⟨exec_ack hm 0, exec_ack hm 1, exec_ack hm 2, exec_ack hm 3⟩

end Sys2Proof.Machine
end

section
/-! PROOF. Commands that the mode does not accept only record an error: BUSY during a decode (60_exceptions.md R204), NO_RECORD
outside a record (R213). -/

namespace Sys2Proof.Machine

/-- During a decode R87's third column is what the block does. -/
theorem accept_during_decode {m : Mode} (hm : m = .walk ∨ m = .emit) (i : Instr) : accept m i = (acceptRow i).decode := by
  rcases hm with rfl | rfl <;> rfl

/-- Settles O11: each of the nine stands in R87's column WALK, EMIT as BUSY. -/
theorem treeCommandsAreBusyDuringADecode : Obligations.TreeCommandsAreBusyDuringADecode := by
  intro s i hm hw hi
  have hrow : (acceptRow i).decode = .busy := by
    rcases hi with rfl | ⟨_, rfl⟩ | ⟨_, rfl⟩ | rfl | ⟨_, rfl⟩ | rfl | ⟨_, _, rfl⟩ | rfl | rfl <;> rfl
  exact exec_busy hw ((accept_during_decode hm i).trans hrow)

/-- Settles O13: both stand in R87's column IDLE as NOREC, and every machine has them. -/
theorem pathCommandsInIdleRecordNoRecord : Obligations.PathCommandsInIdleRecordNoRecord := by
  intro s i hm hi
  have ha : accept s.mode i = .norec := by
    rw [hm]
    rcases hi with ⟨_, rfl⟩ | rfl <;> rfl
  have hn : i.needsBuilder = false := by rcases hi with ⟨_, rfl⟩ | rfl <;> rfl
  exact exec_norec (wellFormed_of_needsBuilder hn _) ha

end Sys2Proof.Machine
end

section
/-! PROOF. The first error stays (60_exceptions.md R201): RecordError writes ERR only from 0, the WALKER writes it no other way,
and of the commands only CLEAR and an ACK with mask bit 0 clear it. -/

namespace Sys2Proof.Machine

/-- From `s` to `t` ERR stays, or the HOST has transferred a command that clears it. -/
def ErrStaysOrIsCleared (s t : State) : Prop :=
  t.err = s.err ∨ ∃ w i, s.commands = w :: t.commands ∧ decode s.params w = .ok i ∧ ClearsErr i

theorem recordError_err_of_recorded {s : State} (he : s.err ≠ .none) (e : ErrCode) : (s.recordError e).err = s.err :=
  if_neg he

/-- A command leaves a recorded error, unless it is one that clears ERR. -/
theorem err_of_exec {s t : State} {i : Instr} (he : s.err ≠ .none) (h : exec i s = .next t) : t.err = s.err ∨ ClearsErr i := by
  by_cases hne : t.err = s.err
  · exact .inl hne
  · rcases (writes_of_exec h).err hne with ⟨_, hclears⟩ | ⟨hnone, _⟩
    · exact .inr hclears
    · exact absurd hnone he

/-- A transferred word: a command, or an illegal word, which only records an error. -/
theorem err_of_executeWord {s : State} (he : s.err ≠ .none) (hm : s.mode ≠ .build) (w : Word64) :
    NextMeets (fun t => t.err = s.err ∨ ∃ i, t.commands = s.commands ∧ decode s.params w = .ok i ∧ ClearsErr i)
      (executeWord w s) := by
  rcases executeWord_cases w s with ⟨i, hd, e⟩ | ⟨_, _, e⟩ <;> rw [e]
  · intro t ht
    exact (err_of_exec he ht).imp_right fun hclears => ⟨i, (writes_of_exec ht).commands, hd, hclears⟩
  · rw [illegalWord_next hm, nextMeets_next]
    exact .inl (recordError_err_of_recorded he .illegalCmd)

theorem err_of_arrive (s : State) : NextMeets (fun t => t.err = s.err) (arrive s) := by
  rcases arrive_cases s with ⟨_, e⟩ | ⟨_, _, e⟩ | ⟨_, _, e⟩ | ⟨_, _, _, _, e⟩ <;> rw [e]
  · exact nextMeets_next.2 rfl
  · exact nextMeets_fault _ _
  · exact nextMeets_next.2 rfl
  · exact nextMeets_next.2 rfl

theorem err_of_walkBit {s : State} (he : s.err ≠ .none) (b : Bool) : NextMeets (fun t => t.err = s.err) (walkBit b s) := by
  rcases walkBit_cases b s with ⟨_, e⟩ | ⟨i, _, e⟩ <;> rw [e]
  · exact nextMeets_next.2 (recordError_err_of_recorded he .deadEnd)
  · exact err_of_arrive { s with cursor := i }

theorem err_of_walkStep {s : State} (he : s.err ≠ .none) : NextMeets (fun t => t.err = s.err) (walkStep s) := by
  rcases walkStep_cases s with ⟨_, _, e⟩ | ⟨_, _, _, e⟩ | ⟨b, tokens, tail, _, e⟩ <;> rw [e]
  · exact nextMeets_fault _ _
  · exact nextMeets_next.2 rfl
  · exact err_of_walkBit (s := { s with tokens := tokens, sourceTail := tail, bitCount := s.bitCount + 1 }) he b

theorem err_of_emitStep (s : State) : NextMeets (fun t => t.err = s.err) (emitStep s) := by
  rcases emitStep_cases s with ⟨_, e⟩ | ⟨_, _, e⟩ <;> rw [e]
  · exact nextMeets_fault _ _
  · exact nextMeets_next.2 rfl

theorem errStays_agentStep {s : State} (he : s.err ≠ .none) (first : Bool) :
    NextMeets (ErrStaysOrIsCleared s) (agentStep first s) := by
  rcases agentStep_transfers first s with ⟨w, rest, hm, hc, e⟩ | ⟨_, e⟩ | ⟨_, e⟩ | e <;> rw [e]
  · exact (err_of_executeWord (s := { s with commands := rest }) he hm w).imp fun _ =>
      .imp_right fun ⟨i, hrest, hclears⟩ => ⟨w, i, by rw [hc, hrest], hclears⟩
  · exact (err_of_walkStep he).imp fun _ => .inl
  · exact (err_of_emitStep s).imp fun _ => .inl
  · exact nextMeets_fault _ _

/-- Settles O14: RecordError by definition; a step is a reset edge, or a transfer that keeps ERR or clears it by a command. -/
theorem firstErrorStaysUntilCleared : Obligations.FirstErrorStaysUntilCleared := by
  refine ⟨fun _ _ => rfl, fun s t hstep he => ?_⟩
  rcases step_resets_or_transfers s with ⟨rest, hreset, _⟩ | ⟨first, turns, n, e⟩
  · exact .inr (.inl ⟨rest, hreset⟩)
  · have hstays : ErrStaysOrIsCleared { s with turns := turns, freeTurns := n } t :=
      errStays_agentStep (s := { s with turns := turns, freeTurns := n }) he first t (e ▸ hstep)
    rcases hstays with hstays | ⟨w, i, hc, hd, rfl | ⟨m, rfl, hm⟩⟩
    · exact .inl hstays
    · exact .inr (.inr ⟨w, hc, .inl hd⟩)
    · exact .inr (.inr ⟨w, hc, .inr ⟨m, hd, hm⟩⟩)

end Sys2Proof.Machine
end

section
/-! PROOF. BUILD on a frequency table whose sum does not fit (40_builder.md R104, 60_exceptions.md R217). -/

namespace Sys2Proof.Machine

theorem exec_build_overflow {s : State} (hm : s.mode = .idle) (hb : s.params.hasBuilder = true)
    (hf : 0xFFFFFFFF < s.freqTotal) : exec .build s = .next s.buildOverflow := by
  rw [exec_run (wellFormed_of_hasBuilder hb _) (by rw [hm]; rfl)]
  exact if_pos hf

/-- Settles O41: the statement's sum is `State.freqTotal`, and its state `State.buildOverflow`, written out. -/
theorem buildRefusesAnOverflowingSum : Obligations.BuildRefusesAnOverflowingSum := fun _ hm hb hf =>
  exec_build_overflow hm hb hf

end Sys2Proof.Machine
end

section
/-! PROOF. How a run with no command left stops (70_reset_and_hazards.md R240, 60_exceptions.md R223 (c)): a WALKER that has a step
does not answer that it is stuck, and where it has none the answer is read off MODE. -/

namespace Sys2Proof.Machine

/-! ### What MODE answers where no agent has a step -/

theorem noStep_eq_runEnded {s : State} : s.noStep = .runEnded ↔ s.mode = .idle := by
  unfold State.noStep
  cases s.mode <;> simp

theorem noStep_eq_stuckNoToken {s : State} : s.noStep = .stuckNoToken ↔ s.mode = .walk := by
  unfold State.noStep
  cases s.mode <;> simp

theorem noStep_eq_stuckNoSink {s : State} : s.noStep = .stuckNoSink ↔ s.mode = .emit := by
  unfold State.noStep
  cases s.mode <;> simp

/-! ### What a WALKER with a step can fault with -/

theorem fault_of_arrive {s : State} {r : Fault} (h : arrive s = .fault r) : r = .unreachableState := by
  rcases arrive_cases s with ⟨_, e⟩ | ⟨_, _, e⟩ | ⟨_, _, e⟩ | ⟨_, _, _, _, e⟩ <;> rw [e] at h
  · cases h
  · cases h
    rfl
  · cases h
  · cases h

theorem fault_of_walkBit {s : State} {b : Bool} {r : Fault} (h : walkBit b s = .fault r) : r = .unreachableState := by
  rcases walkBit_cases b s with ⟨_, e⟩ | ⟨i, _, e⟩ <;> rw [e] at h
  · cases h
  · exact fault_of_arrive h

/-- A WALKER with a step meets a token, or a SINK that accepts (R31), so its only fault is at a leaf with no label (R146). -/
theorem fault_of_walkerStep {s : State} (hw : s.walkerEnabled = true) {r : Fault} (h : walkerStep s = .fault r) :
    r = .unreachableState := by
  rcases (walkerEnabled_iff s).1 hw with ⟨hm, htok⟩ | ⟨hm, hsink⟩
  · rw [walkerStep_of_walk hm] at h
    rcases walkStep_cases s with ⟨hnil, hends, -⟩ | ⟨_, _, -, e⟩ | ⟨b, tokens, tail, -, e⟩
    · exact absurd ⟨hnil, hends⟩ htok
    · rw [e] at h
      cases h
    · exact fault_of_walkBit (e ▸ h)
  · rw [walkerStep_of_emit hm] at h
    rcases emitStep_cases s with ⟨hk, -⟩ | ⟨_, -, e⟩
    · exact absurd hk hsink
    · rw [e] at h
      cases h

/-! ### The step -/

/-- With no command left and no reset next, the step answers a stop exactly where the WALKER has no step, and then by MODE. -/
theorem step_eq_stop_iff {s : State} (hc : s.commands = []) (hr : s.rst = false) {r : Fault} (hu : r ≠ .unreachableState) :
    step s = .fault r ↔ s.walkerEnabled = false ∧ s.noStep = r := by
  obtain ⟨turns, n, -, e⟩ := step_of_no_commands hc hr
  rw [e]
  cases hw : s.walkerEnabled with
  | false => simp
  | true =>
    have hwalker : walkerStep { s with turns := turns, freeTurns := n } ≠ .fault r := fun h =>
      hu (fault_of_walkerStep (by rw [walkerEnabled_turns, hw]) h)
    simp [hwalker]

/-- The WALKER is stuck exactly in the modes in which it works, where it has no step (R31, R223 (c)). -/
theorem walkerStuck_iff {s : State} : WalkerStuck s ↔ s.walkerEnabled = false ∧ (s.mode = .walk ∨ s.mode = .emit) := by
  rw [← Bool.not_eq_true, walkerEnabled_iff]
  cases hm : s.mode <;> simp [WalkerStuck, hm]

theorem walkerEnabled_of_idle {s : State} (hm : s.mode = .idle) : s.walkerEnabled = false := by
  rw [← Bool.not_eq_true, walkerEnabled_iff]
  simp [hm]

/-- Settles O10: each stop is answered where the WALKER has no step and MODE is the stop's own. -/
theorem runsEndOrStickAsDefined : Obligations.RunsEndOrStickAsDefined := by
  intro s hc ht
  have hr : s.rst = false := rst_of_no_reset ht
  constructor
  · rw [step_eq_stop_iff hc hr (by decide), noStep_eq_runEnded]
    exact ⟨fun ⟨_, hm⟩ => ⟨hc, hm⟩, fun ⟨_, hm⟩ => ⟨walkerEnabled_of_idle hm, hm⟩⟩
  · rw [step_eq_stop_iff hc hr (by decide), step_eq_stop_iff hc hr (by decide), noStep_eq_stuckNoToken, noStep_eq_stuckNoSink,
      walkerStuck_iff, and_or_left]

end Sys2Proof.Machine
end

section
/-! PROOF. A clock edge with rst = 1 (70_reset_and_hazards.md R230, R231, 10_state.md R58): the step does not look at MODE, and the
outputs depend on nothing but rst before it and on the reset state after it. -/

namespace Sys2Proof.Machine

theorem step_of_reset_turn {s : State} {ts : List Turn} (h : s.turns = .reset :: ts) :
    step s = .next { s with turns := ts }.resetBlock := by
  simp only [step, takeTurn, h]

/-- A reset edge leaves no cause recorded and none enabled (R54). -/
@[simp] theorem irq_resetBlock (s : State) : s.resetBlock.irq = false := irq_resetWith s.params

/-- The outputs after a reset edge, if no further one comes next (R230). -/
theorem outputs_resetBlock {s : State} (h : s.rst = false) :
    s.resetBlock.outputs = ⟨true, false, false, false, none, false⟩ := by
  rw [outputs_of_not_rst (by exact h), irq_resetBlock]
  rfl

/-- Settles O9: the state after the edge is `State.resetBlock` of the state with the turn used up, written out. -/
theorem resetActsAlikeInEveryMode : Obligations.ResetActsAlikeInEveryMode := by
  intro s ts h
  refine ⟨outputs_of_rst ((rst_iff s).2 ⟨ts, h⟩), _, step_of_reset_turn h, rfl, fun hts => ?_⟩
  exact outputs_resetBlock (s := { s with turns := ts }) (rst_of_no_reset hts)

end Sys2Proof.Machine
end
